-- ==== Sys2Proof/Word.lean ====
section
/-! DEFINITION. The words the machine is made of: a register word, a memory byte, a binary32 pattern, and the
three-lane triple of a colour (R8, R11). -/

namespace Sys2Proof

/-- A register or command word (R8: "every register is 32 bits wide"). -/
abbrev Word := BitVec 32

/-- One byte of the byte memory (R14). -/
abbrev Byte := BitVec 8

/-- A binary32 number, held as its bit pattern, so that `bits(f)` and `float(w)` of R12 are the identity. -/
abbrev F32 := BitVec 32

/-- A register triple or a colour: lanes 0, 1 and 2 (R11, R18). -/
structure Triple (α : Type) where
  c0 : α
  c1 : α
  c2 : α
  deriving DecidableEq, Repr

end Sys2Proof
end

