-- ==== Sys2Proof/Syntax.lean ====
section
/-! DEFINITION. The commands of NRPE-CMD v1: one constructor of `Instr` per row of spec/opcode_table.json. A command
carries no immediate and no register number (R71), so no constructor has an argument. -/

namespace Sys2Proof

/-- The 33 operations of R72 and R73, in the opcode map's order. -/
inductive Instr where
  | nop
  | root3
  | root5
  | root12
  | srgbDec
  | srgbEnc
  | labFwd
  | labInv
  | xyz2lab
  | lab2xyz
  | uvp
  | xyz2luv
  | xyz2luvPw
  | luv2xyz
  | luv2xyzPw
  | wset
  | matFwd
  | matInv
  | srgb2xyz
  | xyz2srgb
  | srgb2lab
  | lab2srgb
  | quant
  | batchSrgb2xyz
  | batchXyz2srgb
  | batchSrgb2lin
  | batchLin2srgb
  | batchSrgb2lab
  | batchLab2srgb
  | batchXyz2lab
  | batchLab2xyz
  | batchXyz2luv
  | batchLuv2xyz
  deriving DecidableEq, Repr

/-- The four fields of the one command format, CMDW (R70). -/
structure CmdFields where
  /-- bits 7:0 -/
  op : BitVec 8
  /-- bits 11:8 -/
  sub : BitVec 4
  /-- bit 12 -/
  w : BitVec 1
  /-- bits 31:13, reserved -/
  res : BitVec 19
  deriving DecidableEq, Repr

/-- The pipeline ids of BATCH (R73), in the order of their numbers 0 to 9. -/
inductive Pid where
  | srgb2xyz
  | xyz2srgb
  | srgb2lin
  | lin2srgb
  | srgb2lab
  | lab2srgb
  | xyz2lab
  | lab2xyz
  | xyz2luv
  | luv2xyz
  deriving DecidableEq, Repr

/-- The BATCH command of a pipeline id (R73). -/
def Pid.instr : Pid → Instr
  | .srgb2xyz => .batchSrgb2xyz
  | .xyz2srgb => .batchXyz2srgb
  | .srgb2lin => .batchSrgb2lin
  | .lin2srgb => .batchLin2srgb
  | .srgb2lab => .batchSrgb2lab
  | .lab2srgb => .batchLab2srgb
  | .xyz2lab => .batchXyz2lab
  | .lab2xyz => .batchLab2xyz
  | .xyz2luv => .batchXyz2luv
  | .luv2xyz => .batchLuv2xyz

/-- The pipeline id of a command, where the command is a BATCH (R73). -/
def Instr.pid? : Instr → Option Pid
  | .batchSrgb2xyz => some .srgb2xyz
  | .batchXyz2srgb => some .xyz2srgb
  | .batchSrgb2lin => some .srgb2lin
  | .batchLin2srgb => some .lin2srgb
  | .batchSrgb2lab => some .srgb2lab
  | .batchLab2srgb => some .lab2srgb
  | .batchXyz2lab => some .xyz2lab
  | .batchLab2xyz => some .lab2xyz
  | .batchXyz2luv => some .xyz2luv
  | .batchLuv2xyz => some .luv2xyz
  | .nop => none
  | .root3 => none
  | .root5 => none
  | .root12 => none
  | .srgbDec => none
  | .srgbEnc => none
  | .labFwd => none
  | .labInv => none
  | .xyz2lab => none
  | .lab2xyz => none
  | .uvp => none
  | .xyz2luv => none
  | .xyz2luvPw => none
  | .luv2xyz => none
  | .luv2xyzPw => none
  | .wset => none
  | .matFwd => none
  | .matInv => none
  | .srgb2xyz => none
  | .xyz2srgb => none
  | .srgb2lab => none
  | .lab2srgb => none
  | .quant => none

end Sys2Proof
end

