-- ==== Sys2Proof/WellFormed.lean ====
section
/-! DEFINITION. Which field values of a command word are legal (R70, R72, R73). An `Instr` has no operand, so every
`Instr` is well formed; what can be ill formed is a record of fields. -/

namespace Sys2Proof

/-- The reserved bits are zero (R70). -/
def CmdFields.resOk (f : CmdFields) : Bool := f.res == 0

/-- The operation code is one of R72's map (0x00 to 0x13). -/
def CmdFields.opOk (f : CmdFields) : Bool := decide (f.op.toNat ≤ 0x13)

/-- SUB is legal for OP: 0 to 2 for ROOT, 0 to 9 for BATCH, 0 elsewhere (R72). -/
def CmdFields.subOk (f : CmdFields) : Bool :=
  if f.op = 0x01#8 then decide (f.sub.toNat ≤ 2)
  else if f.op = 0x13#8 then decide (f.sub.toNat ≤ 9)
  else f.sub == 0

/-- W is legal for OP: free for XYZ2LUV and LUV2XYZ, 0 elsewhere (R72). -/
def CmdFields.wOk (f : CmdFields) : Bool := f.op == 0x09#8 || f.op == 0x0A#8 || f.w == 0

/-- The fields are those of one of the 33 operations (R72, R75). -/
def CmdFields.wf (f : CmdFields) : Bool := f.resOk && f.opOk && f.subOk && f.wOk

/-- Every command is well formed: none carries an operand (R71). -/
def Instr.wf : Instr → Bool := fun _ => true

end Sys2Proof
end

