-- ==== Sys2Proof/Decode.lean ====
section
/-! DEFINITION. The decoder of command words, total on every 32-bit word (R74), and the encoder (R76), each written
from the opcode map of R72 and R73. -/

namespace Sys2Proof

/-- Why a word is ILLEGAL (R75). -/
inductive DecodeReject where
  /-- nonzero RES bits -/
  | reservedBits
  /-- OP 0x14 to 0xFF -/
  | reservedOp
  /-- a SUB that R72 does not allow for the OP -/
  | reservedSub
  /-- W = 1 on an OP other than 0x09 and 0x0A -/
  | reservedW
  deriving DecidableEq, Repr

/-- The fields of a word (R70). -/
def CmdFields.ofWord (w : Word) : CmdFields :=
  { op := w.extractLsb' 0 8, sub := w.extractLsb' 8 4, w := w.extractLsb' 12 1, res := w.extractLsb' 13 19 }

/-- The word of four fields, `{RES, W, SUB, OP}` (R70, R76). -/
def CmdFields.toWord (f : CmdFields) : Word := f.res ++ f.w ++ f.sub ++ f.op

/-- An operation that has one form: SUB and W must be 0 (R72). -/
def decodePlain (sub : BitVec 4) (w : BitVec 1) (i : Instr) : Except DecodeReject Instr :=
  if sub ≠ 0 then .error .reservedSub else if w ≠ 0 then .error .reservedW else .ok i

/-- XYZ2LUV and LUV2XYZ: W selects the white-point source, SUB must be 0 (R72). -/
def decodeWhite (sub : BitVec 4) (w : BitVec 1) (full pw : Instr) : Except DecodeReject Instr :=
  if sub ≠ 0 then .error .reservedSub else if w = 0 then .ok full else .ok pw

/-- ROOT: SUB selects n (R71). -/
def decodeRoot (sub : BitVec 4) (w : BitVec 1) : Except DecodeReject Instr :=
  if w ≠ 0 then .error .reservedW
  else match sub.toNat with
    | 0 => .ok .root3
    | 1 => .ok .root5
    | 2 => .ok .root12
    | _ => .error .reservedSub

/-- BATCH: SUB is the pipeline id (R73). -/
def decodeBatch (sub : BitVec 4) (w : BitVec 1) : Except DecodeReject Instr :=
  if w ≠ 0 then .error .reservedW
  else match sub.toNat with
    | 0 => .ok .batchSrgb2xyz
    | 1 => .ok .batchXyz2srgb
    | 2 => .ok .batchSrgb2lin
    | 3 => .ok .batchLin2srgb
    | 4 => .ok .batchSrgb2lab
    | 5 => .ok .batchLab2srgb
    | 6 => .ok .batchXyz2lab
    | 7 => .ok .batchLab2xyz
    | 8 => .ok .batchXyz2luv
    | 9 => .ok .batchLuv2xyz
    | _ => .error .reservedSub

/-- The opcode map of R72. -/
def decodeOp (op : BitVec 8) (sub : BitVec 4) (w : BitVec 1) : Except DecodeReject Instr :=
  match op.toNat with
  | 0x00 => decodePlain sub w .nop
  | 0x01 => decodeRoot sub w
  | 0x02 => decodePlain sub w .srgbDec
  | 0x03 => decodePlain sub w .srgbEnc
  | 0x04 => decodePlain sub w .labFwd
  | 0x05 => decodePlain sub w .labInv
  | 0x06 => decodePlain sub w .xyz2lab
  | 0x07 => decodePlain sub w .lab2xyz
  | 0x08 => decodePlain sub w .uvp
  | 0x09 => decodeWhite sub w .xyz2luv .xyz2luvPw
  | 0x0A => decodeWhite sub w .luv2xyz .luv2xyzPw
  | 0x0B => decodePlain sub w .wset
  | 0x0C => decodePlain sub w .matFwd
  | 0x0D => decodePlain sub w .matInv
  | 0x0E => decodePlain sub w .srgb2xyz
  | 0x0F => decodePlain sub w .xyz2srgb
  | 0x10 => decodePlain sub w .srgb2lab
  | 0x11 => decodePlain sub w .lab2srgb
  | 0x12 => decodePlain sub w .quant
  | 0x13 => decodeBatch sub w
  | _ => .error .reservedOp

/-- Decode a command word (R74). -/
def decode (word : Word) : Except DecodeReject Instr :=
  let f := CmdFields.ofWord word
  if f.res ≠ 0 then .error .reservedBits else decodeOp f.op f.sub f.w

/-- The fields of each operation, from R72 and R73. -/
def Instr.fields : Instr → CmdFields
  | .nop => ⟨0x00, 0, 0, 0⟩
  | .root3 => ⟨0x01, 0, 0, 0⟩
  | .root5 => ⟨0x01, 1, 0, 0⟩
  | .root12 => ⟨0x01, 2, 0, 0⟩
  | .srgbDec => ⟨0x02, 0, 0, 0⟩
  | .srgbEnc => ⟨0x03, 0, 0, 0⟩
  | .labFwd => ⟨0x04, 0, 0, 0⟩
  | .labInv => ⟨0x05, 0, 0, 0⟩
  | .xyz2lab => ⟨0x06, 0, 0, 0⟩
  | .lab2xyz => ⟨0x07, 0, 0, 0⟩
  | .uvp => ⟨0x08, 0, 0, 0⟩
  | .xyz2luv => ⟨0x09, 0, 0, 0⟩
  | .xyz2luvPw => ⟨0x09, 0, 1, 0⟩
  | .luv2xyz => ⟨0x0A, 0, 0, 0⟩
  | .luv2xyzPw => ⟨0x0A, 0, 1, 0⟩
  | .wset => ⟨0x0B, 0, 0, 0⟩
  | .matFwd => ⟨0x0C, 0, 0, 0⟩
  | .matInv => ⟨0x0D, 0, 0, 0⟩
  | .srgb2xyz => ⟨0x0E, 0, 0, 0⟩
  | .xyz2srgb => ⟨0x0F, 0, 0, 0⟩
  | .srgb2lab => ⟨0x10, 0, 0, 0⟩
  | .lab2srgb => ⟨0x11, 0, 0, 0⟩
  | .quant => ⟨0x12, 0, 0, 0⟩
  | .batchSrgb2xyz => ⟨0x13, 0, 0, 0⟩
  | .batchXyz2srgb => ⟨0x13, 1, 0, 0⟩
  | .batchSrgb2lin => ⟨0x13, 2, 0, 0⟩
  | .batchLin2srgb => ⟨0x13, 3, 0, 0⟩
  | .batchSrgb2lab => ⟨0x13, 4, 0, 0⟩
  | .batchLab2srgb => ⟨0x13, 5, 0, 0⟩
  | .batchXyz2lab => ⟨0x13, 6, 0, 0⟩
  | .batchLab2xyz => ⟨0x13, 7, 0, 0⟩
  | .batchXyz2luv => ⟨0x13, 8, 0, 0⟩
  | .batchLuv2xyz => ⟨0x13, 9, 0, 0⟩

/-- Encode an operation (R76). -/
def encode (i : Instr) : Word := i.fields.toWord

/-- The word the opcode table's numbering gives: a command is one 32-bit word with bit 0 its least significant bit
(R70, R10), and bits from `nbits` up are 0. -/
def tableWord (nbits w : Nat) : Word := BitVec.ofNat 32 (w % 2 ^ nbits)

/-- The instruction the decoder reads from an opcode table row's word. -/
def decodeTableWord (nbits w : Nat) : Option Instr :=
  match decode (tableWord nbits w) with
  | .ok i => some i
  | .error _ => none

/-! Every constructor's decoding, from the words of spec/opcode_table.json. -/

theorem decode_nop : decode 0x00000000 = .ok .nop := by decide
theorem decode_root3 : decode 0x00000001 = .ok .root3 := by decide
theorem decode_root5 : decode 0x00000101 = .ok .root5 := by decide
theorem decode_root12 : decode 0x00000201 = .ok .root12 := by decide
theorem decode_srgbDec : decode 0x00000002 = .ok .srgbDec := by decide
theorem decode_srgbEnc : decode 0x00000003 = .ok .srgbEnc := by decide
theorem decode_labFwd : decode 0x00000004 = .ok .labFwd := by decide
theorem decode_labInv : decode 0x00000005 = .ok .labInv := by decide
theorem decode_xyz2lab : decode 0x00000006 = .ok .xyz2lab := by decide
theorem decode_lab2xyz : decode 0x00000007 = .ok .lab2xyz := by decide
theorem decode_uvp : decode 0x00000008 = .ok .uvp := by decide
theorem decode_xyz2luv : decode 0x00000009 = .ok .xyz2luv := by decide
theorem decode_xyz2luvPw : decode 0x00001009 = .ok .xyz2luvPw := by decide
theorem decode_luv2xyz : decode 0x0000000A = .ok .luv2xyz := by decide
theorem decode_luv2xyzPw : decode 0x0000100A = .ok .luv2xyzPw := by decide
theorem decode_wset : decode 0x0000000B = .ok .wset := by decide
theorem decode_matFwd : decode 0x0000000C = .ok .matFwd := by decide
theorem decode_matInv : decode 0x0000000D = .ok .matInv := by decide
theorem decode_srgb2xyz : decode 0x0000000E = .ok .srgb2xyz := by decide
theorem decode_xyz2srgb : decode 0x0000000F = .ok .xyz2srgb := by decide
theorem decode_srgb2lab : decode 0x00000010 = .ok .srgb2lab := by decide
theorem decode_lab2srgb : decode 0x00000011 = .ok .lab2srgb := by decide
theorem decode_quant : decode 0x00000012 = .ok .quant := by decide
theorem decode_batchSrgb2xyz : decode 0x00000013 = .ok .batchSrgb2xyz := by decide
theorem decode_batchXyz2srgb : decode 0x00000113 = .ok .batchXyz2srgb := by decide
theorem decode_batchSrgb2lin : decode 0x00000213 = .ok .batchSrgb2lin := by decide
theorem decode_batchLin2srgb : decode 0x00000313 = .ok .batchLin2srgb := by decide
theorem decode_batchSrgb2lab : decode 0x00000413 = .ok .batchSrgb2lab := by decide
theorem decode_batchLab2srgb : decode 0x00000513 = .ok .batchLab2srgb := by decide
theorem decode_batchXyz2lab : decode 0x00000613 = .ok .batchXyz2lab := by decide
theorem decode_batchLab2xyz : decode 0x00000713 = .ok .batchLab2xyz := by decide
theorem decode_batchXyz2luv : decode 0x00000813 = .ok .batchXyz2luv := by decide
theorem decode_batchLuv2xyz : decode 0x00000913 = .ok .batchLuv2xyz := by decide

end Sys2Proof
end

