-- ==== Sys2Proof/Machine/Binary32.lean ====
section
/-! DEFINITION. Binary32 arithmetic (R12): round to nearest, ties to even, no fused operation, no flush to zero, no
flags (D3). A finite binary32 is a whole number of units of 2^-149, so every operation is carried out exactly on
naturals and rounded once. A NaN an operation produces is written `nan32` here; the pattern a register gets for it is
drawn where the register is written (`Machine.settle`). -/

namespace Sys2Proof.Machine

/-- The pattern of +∞ (exponent field 255, fraction 0). -/
def infPattern : Nat := 0x7F800000

def zero32 : F32 := 0x00000000#32
def negZero32 : F32 := 0x80000000#32

/-- The one NaN used inside an operation: "no rule inspects" the pattern (R12). -/
def nan32 : F32 := 0x7FC00000#32

/-- The sign bit. -/
def signBit (x : F32) : Bool := x.msb

/-- The exponent field, bits 30:23. -/
def expField (x : F32) : Nat := (x.extractLsb' 23 8).toNat

/-- The fraction field, bits 22:0. -/
def fracField (x : F32) : Nat := (x.extractLsb' 0 23).toNat

/-- R12: `isfinite(f)` holds when `bits(f)[30:23] ≠ 255`. -/
def isFinite (x : F32) : Bool := expField x != 255

def isNaN (x : F32) : Bool := expField x == 255 && fracField x != 0

def isInf (x : F32) : Bool := expField x == 255 && fracField x == 0

/-- A zero of either sign. -/
def isZero (x : F32) : Bool := expField x == 0 && fracField x == 0

/-- The magnitude of a finite number in units of 2^-149; of an infinity, 2^128 in those units, which is above every
finite magnitude. -/
def mag (x : F32) : Nat :=
  if expField x = 0 then fracField x else (2 ^ 23 + fracField x) * 2 ^ (expField x - 1)

/-- The value in units of 2^-149. -/
def units (x : F32) : Int := if signBit x then -(mag x : Int) else (mag x : Int)

/-- How many units of 2^-149 make one. -/
def unitsPerOne : Nat := 2 ^ 149

/-- The whole number nearest to `n / d`, a tie to the even one. -/
def nearestEven (n d : Nat) : Nat :=
  if 2 * (n % d) < d then n / d
  else if d < 2 * (n % d) then n / d + 1
  else if n / d % 2 = 0 then n / d else n / d + 1

/-- The whole number nearest to `n / d`, a tie to the larger one. -/
def nearestAway (n d : Nat) : Nat := if 2 * (n % d) < d then n / d else n / d + 1

/-- How many low bits of a magnitude of `n / d` units fall below the 24 bits of a significand. -/
def excessBits (n d : Nat) : Nat := (n / d).log2 - 23

/-- The pattern, without its sign, of the binary32 nearest to `n / d` units, ties to even, overflow to infinity. The
significand's carry runs into the exponent field by the addition. -/
def roundMag (n d : Nat) : Nat :=
  min infPattern (2 ^ 23 * excessBits n d + nearestEven n (d * 2 ^ excessBits n d))

/-- A sign and a pattern without its sign. -/
def pack (sign : Bool) (low : Nat) : F32 := BitVec.ofNat 32 ((if sign then 2 ^ 31 else 0) + low)

def inf32 (sign : Bool) : F32 := pack sign infPattern

/-- The binary32 nearest to the fraction `n / d` with the given sign (R13: a decimal literal stands for it). -/
def nearestF32 (sign : Bool) (n d : Nat) : F32 := pack sign (roundMag (unitsPerOne * n) d)

/-- `i2f(k)` (R12). -/
def i2f (k : Nat) : F32 := nearestF32 false k 1

/-- Change the sign. -/
def fneg (x : F32) : F32 := x ^^^ negZero32

/-- The sum of two finite numbers: an exact zero is −0 only where both are −0. -/
def faddFinite (x y : F32) : F32 :=
  if units x + units y = 0 then (if signBit x && signBit y then negZero32 else zero32)
  else pack (decide (units x + units y < 0)) (roundMag (units x + units y).natAbs 1)

/-- `fadd` (R12). -/
def fadd (x y : F32) : F32 :=
  if isNaN x || isNaN y then nan32
  else if isInf x then (if isInf y && signBit x != signBit y then nan32 else x)
  else if isInf y then y
  else faddFinite x y

/-- `fsub` (R12). -/
def fsub (x y : F32) : F32 := fadd x (fneg y)

/-- `fmul` (R12). -/
def fmul (x y : F32) : F32 :=
  if isNaN x || isNaN y then nan32
  else if isInf x || isInf y then
    (if isZero x || isZero y then nan32 else inf32 (signBit x != signBit y))
  else pack (signBit x != signBit y) (roundMag (mag x * mag y) unitsPerOne)

/-- `fdiv` (R12): x/0 is an infinity, 0/0 and ∞/∞ are NaN (D46). -/
def fdiv (x y : F32) : F32 :=
  if isNaN x || isNaN y then nan32
  else if isInf x then (if isInf y then nan32 else inf32 (signBit x != signBit y))
  else if isInf y then pack (signBit x != signBit y) 0
  else if isZero y then (if isZero x then nan32 else inf32 (signBit x != signBit y))
  else pack (signBit x != signBit y) (roundMag (unitsPerOne * mag x) (mag y))

/-- `fle` (R12, D45): the ordered comparison, false when either side is NaN; −0 and +0 compare equal. -/
def fle (x y : F32) : Bool := !isNaN x && !isNaN y && decide (units x ≤ units y)

/-- `feq` (R12, D44). -/
def feq (x y : F32) : Bool := !isNaN x && !isNaN y && decide (units x = units y)

/-- `x³ = (x·x)·x` (R12). -/
def fcube (x : F32) : F32 := fmul (fmul x x) x

end Sys2Proof.Machine
end

