-- ==== Sys2Proof/Config.lean ====
section
/-! DEFINITION. What an implementation fixes (R7) and the one free value (`NAN_DRAW`).

`Config` is the list of parameters R7 says a model takes as arguments. It is plain data that `Machine.State` carries
(assumption log 1), so every statement over all states holds for every value of them. Two of R7's parameters have one
legal value and no field: `ROOT_SET` is {3, 5, 12}, the type `RootIndex`, and `LEN_MOD4` is TRUNCATE, which the batch
converter does. `CORR` is fixed by R103 (Machine/Constants.lean). -/

namespace Sys2Proof

/-- `ROOT_SET` (R7): the root indices the engine supports. -/
inductive RootIndex where
  | n3
  | n5
  | n12
  deriving DecidableEq, Repr

/-- `QROUND` (R7): the tie rule of the byte quantizer. -/
inductive QRound where
  | tiesEven
  | tiesAway
  deriving DecidableEq, Repr

/-- `SUBNORMAL_ROOT` (R7): what ROOT does with a positive subnormal. -/
inductive SubnormalRoot where
  | compute
  | fault
  deriving DecidableEq, Repr

/-- The coefficients c0 to c4 of one degree-4 polynomial (R7, R104). -/
structure Poly where
  c0 : F32
  c1 : F32
  c2 : F32
  c3 : F32
  c4 : F32
  deriving DecidableEq, Repr

/-- A 3×3 binary32 matrix, as its three rows (R160). -/
abbrev Mat3 := Triple (Triple F32)

/-- The implementation parameters of R7 that have more than one admitted value. -/
structure Config where
  /-- `POLY[3]` -/
  poly3 : Poly
  /-- `POLY[5]` -/
  poly5 : Poly
  /-- `POLY[12]` -/
  poly12 : Poly
  matFwd : Mat3
  matInv : Mat3
  qround : QRound
  subnormalRoot : SubnormalRoot
  /-- `MEM_BYTES`, 1 to 2^32 -/
  memBytes : Nat
  deriving DecidableEq, Repr

/-- The values R7 admits for `MEM_BYTES`. -/
abbrev Config.Admitted (c : Config) : Prop := 1 ≤ c.memBytes ∧ c.memBytes ≤ 2 ^ 32

/-- `NAN_DRAW` (R7, R12, I10): the pattern drawn for the n-th NaN that an operation writes to a register. FREE VALUE:
no body, so nothing can be proved of it; `Machine.nanPattern` keeps the one limit the spec sets, that it is a NaN
(assumption log 3). -/
opaque Config.nanDraw : Nat → BitVec 32

end Sys2Proof
end

