-- ==== Sys2Proof/Machine/Constants.lean ====
section
/-! DEFINITION. The read-only constant tables (R30): the constants of R100, the correction tables of R103, and the
default parameters of R9, R161 and R162. -/

namespace Sys2Proof.Machine

/-! R100. -/

def kDecT : F32 := 0x3D25AEE6#32
def k1292 : F32 := 0x414EB852#32
def k055 : F32 := 0x3D6147AE#32
def k1055 : F32 := 0x3F870A3D#32
def kEncT : F32 := 0x3B4D2E1C#32
def labT : F32 := 0x3C111AA7#32
def labK : F32 := 0x3E038027#32
def f4over29 : F32 := 0x3E0D3DCB#32
def f6over29 : F32 := 0x3E53DCB1#32
def kappa : F32 := 0x4461D2F7#32
def lT : F32 := 0x41000000#32
def f116 : F32 := 0x42E80000#32
def f16 : F32 := 0x41800000#32
def f500 : F32 := 0x43FA0000#32
def f200 : F32 := 0x43480000#32
def f13 : F32 := 0x41500000#32
def f15 : F32 := 0x41700000#32
def f3 : F32 := 0x40400000#32
def f4 : F32 := 0x40800000#32
def f9 : F32 := 0x41100000#32
def f1 : F32 := 0x3F800000#32
def f12 : F32 := 0x41400000#32
def f20 : F32 := 0x41A00000#32

/-- 255.0, the reset value of the scales (R250) and the quantizer's upper clamp (R180). -/
def f255 : F32 := 0x437F0000#32

/-- `CORR[3]` (R103). -/
def corr3 : List F32 := [0x3F214518#32, 0x3F4B2FF5#32, 0x3F800000#32, 0x3FA14518#32, 0x3FCB2FF5#32]

/-- `CORR[5]` (R103). -/
def corr5 : List F32 :=
  [0x3F13088C#32, 0x3F28E5A3#32, 0x3F420300#32, 0x3F5EDC67#32, 0x3F800000#32, 0x3F93088C#32, 0x3FA8E5A3#32,
   0x3FC20300#32, 0x3FDEDC67#32]

/-- `CORR[12]` (R103). -/
def corr12 : List F32 :=
  [0x3F079C7D#32, 0x3F0FACD6#32, 0x3F1837F0#32, 0x3F214518#32, 0x3F2ADC08#32, 0x3F3504F3#32, 0x3F3FC887#32,
   0x3F4B2FF5#32, 0x3F5744FD#32, 0x3F6411F0#32, 0x3F71A1BF#32, 0x3F800000#32, 0x3F879C7D#32, 0x3F8FACD6#32,
   0x3F9837F0#32, 0x3FA14518#32, 0x3FAADC08#32, 0x3FB504F3#32, 0x3FBFC887#32, 0x3FCB2FF5#32, 0x3FD744FD#32,
   0x3FE411F0#32, 0x3FF1A1BF#32]

/-- `CORR[n]` (R103). -/
def corrTable : RootIndex → List F32
  | .n3 => corr3
  | .n5 => corr5
  | .n12 => corr12

/-- The number n of a root index. -/
def rootNat : RootIndex → Nat
  | .n3 => 3
  | .n5 => 5
  | .n12 => 12

/-- `POLY[n]` of the configuration (R7). -/
def polyOf (cfg : Config) : RootIndex → Poly
  | .n3 => cfg.poly3
  | .n5 => cfg.poly5
  | .n12 => cfg.poly12

/-- `REF_POLY[3]` (R9). -/
def refPoly3 : Poly := ⟨0x3ECEF20F, 0x3F909DF6, 0xBF6EE938, 0x3F070B7C, 0xBE035E7B⟩

/-- `REF_POLY[5]` (R9). -/
def refPoly5 : Poly := ⟨0x3F18AB96, 0x3F554D8B, 0xBF43B366, 0x3EE37C7B, 0xBDE0228E⟩

/-- `REF_POLY[12]` (R9). -/
def refPoly12 : Poly := ⟨0x3F50163A, 0x3ED35FCA, 0xBED09FDB, 0x3E77D382, 0xBD76B455⟩

/-- `REF_MAT_FWD` (R161). -/
def refMatFwd : Mat3 :=
  ⟨⟨0x3ED32D7E, 0x3EB71436, 0x3E38C49B⟩, ⟨0x3E59C6E9, 0x3F371436, 0x3D93D07C⟩, ⟨0x3C9E621E, 0x3DF41AF3, 0x3F734721⟩⟩

/-- `REF_MAT_INV` (R162). -/
def refMatInv : Mat3 :=
  ⟨⟨0x404F639A, 0xBFC4C0F4, 0xBEFF3F82⟩, ⟨0xBF7821D2, 0x3FF02120, 0x3D2A36A5⟩, ⟨0x3D63EA5E, 0xBE50EC2B, 0x3F875328⟩⟩

/-- The default configuration of R7: `REF_POLY`, the reference matrices, TIES_EVEN, COMPUTE. `POLY` and the matrices
are OPEN (a claim about the real block must hold for every admitted value); `MEM_BYTES` is OPEN without a default, and
2^32, the whole address space, is the model's choice. DESIGN CHOICE, assumption log 1 and 2; unsafe. -/
def refConfig : Config :=
  { poly3 := refPoly3, poly5 := refPoly5, poly12 := refPoly12, matFwd := refMatFwd, matInv := refMatInv,
    qround := .tiesEven, subnormalRoot := .compute, memBytes := 2 ^ 32 }

end Sys2Proof.Machine
end

