-- ==== Sys2Proof/Machine/State.lean ====
section
/-! DEFINITION. The machine's state as plain data, its fault codes, the moves of the host, the reasons a step can stop,
and the state after reset. -/

namespace Sys2Proof.Machine

/-- The fault codes of an operation (R220). They are the block's own: an operation that faults ends in a next state. -/
inductive FaultCode where
  /-- the word written to CMD decodes to no operation -/
  | illegalCmd
  /-- a checked register, or a decoded channel of a BATCH, is not finite -/
  | domainOperand
  /-- a root of a number that is not positive and finite -/
  | domainRoot
  /-- a channel times its OUT_SCALE is NaN -/
  | quantNan
  /-- a BATCH range reaches past MEM_BYTES -/
  | bounds
  /-- the white chromaticity y is a zero -/
  | whiteZero
  deriving DecidableEq, Repr

/-- `Fault(code, info)` (R15). -/
structure OpFault where
  code : FaultCode
  info : Nat
  deriving DecidableEq, Repr

/-- What an operation's evaluation answers: a value or the first fault it reaches (R224). -/
abbrev Eval (α : Type) := Except OpFault α

/-- The named registers of the window (R21). -/
inductive Reg where
  | cmd
  | status
  | ctrl
  | errInfo
  | a0
  | a1
  | a2
  | r0
  | r1
  | r2
  | wx
  | wy
  | wz
  | wup
  | wvp
  | inScale0
  | inScale1
  | inScale2
  | outScale0
  | outScale1
  | outScale2
  | bufAddr
  | bufOff
  | bufLen
  | batchIdx
  deriving DecidableEq, Repr

/-- STATUS less BUSY (R23). BUSY is 1 exactly when the phase is not IDLE (R36), so it is read from the phase
(`State.busy`). The reserved bits read 0 and have no storage. -/
structure Status where
  done : Bool
  err : Bool
  wlost : Bool
  /-- ERRCODE, bits 15:8 -/
  errCode : BitVec 8
  deriving DecidableEq, Repr

/-- The engine's phase (R36). The operation of RUN(op) and WALK(op, k) is the one CMD's word encodes, since CMD cannot
change while BUSY = 1 (R25); DEDUCED, assumption log 7. -/
inductive Phase where
  | idle
  | run
  | walk (k : Nat)
  deriving DecidableEq, Repr

/-- What the host can do to the block (R77, R268). `slot` is the number of an aligned word of the register window, its
byte offset divided by 4, so that no other access can be written down (R22). -/
inductive HostAction where
  /-- `wr`: write a word to the register window -/
  | wr (slot : BitVec 6) (w : Word)
  /-- `rd`: read a word of the register window -/
  | rd (slot : BitVec 6)
  /-- `wb`: write a byte of the byte memory -/
  | wb (addr : Word) (b : Byte)
  /-- `rb`: read a byte of the byte memory -/
  | rb (addr : Word)
  /-- the reset signal -/
  | reset
  deriving DecidableEq, Repr

/-- Who moves next (R265: host and engine steps interleave in any order). -/
inductive Turn where
  /-- the engine takes its step, if it has one -/
  | engine
  /-- the host acts -/
  | host (act : HostAction)
  /-- the host polls STATUS until BUSY = 0 (R77 `wait`): the engine steps while busy, then the host reads STATUS -/
  | wait
  deriving DecidableEq, Repr

/-- What the host gets back (R268). -/
inductive Reply where
  | word (w : Word)
  | byte (b : Byte)
  deriving DecidableEq, Repr

/-- The byte addresses from `first` up to but not including `past`. -/
structure ByteRange where
  first : Nat
  past : Nat
  deriving DecidableEq, Repr

/-- Why the machine stops with a fault. -/
inductive Fault where
  /-- Raised by a host byte access, and by a pixel step, at an address at or above MEM_BYTES, which does not exist
  (R50, R268). The engine's entry check (R191) keeps every pixel of a run below it. SAFE: the machine stops. -/
  | noSuchByte (addr : Nat)
  deriving DecidableEq, Repr

/-- Why the machine has no meaning for a step. -/
inductive Refusal where
  /-- An instruction without a meaning yet: raised by `exec`'s arm for it only. SAFE. -/
  | notModelled (mnemonic : String)
  /-- Raised by a host byte access inside the range of a BATCH that runs, or of one that has ended and whose DONE the
  host has not seen: "the model has no host transition for it" (R63, R262, I14). SAFE. -/
  | hostInBatchRange (addr : Nat)
  deriving DecidableEq, Repr

/-- The state of the block, its byte memory, and what the model adds to run it. -/
structure State where
  /-- CMD: the last command word the block accepted (R25) -/
  cmd : Word
  /-- STATUS (R23) -/
  status : Status
  /-- CTRL.IRQ_EN; the other bits of CTRL read 0 and have no storage (R24) -/
  irqEn : Bool
  /-- ERR_INFO (R26) -/
  errInfo : Word
  /-- A0, A1, A2 (R27) -/
  a : Triple Word
  /-- R0, R1, R2 (R28) -/
  r : Triple Word
  /-- WX (R29) -/
  wx : Word
  /-- WY -/
  wy : Word
  /-- WZ -/
  wz : Word
  /-- WUP -/
  wup : Word
  /-- WVP -/
  wvp : Word
  /-- IN_SCALE0..2 (R33) -/
  inScale : Triple Word
  /-- OUT_SCALE0..2 (R33) -/
  outScale : Triple Word
  /-- BUF_ADDR (R31) -/
  bufAddr : Word
  /-- BUF_OFF -/
  bufOff : Word
  /-- BUF_LEN -/
  bufLen : Word
  /-- BATCH_IDX (R32) -/
  batchIdx : Word
  /-- the hidden phase (R36) -/
  phase : Phase
  /-- the byte memory (R50): addresses rising, no byte listed that an unlisted address reads as (`Memory.wf`) -/
  mem : List Host.Cell
  /-- the ranges the host has handed over with a BATCH and not got back, newest first: from the CMD write until it sees
  DONE (R262, R268 "the bytes until DONE"; assumption log 9) -/
  handed : List ByteRange
  /-- the parameters of R7, which no step writes (assumption log 1) -/
  cfg : Config
  /-- the model's own: how many NaN patterns have been drawn (assumption log 3) -/
  nanDraws : Nat
  /-- the model's own: the turns to come (assumption log 5) -/
  script : List Turn
  /-- the model's own: what the host has read, newest first (assumption log 13) -/
  replies : List Reply
  deriving DecidableEq, Repr

/-- The machine right after reset (R250). The parameters are R7's defaults (assumption log 1 and 2), the byte memory
lists nothing (log 4), and the model's own fields start empty (log 3, 5 and 13): DESIGN CHOICE. -/
def State.reset : State where
  cmd := 0x00000000#32
  status := { done := false, err := false, wlost := false, errCode := 0x00#8 }
  irqEn := false
  errInfo := 0x00000000#32
  a := ⟨0x00000000#32, 0x00000000#32, 0x00000000#32⟩
  r := ⟨0x00000000#32, 0x00000000#32, 0x00000000#32⟩
  wx := 0x00000000#32
  wy := 0x00000000#32
  wz := 0x00000000#32
  wup := 0x00000000#32
  wvp := 0x00000000#32
  inScale := ⟨0x437F0000#32, 0x437F0000#32, 0x437F0000#32⟩
  outScale := ⟨0x437F0000#32, 0x437F0000#32, 0x437F0000#32⟩
  bufAddr := 0x00000000#32
  bufOff := 0x00000000#32
  bufLen := 0x00000000#32
  batchIdx := 0x00000000#32
  phase := .idle
  mem := []
  handed := []
  cfg := refConfig
  nanDraws := 0
  script := []
  replies := []

end Sys2Proof.Machine
end

