-- ==== Sys2Proof/Machine/Flags.lean ====
section
/-! DEFINITION. The flags: STATUS and CTRL as the words the host reads (R23, R24), the fault codes' numbers (R220) and
the interrupt line (R230). -/

namespace Sys2Proof.Machine

/-- ERRCODE of a fault (R220). -/
def faultByte : FaultCode → BitVec 8
  | .illegalCmd => 0x01
  | .domainOperand => 0x02
  | .domainRoot => 0x03
  | .quantNan => 0x04
  | .bounds => 0x05
  | .whiteZero => 0x06

/-- STATUS.BUSY: 1 exactly when the phase is not IDLE (R36). -/
def State.busy (s : State) : Bool := s.phase != .idle

/-- An operation has ended and DONE says so (R23, R36). -/
def State.ended (s : State) : Bool := !s.busy && s.status.done

/-- The word of STATUS (R23): {0, ERRCODE, 0, WLOST, ERR, DONE, BUSY}. -/
def statusWord (s : State) : Word :=
  (0#16 ++ s.status.errCode ++ 0#4 ++ BitVec.ofBool s.status.wlost ++ BitVec.ofBool s.status.err
    ++ BitVec.ofBool s.status.done ++ BitVec.ofBool s.busy : BitVec (16 + 8 + 4 + 1 + 1 + 1 + 1))

/-- The word of CTRL (R24). -/
def ctrlWord (s : State) : Word := (0#31 ++ BitVec.ofBool s.irqEn : BitVec (31 + 1))

/-- The interrupt output line: a level (R230). -/
def State.irq (s : State) : Bool := s.irqEn && s.status.done

end Sys2Proof.Machine
end

