-- ==== Sys2Proof/Machine/Operands.lean ====
section
/-! DEFINITION. The registers as operands: the register map (R21), reading and writing one register, the operand check
(R17), and the byte the quantizer gives. -/

namespace Sys2Proof.Machine

/-- The byte offset of a register in the window (R21). -/
def regOffset : Reg → Nat
  | .cmd => 0x00
  | .status => 0x04
  | .ctrl => 0x08
  | .errInfo => 0x0C
  | .a0 => 0x10
  | .a1 => 0x14
  | .a2 => 0x18
  | .r0 => 0x20
  | .r1 => 0x24
  | .r2 => 0x28
  | .wx => 0x30
  | .wy => 0x34
  | .wz => 0x38
  | .wup => 0x3C
  | .wvp => 0x40
  | .inScale0 => 0x44
  | .inScale1 => 0x48
  | .inScale2 => 0x4C
  | .outScale0 => 0x50
  | .outScale1 => 0x54
  | .outScale2 => 0x58
  | .bufAddr => 0x60
  | .bufOff => 0x64
  | .bufLen => 0x68
  | .batchIdx => 0x6C

/-- The register at a byte offset of the window, none where the offset is reserved (R21). -/
def regAt : Nat → Option Reg
  | 0x00 => some .cmd
  | 0x04 => some .status
  | 0x08 => some .ctrl
  | 0x0C => some .errInfo
  | 0x10 => some .a0
  | 0x14 => some .a1
  | 0x18 => some .a2
  | 0x20 => some .r0
  | 0x24 => some .r1
  | 0x28 => some .r2
  | 0x30 => some .wx
  | 0x34 => some .wy
  | 0x38 => some .wz
  | 0x3C => some .wup
  | 0x40 => some .wvp
  | 0x44 => some .inScale0
  | 0x48 => some .inScale1
  | 0x4C => some .inScale2
  | 0x50 => some .outScale0
  | 0x54 => some .outScale1
  | 0x58 => some .outScale2
  | 0x60 => some .bufAddr
  | 0x64 => some .bufOff
  | 0x68 => some .bufLen
  | 0x6C => some .batchIdx
  | _ => none

/-- The register at a word of the window: its byte offset is four times the slot (R22). -/
def regOfSlot (slot : BitVec 6) : Option Reg := regAt (4 * slot.toNat)

/-- The slot of a register. -/
def slotOf (g : Reg) : BitVec 6 := BitVec.ofNat 6 (regOffset g / 4)

/-- What a register holds (R11: "A read of X in pseudocode gives its current 32-bit contents"). -/
def State.get (s : State) : Reg → Word
  | .cmd => s.cmd
  | .status => statusWord s
  | .ctrl => ctrlWord s
  | .errInfo => s.errInfo
  | .a0 => s.a.c0
  | .a1 => s.a.c1
  | .a2 => s.a.c2
  | .r0 => s.r.c0
  | .r1 => s.r.c1
  | .r2 => s.r.c2
  | .wx => s.wx
  | .wy => s.wy
  | .wz => s.wz
  | .wup => s.wup
  | .wvp => s.wvp
  | .inScale0 => s.inScale.c0
  | .inScale1 => s.inScale.c1
  | .inScale2 => s.inScale.c2
  | .outScale0 => s.outScale.c0
  | .outScale1 => s.outScale.c1
  | .outScale2 => s.outScale.c2
  | .bufAddr => s.bufAddr
  | .bufOff => s.bufOff
  | .bufLen => s.bufLen
  | .batchIdx => s.batchIdx

/-- The white point as XYZ (R29). -/
def State.white (s : State) : Triple F32 := ⟨s.wx, s.wy, s.wz⟩

/-- `start` (R190): no wrap. -/
def State.batchStart (s : State) : Nat := s.bufAddr.toNat + s.bufOff.toNat

/-- `npix` (R190): the trailing BUF_LEN mod 4 bytes are ignored. -/
def State.npix (s : State) : Nat := s.bufLen.toNat / 4

/-- The address of pixel k (R52, R192). -/
def State.pixelAddr (s : State) (k : Nat) : Nat := s.batchStart + 4 * k

/-- The range of a BATCH, `[start, start + 4·npix)` (R63, R262). -/
def State.batchRange (s : State) : ByteRange := ⟨s.batchStart, s.batchStart + 4 * s.npix⟩

/-- The operand registers (R27). -/
def aRegs : List Reg := [.a0, .a1, .a2]

/-- The operands and the XYZ white. -/
def aWhiteRegs : List Reg := [.a0, .a1, .a2, .wx, .wy, .wz]

/-- The operands and the precomputed white. -/
def aPwRegs : List Reg := [.a0, .a1, .a2, .wy, .wup, .wvp]

/-- QUANT's checked list (R181). -/
def quantRegs : List Reg := [.a0, .a1, .a2, .outScale0, .outScale1, .outScale2]

/-- `check_finite` (R17): the first register of the list, in order, that does not hold a finite binary32 faults with
its byte offset. -/
def checkFinite (s : State) : List Reg → Eval Unit
  | [] => .ok ()
  | g :: rest =>
    if isFinite (s.get g) then checkFinite s rest else .error ⟨.domainOperand, regOffset g⟩

/-- `lanewise` on a triple (R109): lanes 0, 1, 2 in order, the first fault ends it. -/
def lanewise (f : F32 → Nat → Eval F32) (c : Triple F32) : Eval (Triple F32) := do
  let t0 ← f c.c0 0
  let t1 ← f c.c1 1
  let t2 ← f c.c2 2
  return ⟨t0, t1, t2⟩

/-- A byte in bits 7:0 of a register (R181). -/
def byteWord (b : Byte) : Word := b.zeroExtend 32

end Sys2Proof.Machine
end

