-- ==== Sys2Proof/Machine/Ops.lean ====
section
/-! DEFINITION. The named operations every meaning is made of: the byte memory, the end of an operation with and without
a fault (R222, R223), the acknowledge (R227), the start of a command (R223), and the shared shapes of the meanings. -/

namespace Sys2Proof.Machine

/-! The byte memory (R50, R14). -/

/-- What an address reads as that the memory does not list. The spec's byte memory holds "any value (a draw)" at
power-up (R250, I15). DESIGN CHOICE, assumption log 4; unsafe for a claim that starts from `State.reset`. -/
def unlistedByte : Byte := 0x00#8

/-- The byte at an address. -/
def memGet : List Host.Cell → Nat → Byte
  | [], _ => unlistedByte
  | (b, v) :: rest, x => if x = b then v else memGet rest x

/-- The memory with one byte written, in canonical form. -/
def memSet : List Host.Cell → Nat → Byte → List Host.Cell
  | [], x, v => if v = unlistedByte then [] else [(x, v)]
  | (b, u) :: rest, x, v =>
    if x < b then (if v = unlistedByte then (b, u) :: rest else (x, v) :: (b, u) :: rest)
    else if x = b then (if v = unlistedByte then rest else (x, v) :: rest)
    else (b, u) :: memSet rest x v

/-- The canonical form: addresses strictly rising, no byte listed that an unlisted address reads as. -/
abbrev Memory.wf (m : List Host.Cell) : Prop :=
  m.Pairwise (fun p q => p.1 < q.1) ∧ ∀ p ∈ m, p.2 ≠ unlistedByte

/-- The byte at an address of the state's memory. -/
def State.byteAt (s : State) (x : Nat) : Byte := memGet s.mem x

/-- `MemRead(addr, 1)` (R14): none where the address does not exist (R50). -/
def memRead (s : State) (x : Nat) : Option Byte := if x < s.cfg.memBytes then some (s.byteAt x) else none

/-- `MemWrite(addr, 1, v)` (R14). -/
def memWrite (s : State) (x : Nat) (v : Byte) : State := { s with mem := memSet s.mem x v }

/-! The end of an operation. -/

/-- End with a fault (R222), the block's one exception entry: ERR_INFO, DONE, ERR and ERRCODE are written, WLOST is
unchanged, the phase returns to IDLE (so BUSY reads 0), and nothing else changes. -/
def State.raise (s : State) (f : OpFault) : State :=
  { s with
    errInfo := BitVec.ofNat 32 f.info
    status := { s.status with done := true, err := true, errCode := faultByte f.code }
    phase := .idle }

/-- End without a fault (R223 step 3), less the results: DONE is set, ERR and ERRCODE are cleared, WLOST and ERR_INFO
are unchanged, the phase returns to IDLE. -/
def State.complete (s : State) : State :=
  { s with status := { s.status with done := true, err := false, errCode := 0x00#8 }, phase := .idle }

/-- The acknowledge, the block's return from a fault (R227): it clears DONE, ERR and ERRCODE together. It has no effect
while BUSY = 1 or while DONE = 0. -/
def State.acknowledge (s : State) : State :=
  if s.ended then
    { s with status := { s.status with done := false, err := false, errCode := 0x00#8 } }
  else s

/-- The ranges handed over once the command word `w` starts: a BATCH adds its own (R262: "from the CMD write that starts
a BATCH"). -/
def State.handOver (s : State) (w : Word) : List ByteRange :=
  match decode w with
  | .ok i => if i.pid?.isSome then s.batchRange :: s.handed else s.handed
  | .error _ => s.handed

/-- Start of a command (R223 step 1): CMD is written, DONE, ERR and ERRCODE are cleared, and the phase becomes RUN (so
BUSY reads 1). WLOST, ERR_INFO and every other register are unchanged. A BATCH takes its bytes over from the host. -/
def State.startCommand (s : State) (w : Word) : State :=
  { s with
    cmd := w
    status := { s.status with done := false, err := false, errCode := 0x00#8 }
    phase := .run
    handed := s.handOver w }

/-- The operation the engine runs: CMD's word, decoded (R223 step 2, R74). -/
def State.operation (s : State) : Except DecodeReject Instr := decode s.cmd

/-! Writing results. -/

/-- A NaN pattern for the n-th draw: any NaN pattern (R7). The draw itself where it is one, else the quiet NaN, so that
every NaN pattern can be drawn and no other. -/
def nanPattern (n : Nat) : Word := if isNaN (Config.nanDraw n) then Config.nanDraw n else nan32

/-- The pattern a register gets for a result (R12): its own bits, or, for a NaN, one the next draw gives. -/
def settleWord (n : Nat) (x : F32) : Word := if isNaN x then nanPattern n else x

/-- The draw counter after `settleWord`. -/
def settleNext (n : Nat) (x : F32) : Nat := if isNaN x then n + 1 else n

/-- R0, R1 and R2 written together (R28, R223). -/
def State.writeResult (s : State) (t : Triple F32) : State :=
  let n1 := settleNext s.nanDraws t.c0
  let n2 := settleNext n1 t.c1
  { s with
    r := ⟨settleWord s.nanDraws t.c0, settleWord n1 t.c1, settleWord n2 t.c2⟩
    nanDraws := settleNext n2 t.c2 }

/-- WX, WY, WZ, WUP and WVP written together (R151). -/
def State.writeWhite (s : State) (w : Triple F32) (up vp : F32) : State :=
  let n1 := settleNext s.nanDraws w.c0
  let n2 := settleNext n1 w.c1
  let n3 := settleNext n2 w.c2
  let n4 := settleNext n3 up
  { s with
    wx := settleWord s.nanDraws w.c0
    wy := settleWord n1 w.c1
    wz := settleWord n2 w.c2
    wup := settleWord n3 up
    wvp := settleWord n4 vp
    nanDraws := settleNext n4 vp }

/-! The shapes of the meanings. -/

/-- An evaluation's end step: the fault of R222, or the writes and the end of R223, in one step. -/
def endStep {α : Type} (s : State) (e : Eval α) (write : State → α → State) : Host.Outcome State Fault Refusal :=
  match e with
  | .error f => .next (s.raise f)
  | .ok v => .next (write s v).complete

/-- An operation that checks registers and then computes a triple for R0 to R2. -/
def runTriple (s : State) (checked : List Reg) (e : Eval (Triple F32)) : Host.Outcome State Fault Refusal :=
  endStep s (do checkFinite s checked; e) State.writeResult

end Sys2Proof.Machine
end

