-- ==== Sys2Proof/Machine/Root.lean ====
section
/-! DEFINITION. The Approximate Root Engine (R101 to R106) and ROOT.3, ROOT.5, ROOT.12 (R110 to R112). -/

namespace Sys2Proof.Machine

/-- Whether `RootEngine` computes for `x` (R101): positive, not a zero, finite, and not a subnormal where
`SUBNORMAL_ROOT` is FAULT. -/
def rootAdmits (cfg : Config) (x : F32) : Bool :=
  !signBit x && !isZero x && isFinite x && !(expField x == 0 && cfg.subnormalRoot == .fault)

/-- `e = E − 126` (R102). -/
def rootExponent (x : F32) : Int := (expField x : Int) - 126

/-- `m = float(0x3F000000 | b[22:0])` (R102). -/
def rootMantissa (x : F32) : F32 := 0x3F000000#32 ||| (x &&& 0x007FFFFF#32)

/-- The polynomial by Horner's scheme, each multiply and add rounded (R104). -/
def horner (p : Poly) (m : F32) : F32 :=
  fadd (fmul (fadd (fmul (fadd (fmul (fadd (fmul p.c4 m) p.c3) m) p.c2) m) p.c1) m) p.c0

/-- `e′ = trunc_div(e, n)` (R105). -/
def rootQuotient (n : RootIndex) (e : Int) : Int := e.tdiv (rootNat n)

/-- `s = float({0, (e′ + 127)[7:0], 0})` (R105). -/
def rootScale (q : Int) : F32 := BitVec.ofNat 32 (2 ^ 23 * ((q + 127).toNat % 2 ^ 8))

/-- `i = (e − e′·n) + (n − 1)` (R106). -/
def corrIndex (n : RootIndex) (e : Int) : Nat :=
  (e - rootQuotient n e * rootNat n + ((rootNat n : Int) - 1)).toNat

/-- `k = CORR[n][i]` (R106); the index is always inside the table (R107). -/
def corrAt (n : RootIndex) (i : Nat) : F32 := (corrTable n).getD i zero32

/-- `(p · s) · k` (R102 to R106). -/
def rootValue (cfg : Config) (n : RootIndex) (x : F32) : F32 :=
  fmul
    (fmul (horner (polyOf cfg n) (rootMantissa x)) (rootScale (rootQuotient n (rootExponent x))))
    (corrAt n (corrIndex n (rootExponent x)))

/-- `RootEngine(x, n)` at a lane (R101). -/
def rootEngine (cfg : Config) (n : RootIndex) (x : F32) (lane : Nat) : Eval F32 :=
  if rootAdmits cfg x then .ok (rootValue cfg n x) else .error ⟨.domainRoot, lane⟩

/-- ROOT.3 (R110). -/
def execRoot3 (s : State) : Host.Outcome State Fault Refusal :=
  runTriple s aRegs (lanewise (rootEngine s.cfg .n3) s.a)

/-- ROOT.5 (R111). -/
def execRoot5 (s : State) : Host.Outcome State Fault Refusal :=
  runTriple s aRegs (lanewise (rootEngine s.cfg .n5) s.a)

/-- ROOT.12 (R112). -/
def execRoot12 (s : State) : Host.Outcome State Fault Refusal :=
  runTriple s aRegs (lanewise (rootEngine s.cfg .n12) s.a)

end Sys2Proof.Machine
end

