-- ==== Sys2Proof/Machine/LabLuv.lean ====
section
/-! DEFINITION. The Lab/Luv transfer and chromaticity unit (R130 to R141) and its operations (R142 to R151). -/

namespace Sys2Proof.Machine

/-- `lab_forward(v, lane)` (R130). -/
def labForward (cfg : Config) (v : F32) (lane : Nat) : Eval F32 :=
  if fle v labT then .ok (fadd (fdiv v labK) f4over29) else rootEngine cfg .n3 v lane

/-- `lab_inverse(v)` (R131). -/
def labInverse (v : F32) : F32 := if fle v f6over29 then fmul (fsub v f4over29) labK else fcube v

/-- `xyz_to_lab(c, W)` (R132). -/
def xyzToLab (cfg : Config) (w c : Triple F32) : Eval (Triple F32) := do
  let fx ← labForward cfg (fdiv c.c0 w.c0) 0
  let fy ← labForward cfg (fdiv c.c1 w.c1) 1
  let fz ← labForward cfg (fdiv c.c2 w.c2) 2
  return ⟨fsub (fmul f116 fy) f16, fmul f500 (fsub fx fy), fmul f200 (fsub fy fz)⟩

/-- `lab_to_xyz(c, W)` (R133). -/
def labToXyz (w c : Triple F32) : Triple F32 :=
  let fy := fdiv (fadd c.c0 f16) f116
  let fx := fadd fy (fdiv c.c1 f500)
  let fz := fsub fy (fdiv c.c2 f200)
  ⟨fmul (labInverse fx) w.c0, fmul (labInverse fy) w.c1, fmul (labInverse fz) w.c2⟩

/-- `calc_uv_prime(c)` (R134): (u′, v′). -/
def calcUvPrime (c : Triple F32) : F32 × F32 :=
  let d := fadd (fadd c.c0 (fmul f15 c.c1)) (fmul f3 c.c2)
  if feq d zero32 then (zero32, zero32) else (fdiv (fmul f4 c.c0) d, fdiv (fmul f9 c.c1) d)

/-- `luv_lightness(y, yw)` (R135): the root faults with lane 1. -/
def luvLightness (cfg : Config) (y yw : F32) : Eval F32 :=
  let r := fdiv y yw
  if fle r labT then .ok (fmul kappa r)
  else do
    let q ← rootEngine cfg .n3 r 1
    return fsub (fmul f116 q) f16

/-- `xyz_to_luv_pw(c, yw, u′w, v′w)` (R136). -/
def xyzToLuvPw (cfg : Config) (yw upw vpw : F32) (c : Triple F32) : Eval (Triple F32) := do
  let l ← luvLightness cfg c.c1 yw
  let uv := calcUvPrime c
  let l13 := fmul f13 l
  return ⟨l, fmul l13 (fsub uv.1 upw), fmul l13 (fsub uv.2 vpw)⟩

/-- `luv_y(L, yw)` (R138). -/
def luvY (l yw : F32) : F32 :=
  if fle l lT then fmul (fdiv l kappa) yw
  else fmul (fcube (fdiv (fadd l f16) f116)) yw

/-- `uv_to_xz(y, up, vp)` (R139): (x, z). -/
def uvToXz (y up vp : F32) : F32 × F32 :=
  let d := fmul f4 vp
  (fdiv (fmul y (fmul f9 up)) d,
   fdiv (fmul y (fsub (fsub f12 (fmul f3 up)) (fmul f20 vp))) d)

/-- `luv_to_xyz_pw(c, yw, u′w, v′w)` (R137). -/
def luvToXyzPw (yw upw vpw : F32) (c : Triple F32) : Triple F32 :=
  if feq c.c0 zero32 then ⟨zero32, zero32, zero32⟩
  else
    let l13 := fmul f13 c.c0
    let up := fadd (fdiv c.c1 l13) upw
    let vp := fadd (fdiv c.c2 l13) vpw
    let y := luvY c.c0 yw
    let xz := uvToXz y up vp
    ⟨xz.1, y, xz.2⟩

/-- `xyz_to_luv(c, W)`, the full-white form (R140). -/
def xyzToLuv (cfg : Config) (w c : Triple F32) : Eval (Triple F32) :=
  let uvw := calcUvPrime w
  xyzToLuvPw cfg w.c1 uvw.1 uvw.2 c

/-- `luv_to_xyz(c, W)`, the full-white form (R140). -/
def luvToXyz (w c : Triple F32) : Triple F32 :=
  let uvw := calcUvPrime w
  luvToXyzPw w.c1 uvw.1 uvw.2 c

/-- `white_from_xyY(wx, wy, wY)` (R141). -/
def whiteFromXyY (wx wy wyy : F32) : Eval (Triple F32) :=
  if feq wy zero32 then .error ⟨.whiteZero, 0⟩
  else .ok ⟨fmul (fdiv wx wy) wyy, wyy, fmul (fdiv (fsub (fsub f1 wx) wy) wy) wyy⟩

/-- LAB_FWD (R142). -/
def execLabFwd (s : State) : Host.Outcome State Fault Refusal :=
  runTriple s aRegs (lanewise (labForward s.cfg) s.a)

/-- LAB_INV (R143). -/
def execLabInv (s : State) : Host.Outcome State Fault Refusal :=
  runTriple s aRegs (.ok ⟨labInverse s.a.c0, labInverse s.a.c1, labInverse s.a.c2⟩)

/-- XYZ2LAB (R144). -/
def execXyz2lab (s : State) : Host.Outcome State Fault Refusal :=
  runTriple s aWhiteRegs (xyzToLab s.cfg s.white s.a)

/-- LAB2XYZ (R145). -/
def execLab2xyz (s : State) : Host.Outcome State Fault Refusal :=
  runTriple s aWhiteRegs (.ok (labToXyz s.white s.a))

/-- UVP (R146): R2 is +0. -/
def execUvp (s : State) : Host.Outcome State Fault Refusal :=
  runTriple s aRegs (.ok ⟨(calcUvPrime s.a).1, (calcUvPrime s.a).2, zero32⟩)

/-- XYZ2LUV (R147). -/
def execXyz2luv (s : State) : Host.Outcome State Fault Refusal :=
  runTriple s aWhiteRegs (xyzToLuv s.cfg s.white s.a)

/-- XYZ2LUV.PW (R148). -/
def execXyz2luvPw (s : State) : Host.Outcome State Fault Refusal :=
  runTriple s aPwRegs (xyzToLuvPw s.cfg s.wy s.wup s.wvp s.a)

/-- LUV2XYZ (R149). -/
def execLuv2xyz (s : State) : Host.Outcome State Fault Refusal :=
  runTriple s aWhiteRegs (.ok (luvToXyz s.white s.a))

/-- LUV2XYZ.PW (R150). -/
def execLuv2xyzPw (s : State) : Host.Outcome State Fault Refusal :=
  runTriple s aPwRegs (.ok (luvToXyzPw s.wy s.wup s.wvp s.a))

/-- WSET (R151): the five W registers together at the end, R0 to R2 not written. -/
def execWset (s : State) : Host.Outcome State Fault Refusal :=
  endStep s
    (do checkFinite s aRegs; whiteFromXyY s.a.c0 s.a.c1 s.a.c2)
    (fun s w => s.writeWhite w (calcUvPrime w).1 (calcUvPrime w).2)

end Sys2Proof.Machine
end

