-- ==== Sys2Proof/Machine/Matrix.lean ====
section
/-! DEFINITION. The 3×3 matrix multiplier (R160) and MAT_FWD, MAT_INV (R164, R165). -/

namespace Sys2Proof.Machine

/-- One row: `((m0·c0) + (m1·c1)) + (m2·c2)`, each product and sum rounded (R160). -/
def matRow (m c : Triple F32) : F32 := fadd (fadd (fmul m.c0 c.c0) (fmul m.c1 c.c1)) (fmul m.c2 c.c2)

/-- `matmul(M, c)` (R160). -/
def matmul (m : Mat3) (c : Triple F32) : Triple F32 := ⟨matRow m.c0 c, matRow m.c1 c, matRow m.c2 c⟩

/-- MAT_FWD (R164). -/
def execMatFwd (s : State) : Host.Outcome State Fault Refusal :=
  runTriple s aRegs (.ok (matmul s.cfg.matFwd s.a))

/-- MAT_INV (R165). -/
def execMatInv (s : State) : Host.Outcome State Fault Refusal :=
  runTriple s aRegs (.ok (matmul s.cfg.matInv s.a))

end Sys2Proof.Machine
end

