-- ==== Sys2Proof/Machine/Srgb.lean ====
section
/-! DEFINITION. sRGB gamma decode and encode (R120, R121) and SRGB_DEC, SRGB_ENC (R122, R123). -/

namespace Sys2Proof.Machine

/-- `r^12` as `r3 = (r·r)·r`, `r6 = r3·r3`, `r6·r6` (R120). -/
def power12 (r : F32) : F32 :=
  let r3 := fcube r
  let r6 := fmul r3 r3
  fmul r6 r6

/-- `r^5` as `r2 = r·r`, `r4 = r2·r2`, `r4·r` (R121). -/
def power5 (r : F32) : F32 :=
  let r2 := fmul r r
  let r4 := fmul r2 r2
  fmul r4 r

/-- `srgb_decode(v, lane)` (R120). -/
def srgbDecode (cfg : Config) (v : F32) (lane : Nat) : Eval F32 :=
  if fle v kDecT then .ok (fdiv v k1292)
  else do
    let r ← rootEngine cfg .n5 (fdiv (fadd v k055) k1055) lane
    return power12 r

/-- `srgb_encode(v, lane)` (R121). -/
def srgbEncode (cfg : Config) (v : F32) (lane : Nat) : Eval F32 :=
  if fle v kEncT then .ok (fmul v k1292)
  else do
    let r ← rootEngine cfg .n12 v lane
    return fsub (fmul k1055 (power5 r)) k055

/-- SRGB_DEC (R122). -/
def execSrgbDec (s : State) : Host.Outcome State Fault Refusal :=
  runTriple s aRegs (lanewise (srgbDecode s.cfg) s.a)

/-- SRGB_ENC (R123). -/
def execSrgbEnc (s : State) : Host.Outcome State Fault Refusal :=
  runTriple s aRegs (lanewise (srgbEncode s.cfg) s.a)

end Sys2Proof.Machine
end

