-- ==== Sys2Proof/Machine/Pipelines.lean ====
section
/-! DEFINITION. NOP (R170) and the composed pipelines SRGB2XYZ, XYZ2SRGB, SRGB2LAB, LAB2SRGB (R171 to R174). -/

namespace Sys2Proof.Machine

/-- `srgb_to_xyz(c)` (R171). -/
def srgbToXyz (cfg : Config) (c : Triple F32) : Eval (Triple F32) := do
  let l ← lanewise (srgbDecode cfg) c
  return matmul cfg.matFwd l

/-- `xyz_to_srgb(c)` (R172). -/
def xyzToSrgb (cfg : Config) (c : Triple F32) : Eval (Triple F32) :=
  lanewise (srgbEncode cfg) (matmul cfg.matInv c)

/-- `srgb_to_lab(c, W)` (R173). -/
def srgbToLab (cfg : Config) (w c : Triple F32) : Eval (Triple F32) := do
  let x ← srgbToXyz cfg c
  xyzToLab cfg w x

/-- `lab_to_srgb(c, W)` (R174). -/
def labToSrgb (cfg : Config) (w c : Triple F32) : Eval (Triple F32) := xyzToSrgb cfg (labToXyz w c)

/-- NOP (R170): it ends at once without a fault and writes no data register. -/
def execNop (s : State) : Host.Outcome State Fault Refusal := .next s.complete

/-- SRGB2XYZ (R171). -/
def execSrgb2xyz (s : State) : Host.Outcome State Fault Refusal := runTriple s aRegs (srgbToXyz s.cfg s.a)

/-- XYZ2SRGB (R172). -/
def execXyz2srgb (s : State) : Host.Outcome State Fault Refusal := runTriple s aRegs (xyzToSrgb s.cfg s.a)

/-- SRGB2LAB (R173). -/
def execSrgb2lab (s : State) : Host.Outcome State Fault Refusal :=
  runTriple s aWhiteRegs (srgbToLab s.cfg s.white s.a)

/-- LAB2SRGB (R174). -/
def execLab2srgb (s : State) : Host.Outcome State Fault Refusal :=
  runTriple s aWhiteRegs (labToSrgb s.cfg s.white s.a)

end Sys2Proof.Machine
end

