-- ==== Sys2Proof/Machine/Quantizer.lean ====
section
/-! DEFINITION. The float-to-byte quantizer (R180) and QUANT (R181). -/

namespace Sys2Proof.Machine

/-- `round_QROUND(s)` of a positive number (R180): exact, from its units of 2^-149. -/
def roundToWhole (q : QRound) (x : F32) : Nat :=
  match q with
  | .tiesEven => nearestEven (mag x) unitsPerOne
  | .tiesAway => nearestAway (mag x) unitsPerOne

/-- The byte of a product that is not NaN (R180): clamp to 0 and 255, else round. -/
def clampByte (q : QRound) (x : F32) : Byte :=
  if fle x zero32 then 0x00#8
  else if fle f255 x then 0xFF#8
  else BitVec.ofNat 8 (roundToWhole q x)

/-- `quantize(v, scale, info)` (R180). -/
def quantize (cfg : Config) (v scale : F32) (info : Nat) : Eval Byte :=
  if isNaN (fmul v scale) then .error ⟨.quantNan, info⟩ else .ok (clampByte cfg.qround (fmul v scale))

/-- Three channels quantized in order, with the `info` of each (R181, R192). -/
def quantizeTriple (cfg : Config) (v scale : Triple F32) (info : Nat → Nat) : Eval (Triple Byte) := do
  let q0 ← quantize cfg v.c0 scale.c0 (info 0)
  let q1 ← quantize cfg v.c1 scale.c1 (info 1)
  let q2 ← quantize cfg v.c2 scale.c2 (info 2)
  return ⟨q0, q1, q2⟩

/-- R0, R1 and R2 as three bytes, zero-extended (R181). -/
def State.writeBytes (s : State) (q : Triple Byte) : State :=
  { s with r := ⟨byteWord q.c0, byteWord q.c1, byteWord q.c2⟩ }

/-- QUANT (R181). -/
def execQuant (s : State) : Host.Outcome State Fault Refusal :=
  endStep s (do checkFinite s quantRegs; quantizeTriple s.cfg s.a s.outScale id) State.writeBytes

end Sys2Proof.Machine
end

