-- ==== Sys2Proof/Machine/Batch.lean ====
section
/-! DEFINITION. The batch pixel converter (R190 to R195) and the ten BATCH operations (R196 to R205). A BATCH takes an
entry step, one step per pixel and an end step (R265); the meaning of a BATCH command is the step its phase calls for. -/

namespace Sys2Proof.Machine

/-- The white registers a pipeline reads (R191, R194). -/
def pidWhiteRegs : Pid → List Reg
  | .srgb2xyz => []
  | .xyz2srgb => []
  | .srgb2lin => []
  | .lin2srgb => []
  | .srgb2lab => [.wx, .wy, .wz]
  | .lab2srgb => [.wx, .wy, .wz]
  | .xyz2lab => [.wx, .wy, .wz]
  | .lab2xyz => [.wx, .wy, .wz]
  | .xyz2luv => [.wy, .wup, .wvp]
  | .luv2xyz => [.wy, .wup, .wvp]

/-- The scale registers (R191). -/
def scaleRegs : List Reg := [.inScale0, .inScale1, .inScale2, .outScale0, .outScale1, .outScale2]

/-- The entry checks, in order (R191). -/
def batchEntryCheck (p : Pid) (s : State) : Eval Unit :=
  if s.cfg.memBytes < s.batchStart + 4 * s.npix then .error ⟨.bounds, 0⟩
  else do
    checkFinite s scaleRegs
    checkFinite s (pidWhiteRegs p)

/-- `PIPE(pid, c)` (R194), with the lane numbers of the rules it names. -/
def pipe (p : Pid) (s : State) (c : Triple F32) : Eval (Triple F32) :=
  match p with
  | .srgb2xyz => srgbToXyz s.cfg c
  | .xyz2srgb => xyzToSrgb s.cfg c
  | .srgb2lin => lanewise (srgbDecode s.cfg) c
  | .lin2srgb => lanewise (srgbEncode s.cfg) c
  | .srgb2lab => srgbToLab s.cfg s.white c
  | .lab2srgb => labToSrgb s.cfg s.white c
  | .xyz2lab => xyzToLab s.cfg s.white c
  | .lab2xyz => .ok (labToXyz s.white c)
  | .xyz2luv => xyzToLuvPw s.cfg s.wy s.wup s.wvp c
  | .luv2xyz => .ok (luvToXyzPw s.wy s.wup s.wvp c)

/-- Inside a BATCH every fault at pixel k carries `info = k` (R192). -/
def atPixel {α : Type} (k : Nat) (e : Eval α) : Eval α :=
  match e with
  | .ok v => .ok v
  | .error f => .error ⟨f.code, k⟩

/-- A decoded channel: `i2f(b) / IN_SCALE[i]`, which must be finite (R192). -/
def decodeChannel (scale : F32) (b : Byte) : Eval F32 :=
  if isFinite (fdiv (i2f b.toNat) scale) then .ok (fdiv (i2f b.toNat) scale) else .error ⟨.domainOperand, 0⟩

/-- The three decoded channels, in order (R192). -/
def decodePixel (scale : Triple F32) (b : Triple Byte) : Eval (Triple F32) := do
  let c0 ← decodeChannel scale.c0 b.c0
  let c1 ← decodeChannel scale.c1 b.c1
  let c2 ← decodeChannel scale.c2 b.c2
  return ⟨c0, c1, c2⟩

/-- What a pixel step computes from its three bytes (R192): decode, pipeline, quantize. -/
def convertPixel (p : Pid) (s : State) (k : Nat) (b : Triple Byte) : Eval (Triple Byte) :=
  atPixel k do
    let c ← decodePixel s.inScale b
    let o ← pipe p s c
    quantizeTriple s.cfg o s.outScale (fun _ => k)

/-- The three bytes of a pixel (R192), where all three addresses exist. -/
def readPixel (s : State) (x : Nat) : Option (Triple Byte) := do
  let b0 ← memRead s x
  let b1 ← memRead s (x + 1)
  let b2 ← memRead s (x + 2)
  return ⟨b0, b1, b2⟩

/-- The three bytes written in order; the fourth byte is not touched (R60, R192). -/
def writePixel (s : State) (x : Nat) (q : Triple Byte) : State :=
  memWrite (memWrite (memWrite s x q.c0) (x + 1) q.c1) (x + 2) q.c2

/-- After pixel k: BATCH_IDX is k + 1 and the next pixel is k + 1 (R192, R265). -/
def State.advanceTo (s : State) (k : Nat) : State := { s with batchIdx := BitVec.ofNat 32 k, phase := .walk k }

/-- The entry step (R190, R191, R265): BATCH_IDX becomes 0, then the checks, then WALK(op, 0). -/
def batchEntry (p : Pid) (s : State) : Host.Outcome State Fault Refusal :=
  match batchEntryCheck p s with
  | .error f => .next ({ s with batchIdx := 0#32 }.raise f)
  | .ok _ => .next (s.advanceTo 0)

/-- The pixel step (R192, R193): a fault ends the walk with the pixel's bytes unwritten. -/
def pixelStep (p : Pid) (k : Nat) (s : State) : Host.Outcome State Fault Refusal :=
  match readPixel s (s.pixelAddr k) with
  | none => .fault (.noSuchByte (s.pixelAddr k + 2))
  | some b =>
    match convertPixel p s k b with
    | .error f => .next (s.raise f)
    | .ok q => .next ((writePixel s (s.pixelAddr k) q).advanceTo (k + 1))

/-- One step of a BATCH, by its phase (R265): in WALK(op, k) with k < npix the pixel step, in WALK(op, npix) the end
step, else the entry step. -/
def batchStep (p : Pid) (s : State) : Host.Outcome State Fault Refusal :=
  match s.phase with
  | .walk k => if k < s.npix then pixelStep p k s else .next s.complete
  | .run => batchEntry p s
  | .idle => batchEntry p s

/-- BATCH.SRGB2XYZ (R196). -/
def execBatchSrgb2xyz (s : State) : Host.Outcome State Fault Refusal := batchStep .srgb2xyz s

/-- BATCH.XYZ2SRGB (R197). -/
def execBatchXyz2srgb (s : State) : Host.Outcome State Fault Refusal := batchStep .xyz2srgb s

/-- BATCH.SRGB2LIN (R198). -/
def execBatchSrgb2lin (s : State) : Host.Outcome State Fault Refusal := batchStep .srgb2lin s

/-- BATCH.LIN2SRGB (R199). -/
def execBatchLin2srgb (s : State) : Host.Outcome State Fault Refusal := batchStep .lin2srgb s

/-- BATCH.SRGB2LAB (R200). -/
def execBatchSrgb2lab (s : State) : Host.Outcome State Fault Refusal := batchStep .srgb2lab s

/-- BATCH.LAB2SRGB (R201). -/
def execBatchLab2srgb (s : State) : Host.Outcome State Fault Refusal := batchStep .lab2srgb s

/-- BATCH.XYZ2LAB (R202). -/
def execBatchXyz2lab (s : State) : Host.Outcome State Fault Refusal := batchStep .xyz2lab s

/-- BATCH.LAB2XYZ (R203). -/
def execBatchLab2xyz (s : State) : Host.Outcome State Fault Refusal := batchStep .lab2xyz s

/-- BATCH.XYZ2LUV (R204). -/
def execBatchXyz2luv (s : State) : Host.Outcome State Fault Refusal := batchStep .xyz2luv s

/-- BATCH.LUV2XYZ (R205). -/
def execBatchLuv2xyz (s : State) : Host.Outcome State Fault Refusal := batchStep .luv2xyz s

end Sys2Proof.Machine
end

