-- ==== Sys2Proof/Machine/Dispatch.lean ====
section
/-! DEFINITION. One arm per instruction: the meaning each one has. -/

namespace Sys2Proof.Machine

def exec (i : Instr) (s : State) : Host.Outcome State Fault Refusal :=
  match i with
  | .nop => Sys2Proof.Machine.execNop s
  | .root3 => Sys2Proof.Machine.execRoot3 s
  | .root5 => Sys2Proof.Machine.execRoot5 s
  | .root12 => Sys2Proof.Machine.execRoot12 s
  | .srgbDec => Sys2Proof.Machine.execSrgbDec s
  | .srgbEnc => Sys2Proof.Machine.execSrgbEnc s
  | .labFwd => Sys2Proof.Machine.execLabFwd s
  | .labInv => Sys2Proof.Machine.execLabInv s
  | .xyz2lab => Sys2Proof.Machine.execXyz2lab s
  | .lab2xyz => Sys2Proof.Machine.execLab2xyz s
  | .uvp => Sys2Proof.Machine.execUvp s
  | .xyz2luv => Sys2Proof.Machine.execXyz2luv s
  | .xyz2luvPw => Sys2Proof.Machine.execXyz2luvPw s
  | .luv2xyz => Sys2Proof.Machine.execLuv2xyz s
  | .luv2xyzPw => Sys2Proof.Machine.execLuv2xyzPw s
  | .wset => Sys2Proof.Machine.execWset s
  | .matFwd => Sys2Proof.Machine.execMatFwd s
  | .matInv => Sys2Proof.Machine.execMatInv s
  | .srgb2xyz => Sys2Proof.Machine.execSrgb2xyz s
  | .xyz2srgb => Sys2Proof.Machine.execXyz2srgb s
  | .srgb2lab => Sys2Proof.Machine.execSrgb2lab s
  | .lab2srgb => Sys2Proof.Machine.execLab2srgb s
  | .quant => Sys2Proof.Machine.execQuant s
  | .batchSrgb2xyz => Sys2Proof.Machine.execBatchSrgb2xyz s
  | .batchXyz2srgb => Sys2Proof.Machine.execBatchXyz2srgb s
  | .batchSrgb2lin => Sys2Proof.Machine.execBatchSrgb2lin s
  | .batchLin2srgb => Sys2Proof.Machine.execBatchLin2srgb s
  | .batchSrgb2lab => Sys2Proof.Machine.execBatchSrgb2lab s
  | .batchLab2srgb => Sys2Proof.Machine.execBatchLab2srgb s
  | .batchXyz2lab => Sys2Proof.Machine.execBatchXyz2lab s
  | .batchLab2xyz => Sys2Proof.Machine.execBatchLab2xyz s
  | .batchXyz2luv => Sys2Proof.Machine.execBatchXyz2luv s
  | .batchLuv2xyz => Sys2Proof.Machine.execBatchLuv2xyz s

end Sys2Proof.Machine
end

