-- ==== Sys2Proof/Machine/HostPort.lean ====
section
/-! DEFINITION. The host's side (R22, R57, R260 to R262, R268): reads and writes of the register window, bytes of the
memory, and the reset signal. -/

namespace Sys2Proof.Machine

/-- A host write to a register that takes none while an operation runs: dropped, and WLOST set (R260). -/
def guarded (s : State) (written : State) : State :=
  if s.busy then { s with status := { s.status with wlost := true } } else written

/-- A host write to STATUS (R23): bit 1 acknowledges, bit 3 clears WLOST, the other bits are ignored. -/
def writeStatus (s : State) (w : Word) : State :=
  let t := if w.getLsbD 1 then s.acknowledge else s
  if w.getLsbD 3 then { t with status := { t.status with wlost := false } } else t

/-- A host write to a register (R21, R23 to R25, R260). -/
def writeReg (s : State) (g : Reg) (w : Word) : State :=
  match g with
  | .cmd => guarded s (s.startCommand w)
  | .status => writeStatus s w
  | .ctrl => { s with irqEn := w.getLsbD 0 }
  | .errInfo => s
  | .a0 => guarded s { s with a := { s.a with c0 := w } }
  | .a1 => guarded s { s with a := { s.a with c1 := w } }
  | .a2 => guarded s { s with a := { s.a with c2 := w } }
  | .r0 => s
  | .r1 => s
  | .r2 => s
  | .wx => guarded s { s with wx := w }
  | .wy => guarded s { s with wy := w }
  | .wz => guarded s { s with wz := w }
  | .wup => guarded s { s with wup := w }
  | .wvp => guarded s { s with wvp := w }
  | .inScale0 => guarded s { s with inScale := { s.inScale with c0 := w } }
  | .inScale1 => guarded s { s with inScale := { s.inScale with c1 := w } }
  | .inScale2 => guarded s { s with inScale := { s.inScale with c2 := w } }
  | .outScale0 => guarded s { s with outScale := { s.outScale with c0 := w } }
  | .outScale1 => guarded s { s with outScale := { s.outScale with c1 := w } }
  | .outScale2 => guarded s { s with outScale := { s.outScale with c2 := w } }
  | .bufAddr => guarded s { s with bufAddr := w }
  | .bufOff => guarded s { s with bufOff := w }
  | .bufLen => guarded s { s with bufLen := w }
  | .batchIdx => s

/-- A host write to a word of the window: a reserved offset ignores it (R22). -/
def hostWrite (s : State) (slot : BitVec 6) (w : Word) : State :=
  match regOfSlot slot with
  | some g => writeReg s g w
  | none => s

/-- A host read of a word of the window: a reserved offset reads 0 (R22). -/
def hostRead (s : State) (slot : BitVec 6) : Word :=
  match regOfSlot slot with
  | some g => s.get g
  | none => 0#32

/-- The host gets something back (R268). -/
def State.answer (s : State) (r : Reply) : State := { s with replies := r :: s.replies }

/-- The operation the engine runs is a BATCH. -/
def State.batching (s : State) : Bool :=
  s.busy &&
    match s.operation with
    | .ok i => i.pid?.isSome
    | .error _ => false

/-- An address lies in a range. -/
def ByteRange.has (g : ByteRange) (x : Nat) : Bool := decide (g.first ≤ x) && decide (x < g.past)

/-- The byte is the engine's: in the range of a BATCH that runs (R63), or in one the host has handed over and not got
back (R262). -/
def inBatchRange (s : State) (x : Nat) : Bool := (s.batching && s.batchRange.has x) || s.handed.any (·.has x)

/-- The host has its bytes back: it has seen DONE = 1, so every BATCH it started has ended (R262). -/
def State.takeBack (s : State) : State := { s with handed := [] }

/-- The host moves with the IRQ line before its eyes, which is one of the two ways to see that an operation is done
(R62: "or has seen the interrupt it raises"). Assumption log 9. -/
def State.seeIrq (s : State) : State := if s.irqEn && s.ended then s.takeBack else s

/-- A host read of the window: it gets the word, and a read of STATUS with DONE = 1 is the other way to see that an
operation is done (R62, R262). -/
def State.readSlot (s : State) (slot : BitVec 6) : State :=
  let t := s.answer (.word (hostRead s slot))
  if slot == slotOf .status && s.ended then t.takeBack else t

/-- A host access to a byte: refused inside a range that is the engine's, a fault where the byte does not exist. -/
def hostByteAccess (s : State) (x : Nat) (t : State) : Host.Outcome State Fault Refusal :=
  if inBatchRange s x then .refused (.hostInBatchRange x)
  else if x < s.cfg.memBytes then .next t
  else .fault (.noSuchByte x)

/-- The reset signal (R250, R251): every register takes its reset value and the phase is IDLE; the byte memory is not
reset, so a BATCH that runs is abandoned with the bytes it has written, and the host has its range back. The parameters,
and the model's own fields, stay (assumption log 9 and 14). -/
def hardReset (s : State) : State :=
  { State.reset with
    mem := s.mem, cfg := s.cfg, nanDraws := s.nanDraws, script := s.script, replies := s.replies }

/-- What a host action does (R268). -/
def hostMove (act : HostAction) (s : State) : Host.Outcome State Fault Refusal :=
  match act with
  | .wr slot w => .next (hostWrite s slot w)
  | .rd slot => .next (s.readSlot slot)
  | .wb addr b => hostByteAccess s addr.toNat (memWrite s addr.toNat b)
  | .rb addr => hostByteAccess s addr.toNat (s.answer (.byte (s.byteAt addr.toNat)))
  | .reset => .next (hardReset s)

/-- One host step (R265, R268). -/
def hostStep (act : HostAction) (s : State) : Host.Outcome State Fault Refusal := hostMove act s.seeIrq

end Sys2Proof.Machine
end

