-- ==== Sys2Proof/Machine/HostProgram.lean ====
section
/-! DEFINITION. The host program syntax (R77): each action and pseudo-instruction as the turns it expands to. -/

namespace Sys2Proof.Machine

/-- `wr NAME, w` -/
def progWr (g : Reg) (w : Word) : List Turn := [.host (.wr (slotOf g) w)]

/-- `rd NAME` -/
def progRd (g : Reg) : List Turn := [.host (.rd (slotOf g))]

/-- `wb ADDR, b` -/
def progWb (addr : Word) (b : Byte) : List Turn := [.host (.wb addr b)]

/-- `rb ADDR` -/
def progRb (addr : Word) : List Turn := [.host (.rb addr)]

/-- `wrf NAME, <decimal>`: the decimal as a fraction `n / d` with a sign, rounded to the nearest binary32. -/
def progWrf (g : Reg) (sign : Bool) (n d : Nat) : List Turn := progWr g (nearestF32 sign n d)

/-- `cmd MNEMONIC` -/
def progCmd (i : Instr) : List Turn := progWr .cmd (encode i)

/-- `wait` -/
def progWait : List Turn := [.wait]

/-- `ack` -/
def progAck : List Turn := progWr .status 0x00000002#32

/-- `clrlost` -/
def progClrlost : List Turn := progWr .status 0x00000008#32

/-- `run MNEMONIC` -/
def progRun (i : Instr) : List Turn := progCmd i ++ progWait

end Sys2Proof.Machine
end

