-- ==== Sys2Proof/Machine/Engine.lean ====
section
/-! DEFINITION. The engine's step (R223, R265) and whose turn it is (R265, R266). -/

namespace Sys2Proof.Machine

/-- One engine step (R265). IDLE has none: the state stays as it is. Otherwise CMD's word is decoded and the operation
takes its step; a word that decodes to no operation ends with ILLEGAL_CMD (R75). -/
def engineStep (s : State) : Host.Outcome State Fault Refusal :=
  match s.phase with
  | .idle => .next s
  | _ =>
    match s.operation with
    | .ok i => exec i s
    | .error _ => .next (s.raise ⟨.illegalCmd, 0⟩)

/-- The state once its first turn is taken. -/
def State.dropTurn (s : State) : State := { s with script := s.script.tail }

/-- One step of the whole: the agent whose turn it is moves. Where no turn is left, the engine moves (R266: an engine
step that is enabled is eventually taken). DESIGN CHOICE, assumption log 5. -/
def takeTurn (s : State) : Host.Outcome State Fault Refusal :=
  match s.script with
  | [] => engineStep s
  | .engine :: _ => engineStep s.dropTurn
  | .host act :: _ => hostStep act s.dropTurn
  | .wait :: _ => if s.busy then engineStep s else hostStep (.rd (slotOf .status)) s.dropTurn

/-- The state in which the engine takes the first step of the command word `w` next: the start step of R223, as a
host's write to CMD of an IDLE block does it, and the next turn the engine's. Assumption log 6. -/
def State.withCommand (s : State) (w : Word) : State :=
  { s.startCommand w with script := .engine :: s.script }

end Sys2Proof.Machine
end

