-- ==== Sys2Proof/Machine/Step.lean ====
section
/-! DEFINITION. One step of the machine, and the placing of a command word where the next step takes it. -/

namespace Sys2Proof.Machine

/-- One step (R265). -/
def step (s : State) : Host.Outcome State Fault Refusal := takeTurn s

/-- The state with the command word `w` started, so that the next step runs it (assumption log 6). -/
def State.withFetchWord (s : State) (nbits w : Nat) : State := s.withCommand (tableWord nbits w)

end Sys2Proof.Machine
end

