-- ==== Sys2Proof/Safety.lean ====
section
/-! DEFINITION. What claims are stated in terms of: the legal states (R23, R36, R50, R191), the value of a binary32 as a
rational, the accuracy a claim about the real block may assume of `POLY` (R108), and the words statements share. -/

namespace Sys2Proof.Machine

/-- The legal states of STATUS (R23), and the codes that exist (R220). -/
abbrev State.StatusLegal (s : State) : Prop :=
  (s.busy = true → s.status.done = false ∧ s.status.err = false ∧ s.status.errCode = 0#8) ∧
  (s.status.err = true → s.status.done = true ∧ s.status.errCode ≠ 0#8) ∧
  (s.status.err = false → s.status.errCode = 0#8) ∧
  s.status.errCode.toNat ≤ 6

/-- The memory is in canonical form and lists no byte past MEM_BYTES (R50). -/
abbrev State.MemLegal (s : State) : Prop := Memory.wf s.mem ∧ ∀ p ∈ s.mem, p.1 < s.cfg.memBytes

/-- In WALK(op, k) the operation is a BATCH whose entry checks pass (R191), and BATCH_IDX is k, at most npix (R32). -/
def State.WalkLegal (s : State) : Prop :=
  ∀ k, s.phase = .walk k →
    k ≤ s.npix ∧ s.batchIdx = BitVec.ofNat 32 k ∧
    ∃ p : Pid, s.operation = .ok p.instr ∧ batchEntryCheck p s = .ok ()

/-- The states a run can reach. -/
def State.Inv (s : State) : Prop := s.cfg.Admitted ∧ s.StatusLegal ∧ s.MemLegal ∧ s.WalkLegal

/-- The value of a finite binary32. -/
def valueQ (x : F32) : ℚ := (units x : ℚ) / 2 ^ 149

/-- A positive normal binary32. -/
def isPosNormal (x : F32) : Bool := !signBit x && expField x != 0 && expField x != 255

end Sys2Proof.Machine

namespace Sys2Proof

open Sys2Proof.Machine

/-- `ROOT_ACCURATE(ε)` (R108), for 0 ≤ ε ≤ 1, without a real root: |v − x^(1/n)| ≤ ε·x^(1/n) for v ≥ 0 says that v^n lies
between (1−ε)^n·x and (1+ε)^n·x. -/
def Config.RootAccurate (cfg : Config) (ε : ℚ) : Prop :=
  ∀ (n : RootIndex) (x : F32), isPosNormal x = true →
    isFinite (rootValue cfg n x) = true ∧ 0 ≤ valueQ (rootValue cfg n x) ∧
    (1 - ε) ^ rootNat n * valueQ x ≤ valueQ (rootValue cfg n x) ^ rootNat n ∧
    valueQ (rootValue cfg n x) ^ rootNat n ≤ (1 + ε) ^ rootNat n * valueQ x

/-- Three binary32 numbers are finite. -/
abbrev Triple.Finite (c : Triple F32) : Prop := isFinite c.c0 = true ∧ isFinite c.c1 = true ∧ isFinite c.c2 = true

/-- A function on the lanes of a triple. -/
def Triple.map {α β : Type} (f : α → β) (c : Triple α) : Triple β := ⟨f c.c0, f c.c1, f c.c2⟩

end Sys2Proof

namespace Sys2Proof.Machine

/-- The engine's state after at most `n` of its steps, ending early where it is IDLE: the host takes no turn (R265). -/
def engineSteps : Nat → State → Host.Outcome State Fault Refusal
  | 0, s => .next s
  | n + 1, s =>
    match engineStep s with
    | .next t => engineSteps n t
    | .fault f => .fault f
    | .refused r => .refused r

/-- The number in bits 7:0 of a command word (R70). -/
abbrev cmdOp (w : Word) : Nat := (w.extractLsb' 0 8).toNat

/-- The number in bits 11:8 of a command word (R70). -/
abbrev cmdSub (w : Word) : Nat := (w.extractLsb' 8 4).toNat

/-- The reserved words (R75): OP 0x14 to 0xFF, nonzero RES bits, SUB ≠ 0 where only 0 is allowed, SUB 3 to 15 of ROOT,
SUB 10 to 15 of BATCH, and W = 1 on an OP other than 0x09 and 0x0A. -/
abbrev ReservedWord (w : Word) : Prop :=
  0x14 ≤ cmdOp w ∨ w.extractLsb' 13 19 ≠ 0#19 ∨ (cmdOp w ≠ 0x01 ∧ cmdOp w ≠ 0x13 ∧ cmdSub w ≠ 0) ∨
  (cmdOp w = 0x01 ∧ 3 ≤ cmdSub w) ∨ (cmdOp w = 0x13 ∧ 10 ≤ cmdSub w) ∨
  (w.getLsbD 12 = true ∧ cmdOp w ≠ 0x09 ∧ cmdOp w ≠ 0x0A)

/-- The registers whose access is RO (R21). -/
def roRegs : List Reg := [.errInfo, .r0, .r1, .r2, .batchIdx]

/-- The registers a host write reaches only while BUSY = 0 (R260): every one that is neither RO nor STATUS nor CTRL. -/
def idleOnlyRegs : List Reg :=
  [.cmd, .a0, .a1, .a2, .wx, .wy, .wz, .wup, .wvp, .inScale0, .inScale1, .inScale2, .outScale0, .outScale1, .outScale2,
   .bufAddr, .bufOff, .bufLen]

/-- The byte offset of a window word is reserved (R21): 0x1C, 0x2C, 0x5C and 0x70 to 0xFC. -/
abbrev ReservedSlot (slot : BitVec 6) : Prop :=
  4 * slot.toNat = 0x1C ∨ 4 * slot.toNat = 0x2C ∨ 4 * slot.toNat = 0x5C ∨ 0x70 ≤ 4 * slot.toNat

/-- The "checked" list of each operation that is not a BATCH, as its rule gives it; it is also what the operation reads
(R110 to R112, R122, R123, R142 to R151, R164, R165, R170 to R174, R181). A BATCH checks none before its bounds. -/
def checkedRegs : Instr → List Reg
  | .nop => []
  | .root3 => [.a0, .a1, .a2]
  | .root5 => [.a0, .a1, .a2]
  | .root12 => [.a0, .a1, .a2]
  | .srgbDec => [.a0, .a1, .a2]
  | .srgbEnc => [.a0, .a1, .a2]
  | .labFwd => [.a0, .a1, .a2]
  | .labInv => [.a0, .a1, .a2]
  | .xyz2lab => [.a0, .a1, .a2, .wx, .wy, .wz]
  | .lab2xyz => [.a0, .a1, .a2, .wx, .wy, .wz]
  | .uvp => [.a0, .a1, .a2]
  | .xyz2luv => [.a0, .a1, .a2, .wx, .wy, .wz]
  | .xyz2luvPw => [.a0, .a1, .a2, .wy, .wup, .wvp]
  | .luv2xyz => [.a0, .a1, .a2, .wx, .wy, .wz]
  | .luv2xyzPw => [.a0, .a1, .a2, .wy, .wup, .wvp]
  | .wset => [.a0, .a1, .a2]
  | .matFwd => [.a0, .a1, .a2]
  | .matInv => [.a0, .a1, .a2]
  | .srgb2xyz => [.a0, .a1, .a2]
  | .xyz2srgb => [.a0, .a1, .a2]
  | .srgb2lab => [.a0, .a1, .a2, .wx, .wy, .wz]
  | .lab2srgb => [.a0, .a1, .a2, .wx, .wy, .wz]
  | .quant => [.a0, .a1, .a2, .outScale0, .outScale1, .outScale2]
  | .batchSrgb2xyz => []
  | .batchXyz2srgb => []
  | .batchSrgb2lin => []
  | .batchLin2srgb => []
  | .batchSrgb2lab => []
  | .batchLab2srgb => []
  | .batchXyz2lab => []
  | .batchLab2xyz => []
  | .batchXyz2luv => []
  | .batchLuv2xyz => []

/-- The registers a BATCH's entry checks, after the bounds (R191): the scales, then the white of its pipeline. -/
def batchCheckedRegs (p : Pid) : List Reg :=
  [.inScale0, .inScale1, .inScale2, .outScale0, .outScale1, .outScale2] ++
    match p with
    | .srgb2xyz => []
    | .xyz2srgb => []
    | .srgb2lin => []
    | .lin2srgb => []
    | .srgb2lab => [.wx, .wy, .wz]
    | .lab2srgb => [.wx, .wy, .wz]
    | .xyz2lab => [.wx, .wy, .wz]
    | .lab2xyz => [.wx, .wy, .wz]
    | .xyz2luv => [.wy, .wup, .wvp]
    | .luv2xyz => [.wy, .wup, .wvp]

/-- The operation on three operands whose pipeline a BATCH applies to each pixel (R194). -/
def pidOperation : Pid → Instr
  | .srgb2xyz => .srgb2xyz
  | .xyz2srgb => .xyz2srgb
  | .srgb2lin => .srgbDec
  | .lin2srgb => .srgbEnc
  | .srgb2lab => .srgb2lab
  | .lab2srgb => .lab2srgb
  | .xyz2lab => .xyz2lab
  | .lab2xyz => .lab2xyz
  | .xyz2luv => .xyz2luvPw
  | .luv2xyz => .luv2xyzPw

/-- Every register of a list holds a finite binary32. -/
abbrev State.FiniteRegs (s : State) (regs : List Reg) : Prop := ∀ g ∈ regs, isFinite (s.get g) = true

/-- A number the root stages take: not NaN and not +∞ (R144, R147, R172). At or below its threshold it takes the linear
segment, above it its root is taken. -/
def rootStageOk (q : F32) : Bool := !isNaN q && !(isInf q && !signBit q)

/-- `srgb_decode` where it does not fault (R120). -/
def decodeValue (cfg : Config) (v : F32) : F32 :=
  let r := rootValue cfg .n5 (fdiv (fadd v k055) k1055)
  let r3 := fmul (fmul r r) r
  if fle v kDecT then fdiv v k1292 else fmul (fmul r3 r3) (fmul r3 r3)

/-- `srgb_encode` where it does not fault (R121). -/
def encodeValue (cfg : Config) (v : F32) : F32 :=
  let r := rootValue cfg .n12 v
  let r2 := fmul r r
  if fle v kEncT then fmul v k1292 else fsub (fmul k1055 (fmul (fmul r2 r2) r)) k055

/-- `lab_forward` where it does not fault (R130). -/
def labForwardValue (cfg : Config) (v : F32) : F32 :=
  if fle v labT then fadd (fdiv v labK) f4over29 else rootValue cfg .n3 v

/-- `luv_lightness` of r = y/yw where it does not fault (R135). -/
def lightnessValue (cfg : Config) (r : F32) : F32 :=
  if fle r labT then fmul kappa r else fsub (fmul f116 (rootValue cfg .n3 r)) f16

/-- The lane-wise quotient of two triples. -/
def divLanes (c w : Triple F32) : Triple F32 := ⟨fdiv c.c0 w.c0, fdiv c.c1 w.c1, fdiv c.c2 w.c2⟩

/-- Lab from the three values of `lab_forward` (R132). -/
def labOf (f : Triple F32) : Triple F32 :=
  ⟨fsub (fmul f116 f.c1) f16, fmul f500 (fsub f.c0 f.c1), fmul f200 (fsub f.c1 f.c2)⟩

/-- The first lane that fails a test, with every lane before it passing. -/
abbrev FirstFail (ok : F32 → Bool) (c : Triple F32) (lane : Nat) : Prop :=
  (lane = 0 ∧ ok c.c0 = false) ∨
  (lane = 1 ∧ ok c.c0 = true ∧ ok c.c1 = false) ∨
  (lane = 2 ∧ ok c.c0 = true ∧ ok c.c1 = true ∧ ok c.c2 = false)

/-- Every lane passes a test. -/
abbrev AllPass (ok : F32 → Bool) (c : Triple F32) : Prop := ok c.c0 = true ∧ ok c.c1 = true ∧ ok c.c2 = true

/-- The three channel bytes of pixel k in the memory (R52). -/
def State.pixelBytes (s : State) (k : Nat) : Triple Byte :=
  ⟨s.byteAt (s.pixelAddr k), s.byteAt (s.pixelAddr k + 1), s.byteAt (s.pixelAddr k + 2)⟩

/-- The decoded channels of three bytes (R192). -/
def channelsOf (scale : Triple F32) (b : Triple Byte) : Triple F32 :=
  ⟨fdiv (i2f b.c0.toNat) scale.c0, fdiv (i2f b.c1.toNat) scale.c1, fdiv (i2f b.c2.toNat) scale.c2⟩

/-- The lane-wise product of two triples. -/
def mulLanes (c w : Triple F32) : Triple F32 := ⟨fmul c.c0 w.c0, fmul c.c1 w.c1, fmul c.c2 w.c2⟩

end Sys2Proof.Machine
end

