-- ==== Sys2Proof/Certificates/Slice0/Obligations.lean ====
section
/-! DEFINITION. The statements for the provers. Each docstring names the rule of spec/ it formalises. The parameters of
R7 stand in the state, so a statement about every state holds for every admitted `POLY` and matrix. -/

open Sys2Proof Sys2Proof.Machine

/-! ## Encoding (30_encoding.md) -/

/-- R72, R73, V8: words written out from the encoding tables decode to the operations they stand for. -/
def Obligations.SpecWordsDecode : Prop :=
  decode 0x00000000 = .ok .nop ∧ decode 0x00000201 = .ok .root12 ∧ decode 0x00000003 = .ok .srgbEnc ∧
  decode 0x00001009 = .ok .xyz2luvPw ∧ decode 0x0000000A = .ok .luv2xyz ∧ decode 0x0000000D = .ok .matInv ∧
  decode 0x00000011 = .ok .lab2srgb ∧ decode 0x00000012 = .ok .quant ∧ decode 0x00000913 = .ok .batchLuv2xyz

/-- R74, R76: decoding an encoded operation gives it back, and a word that decodes to an operation is its encoding, so
exactly the 33 encodings decode. -/
def Obligations.DecodeAndEncodeAgree : Prop :=
  (∀ i : Instr, i.wf = true → decode (encode i) = .ok i) ∧ ∀ (w : Word) (i : Instr), decode w = .ok i → w = encode i

/-- R75: the reserved words are exactly those that decode to nothing, and each, written to CMD of an idle block, starts
an operation that ends at the engine's next step with ILLEGAL_CMD and info 0 and changes no register but CMD, STATUS and
ERR_INFO. NOP is an operation. -/
def Obligations.ReservedWordEndsIllegalCmd : Prop :=
  (∀ w : Word, ReservedWord w ↔ ∀ i, decode w ≠ .ok i) ∧
  (∀ (s : State) (w : Word), s.busy = false → ReservedWord w →
    hostStep (.wr (slotOf .cmd) w) s = .next (s.seeIrq.startCommand w) ∧
    engineStep (s.seeIrq.startCommand w) =
      .next { s.seeIrq with
        cmd := w
        errInfo := 0x00000000#32
        status := { done := true, err := true, wlost := s.status.wlost, errCode := 0x01#8 }
        phase := .idle }) ∧
  decode 0x00000000#32 = .ok .nop

/-! ## The host's side (10_state.md, 70_reset_and_hazards.md) -/

/-- R25: a write to CMD of an idle block stores the word, reserved or not, and starts the operation; a write while
BUSY = 1 is dropped and sets WLOST. Which bytes are then the engine's is in `HostByteAccess`. -/
def Obligations.CommandWriteStartsOrIsDropped : Prop :=
  ∀ (s : State) (w : Word),
    (s.busy = false → ∃ t, hostStep (.wr (slotOf .cmd) w) s = .next t ∧ t.get .cmd = w ∧ t.busy = true ∧
      t = { s with
        cmd := w
        status := { done := false, err := false, wlost := s.status.wlost, errCode := 0x00#8 }
        phase := .run
        handed := t.handed }) ∧
    (s.busy = true →
      hostStep (.wr (slotOf .cmd) w) s = .next { s with status := { s.status with wlost := true } })

/-- R23, R77, R227: every host write to STATUS. Bit 3 clears WLOST. Bit 1 clears DONE, ERR and ERRCODE of an idle block
whose DONE is 1, lowering IRQ; while BUSY = 1 or DONE = 0, and with bit 1 clear, it has no effect on them. The other bits
are ignored and no other register changes. A command's start clears DONE, ERR and ERRCODE too. -/
def Obligations.AcknowledgeClears : Prop :=
  ∀ (s : State) (w : Word),
    (∃ t, hostStep (.wr (slotOf .status) w) s = .next t ∧
      t = { s with status := t.status, handed := t.handed } ∧
      t.status.wlost = (s.status.wlost && !w.getLsbD 3) ∧
      (w.getLsbD 1 = true → s.busy = false → s.status.done = true →
        t.status.done = false ∧ t.status.err = false ∧ t.status.errCode = 0x00#8 ∧ t.irq = false) ∧
      (w.getLsbD 1 = false ∨ s.busy = true ∨ s.status.done = false →
        t.status.done = s.status.done ∧ t.status.err = s.status.err ∧ t.status.errCode = s.status.errCode)) ∧
    (s.busy = false → ∃ t, hostStep (.wr (slotOf .cmd) w) s = .next t ∧
      t.status.done = false ∧ t.status.err = false ∧ t.status.errCode = 0x00#8)

/-- R23, R36: the bits of STATUS as the host reads them. -/
def Obligations.StatusWordLayout : Prop :=
  ∀ s : State,
    (s.get .status).getLsbD 0 = decide (s.phase ≠ .idle) ∧
    (s.get .status).getLsbD 1 = s.status.done ∧
    (s.get .status).getLsbD 2 = s.status.err ∧
    (s.get .status).getLsbD 3 = s.status.wlost ∧
    (s.get .status).extractLsb' 4 4 = 0#4 ∧
    (s.get .status).extractLsb' 8 8 = s.status.errCode ∧
    (s.get .status).extractLsb' 16 16 = 0#16

/-- R24: CTRL holds IRQ_EN alone, 0 at reset, which lets DONE through to the interrupt output; the other bits read 0 and
ignore what is written; a write is accepted whether or not BUSY = 1. -/
def Obligations.ControlHoldsIrqEnable : Prop :=
  State.reset.get .ctrl = 0x00000000#32 ∧
  ∀ (s : State) (w : Word), ∃ t, hostStep (.wr (slotOf .ctrl) w) s = .next t ∧
    t = { s with irqEn := w.getLsbD 0, handed := t.handed } ∧ t.irq = (w.getLsbD 0 && s.status.done) ∧
    (t.get .ctrl).getLsbD 0 = w.getLsbD 0 ∧ (t.get .ctrl).extractLsb' 1 31 = 0#31

/-- R260: while BUSY = 1 a write to a register other than STATUS and CTRL is dropped and sets WLOST; RO registers and
reserved offsets ignore it without WLOST; STATUS and CTRL take it; and WLOST stays 1 until STATUS bit 3 is written
(or the block is reset). -/
def Obligations.WritesWhileBusy : Prop :=
  (∀ (s : State) (w : Word), s.busy = true →
    (∀ g ∈ idleOnlyRegs, hostStep (.wr (slotOf g) w) s = .next { s with status := { s.status with wlost := true } }) ∧
    (∀ g ∈ roRegs, hostStep (.wr (slotOf g) w) s = .next s) ∧
    (∀ slot, ReservedSlot slot → hostStep (.wr slot w) s = .next s) ∧
    hostStep (.wr (slotOf .ctrl) w) s = .next { s with irqEn := w.getLsbD 0 } ∧
    hostStep (.wr (slotOf .status) w) s =
      .next { s with status := { s.status with wlost := s.status.wlost && !w.getLsbD 3 } }) ∧
  ∀ s t : State, s.status.wlost = true → step s = .next t →
    t.status.wlost = true ∨
    (∃ (w : Word) (rest : List Turn), s.script = .host (.wr (slotOf .status) w) :: rest ∧ w.getLsbD 3 = true) ∨
    (∃ rest : List Turn, s.script = .host .reset :: rest)

/-- R21, R22, R57: the register map, each row a register, its byte offset and what it holds. A read at the offset gets
what the register holds; a read of a reserved offset returns 0; a write to it or to an RO register has no effect; no
read has a side effect. STATUS and CTRL are laid out in `StatusWordLayout` and `ControlHoldsIrqEnable`. Other accesses
cannot be written down (assumption log 18); the list of answers is the model's own (log 13). What a host action does to
the ranges handed over is in `HostByteAccess`. -/
def Obligations.WindowReadsAndIgnoredWrites : Prop :=
  ∀ (s : State) (w : Word),
    (∀ row ∈
      [(Reg.cmd, 0x00, s.cmd), (.status, 0x04, s.get .status), (.ctrl, 0x08, s.get .ctrl), (.errInfo, 0x0C, s.errInfo),
       (.a0, 0x10, s.a.c0), (.a1, 0x14, s.a.c1), (.a2, 0x18, s.a.c2),
       (.r0, 0x20, s.r.c0), (.r1, 0x24, s.r.c1), (.r2, 0x28, s.r.c2),
       (.wx, 0x30, s.wx), (.wy, 0x34, s.wy), (.wz, 0x38, s.wz), (.wup, 0x3C, s.wup), (.wvp, 0x40, s.wvp),
       (.inScale0, 0x44, s.inScale.c0), (.inScale1, 0x48, s.inScale.c1), (.inScale2, 0x4C, s.inScale.c2),
       (.outScale0, 0x50, s.outScale.c0), (.outScale1, 0x54, s.outScale.c1), (.outScale2, 0x58, s.outScale.c2),
       (.bufAddr, 0x60, s.bufAddr), (.bufOff, 0x64, s.bufOff), (.bufLen, 0x68, s.bufLen),
       (.batchIdx, 0x6C, s.batchIdx)],
      regOffset row.1 = row.2.1 ∧ slotOf row.1 = BitVec.ofNat 6 (row.2.1 / 4) ∧ s.get row.1 = row.2.2 ∧
      ∃ t, hostStep (.rd (BitVec.ofNat 6 (row.2.1 / 4))) s = .next t ∧
        t = { s with replies := .word row.2.2 :: s.replies, handed := t.handed }) ∧
    (∀ slot, ReservedSlot slot →
      hostStep (.rd slot) s = .next { s.seeIrq with replies := .word 0x00000000#32 :: s.replies } ∧
      hostStep (.wr slot w) s = .next s.seeIrq) ∧
    (∀ g ∈ roRegs, hostStep (.wr (slotOf g) w) s = .next s.seeIrq)

/-- R21: a write to an RW register of an idle block, other than CMD, puts the word there and nowhere else. -/
def Obligations.RegisterWriteReadsBack : Prop :=
  ∀ (s : State) (w : Word) (g : Reg), s.busy = false → g ∈ idleOnlyRegs → g ≠ .cmd →
    ∃ t, hostStep (.wr (slotOf g) w) s = .next t ∧ t.get g = w ∧ (∀ h, h ≠ g → t.get h = s.get h) ∧
      t.phase = s.phase ∧ t.mem = s.mem ∧ t.cfg = s.cfg

/-- R230: IRQ is the level IRQ_EN ∧ DONE. It follows IRQ_EN when an operation ends, which is the only thing that sets
DONE; it is low at reset and after an acknowledge or a command's start, and rises at once when IRQ_EN is set while
DONE = 1. -/
def Obligations.IrqFollowsDone : Prop :=
  State.reset.irq = false ∧
  (∀ s t : State, s.busy = true → engineStep s = .next t → t.phase = .idle → t.irq = s.irqEn) ∧
  (∀ s t : State, step s = .next t → s.status.done = false → t.status.done = true → s.busy = true ∧ t.phase = .idle) ∧
  (∀ (s t : State) (w : Word), s.busy = false → hostStep (.wr (slotOf .cmd) w) s = .next t → t.irq = false) ∧
  (∀ (s t : State) (w : Word), s.busy = false → w.getLsbD 1 = true → hostStep (.wr (slotOf .status) w) s = .next t →
    t.irq = false) ∧
  (∀ (s t : State) (w : Word), s.status.done = true → w.getLsbD 0 = true →
    hostStep (.wr (slotOf .ctrl) w) s = .next t → t.irq = true)

/-- R50, R62, R63, R262, R268: a host access to a byte in the range of a running BATCH, or in a range handed over with a
BATCH and not got back, is no move of the model's; any other byte below MEM_BYTES is read and written as memory; a byte
at or above MEM_BYTES does not exist. A range is handed over by the CMD write that starts its BATCH. The host has it back
once it sees DONE = 1: by a read of STATUS that shows it, or by the IRQ line, which it sees at each of its steps. That the
line is seen so, that the reset signal gives the ranges back, and that a byte past the memory faults, are the model's
(assumption log 9 and 10). -/
def Obligations.HostByteAccess : Prop :=
  (∀ (s : State) (x : Word) (b : Byte), s.MemLegal →
    let owned :=
      (s.busy = true ∧ (∃ p : Pid, s.operation = .ok p.instr) ∧
        s.batchStart ≤ x.toNat ∧ x.toNat < s.batchStart + 4 * s.npix) ∨
      ∃ g ∈ s.seeIrq.handed, g.first ≤ x.toNat ∧ x.toNat < g.past
    (owned → hostStep (.wb x b) s = .refused (.hostInBatchRange x.toNat) ∧
      hostStep (.rb x) s = .refused (.hostInBatchRange x.toNat)) ∧
    (¬owned → x.toNat < s.cfg.memBytes →
      (∃ t, hostStep (.wb x b) s = .next t ∧ t = { s.seeIrq with mem := t.mem } ∧ t.byteAt x.toNat = b ∧
        ∀ y, y ≠ x.toNat → t.byteAt y = s.byteAt y) ∧
      hostStep (.rb x) s = .next { s.seeIrq with replies := .byte (s.byteAt x.toNat) :: s.replies }) ∧
    (¬owned → s.cfg.memBytes ≤ x.toNat →
      hostStep (.wb x b) s = .fault (.noSuchByte x.toNat) ∧ hostStep (.rb x) s = .fault (.noSuchByte x.toNat))) ∧
  (∀ s : State,
    (s.phase = .idle ∧ s.irqEn = true ∧ s.status.done = true → s.seeIrq = { s with handed := [] }) ∧
    (¬(s.phase = .idle ∧ s.irqEn = true ∧ s.status.done = true) → s.seeIrq = s)) ∧
  (∀ (s t : State) (act : HostAction), hostStep act s = .next t →
    let starts := ∃ (w : Word) (p : Pid), act = .wr (slotOf .cmd) w ∧ s.phase = .idle ∧ decode w = .ok p.instr
    let sees := act = .rd (slotOf .status) ∧ s.phase = .idle ∧ s.status.done = true
    (starts → t.handed =
      ⟨s.bufAddr.toNat + s.bufOff.toNat, s.bufAddr.toNat + s.bufOff.toNat + 4 * (s.bufLen.toNat / 4)⟩ ::
        s.seeIrq.handed) ∧
    (sees ∨ act = .reset → t.handed = []) ∧
    (¬starts → ¬sees → act ≠ .reset → t.handed = s.seeIrq.handed)) ∧
  ∀ s t : State, engineStep s = .next t → t.handed = s.handed

/-- R250, R251: the reset signal, from any state, leaves every register at its reset value, the phase IDLE, IRQ low,
every byte of the memory as it was and the configuration as it is; then the engine waits. `State.reset` holds the same
register values. -/
def Obligations.ResetSignal : Prop :=
  (∀ s : State, ∃ t, hostStep .reset s = .next t ∧
    (∀ g ∈ [Reg.cmd, .status, .ctrl, .errInfo, .a0, .a1, .a2, .r0, .r1, .r2, .wx, .wy, .wz, .wup, .wvp, .bufAddr,
      .bufOff, .bufLen, .batchIdx], t.get g = 0x00000000#32 ∧ State.reset.get g = 0x00000000#32) ∧
    (∀ g ∈ [Reg.inScale0, .inScale1, .inScale2, .outScale0, .outScale1, .outScale2],
      t.get g = 0x437F0000#32 ∧ State.reset.get g = 0x437F0000#32) ∧
    (∀ slot, ReservedSlot slot → hostRead t slot = 0x00000000#32) ∧
    t.phase = .idle ∧ t.irq = false ∧ t.mem = s.mem ∧ t.cfg = s.cfg ∧ engineStep t = .next t) ∧
  State.reset.phase = .idle ∧ State.reset.irq = false

/-! ## The engine's step, faults and the end of an operation (60_exceptions.md) -/

/-- R77, R223, R265: a host turn is its action, an engine turn the engine's step, each on the state with its turn taken;
while the phase is not IDLE the engine's step is the decoded operation's; IDLE has no step. A `wait` lets the engine
step while BUSY = 1 and then reads STATUS. Whose turn it is, and who moves when no turn is left, is the model's choice
(assumption log 5). -/
def Obligations.StepRunsDecodedOperation : Prop :=
  ∀ (s : State) (rest : List Turn),
    (∀ act : HostAction, s.script = .host act :: rest → step s = hostStep act { s with script := rest }) ∧
    (s.script = .engine :: rest → step s = engineStep { s with script := rest }) ∧
    (s.script = [] → step s = engineStep s) ∧
    (s.script = .wait :: rest →
      (s.phase ≠ .idle → step s = engineStep s) ∧
      (s.phase = .idle → step s = hostStep (.rd (slotOf .status)) { s with script := rest })) ∧
    (s.phase = .idle → engineStep s = .next s) ∧
    ∀ i : Instr, s.phase ≠ .idle → decode s.cmd = .ok i →
      engineStep s = exec i s ∧
      (s.script = .engine :: rest → step s = exec i { s with script := rest }) ∧
      (s.script = .wait :: rest → step s = exec i s) ∧ (s.script = [] → step s = exec i s)

/-- R223: a command placed by `withFetchWord`, as the host's write to CMD of an idle block starts it, is what the next
step runs, with the turns to come as they were. How a command is placed is the model's choice (assumption log 6). -/
def Obligations.FetchWordRunsNext : Prop :=
  ∀ (s : State) (i : Instr), step (s.withFetchWord 32 (encode i).toNat) = exec i (s.startCommand (encode i))

/-- R222: the record of a fault, field by field, with the codes of R220 as numbers; and which fault it is that an engine
step ends its operation with. A reserved word ends with ILLEGAL_CMD and info 0. An operation that is not a BATCH ends
with the operand check's fault, or, past it, with a root's (its lane is in `RootOperationsFault` and `RootStageFaults`)
or with WSET's. A BATCH's entry step ends with the fault of its entry check, BATCH_IDX 0; its pixel step with the fault
of that pixel, info and BATCH_IDX its index k and no byte written. -/
def Obligations.FaultRecording : Prop :=
  (faultByte .illegalCmd = 0x01#8 ∧ faultByte .domainOperand = 0x02#8 ∧ faultByte .domainRoot = 0x03#8 ∧
    faultByte .quantNan = 0x04#8 ∧ faultByte .bounds = 0x05#8 ∧ faultByte .whiteZero = 0x06#8) ∧
  (∀ (s : State) (f : OpFault), s.raise f =
    { s with
      errInfo := BitVec.ofNat 32 f.info
      status := { done := true, err := true, wlost := s.status.wlost, errCode := faultByte f.code }
      phase := .idle }) ∧
  ∀ s t : State, engineStep s = .next t → s.busy = true → t.phase = .idle → t.status.err = true →
    ((∀ i, s.operation ≠ .ok i) → t = s.raise ⟨.illegalCmd, 0⟩) ∧
    (∀ i, s.operation = .ok i → i.pid? = none → ∃ f : OpFault, t = s.raise f ∧
      ((∃ (pre post : List Reg) (g : Reg), checkedRegs i = pre ++ g :: post ∧ s.FiniteRegs pre ∧
          isFinite (s.get g) = false ∧ f = ⟨.domainOperand, regOffset g⟩) ∨
        (s.FiniteRegs (checkedRegs i) ∧ f.code = .domainRoot ∧ f.info ≤ 2 ∧
          i ∈ [.root3, .root5, .root12, .xyz2lab, .xyz2luv, .xyz2luvPw, .xyz2srgb, .srgb2lab, .lab2srgb]) ∨
        (s.FiniteRegs (checkedRegs i) ∧ f = ⟨.whiteZero, 0⟩ ∧ i = .wset ∧ isZero s.a.c1 = true))) ∧
    (∀ p : Pid, s.operation = .ok p.instr →
      ((∀ k, s.phase ≠ .walk k) →
        ∃ f : OpFault, batchEntryCheck p s = .error f ∧ t = { s with batchIdx := 0x00000000#32 }.raise f) ∧
      (∀ k, s.phase = .walk k → ∃ f : OpFault, convertPixel p s k (s.pixelBytes k) = .error f ∧ f.info = k ∧
        t = s.raise f ∧ (s.Inv → t.batchIdx = BitVec.ofNat 32 k)))

/-- R17, R224: every operation checks its registers in list order before anything else and faults with the byte offset
of the first that is not finite; for a BATCH the bounds come first, then the scales and the white registers. Negative
numbers, −0 and subnormals pass: finite means only that the exponent field is not 255. -/
def Obligations.OperandCheckReportsFirst : Prop :=
  (∀ (i : Instr) (s : State) (pre post : List Reg) (g : Reg), i.pid? = none → checkedRegs i = pre ++ g :: post →
    s.FiniteRegs pre → ((s.get g).extractLsb' 23 8).toNat = 255 →
    exec i s = .next (s.raise ⟨.domainOperand, regOffset g⟩)) ∧
  (∀ (p : Pid) (s : State) (pre post : List Reg) (g : Reg), (∀ k, s.phase ≠ .walk k) →
    s.batchStart + 4 * s.npix ≤ s.cfg.memBytes → batchCheckedRegs p = pre ++ g :: post →
    s.FiniteRegs pre → ((s.get g).extractLsb' 23 8).toNat = 255 →
    exec p.instr s = .next ({ s with batchIdx := 0x00000000#32 }.raise ⟨.domainOperand, regOffset g⟩)) ∧
  (∀ x : F32, isFinite x = true ↔ (x.extractLsb' 23 8).toNat ≠ 255)

/-- R223 step 3, R12, R28: the end step of an operation that writes R0 to R2. A lane that is not NaN is written as its
own bits; a NaN lane gets some NaN pattern, whichever the draw gives (assumption log 3). -/
def Obligations.EndStepWritesResults : Prop :=
  ∀ (s : State) (v : Triple F32),
    let t := (s.writeResult v).complete
    (isNaN v.c0 = false → t.get .r0 = v.c0) ∧ (isNaN v.c0 = true → isNaN (t.get .r0) = true) ∧
    (isNaN v.c1 = false → t.get .r1 = v.c1) ∧ (isNaN v.c1 = true → isNaN (t.get .r1) = true) ∧
    (isNaN v.c2 = false → t.get .r2 = v.c2) ∧ (isNaN v.c2 = true → isNaN (t.get .r2) = true) ∧
    t = { s with
      r := t.r
      nanDraws := t.nanDraws
      status := { done := true, err := false, wlost := s.status.wlost, errCode := 0x00#8 }
      phase := .idle }

/-- R170: NOP ends without a fault and changes STATUS only; issued on an idle block it changes CMD and STATUS only. -/
def Obligations.NopOnlySetsDone : Prop :=
  (∀ s : State, exec .nop s =
    .next { s with
      status := { done := true, err := false, wlost := s.status.wlost, errCode := 0x00#8 }
      phase := .idle }) ∧
  ∀ s : State, s.phase = .idle → ∃ t, hostStep (.wr (slotOf .cmd) 0x00000000#32) s = .next t ∧
    engineStep t =
      .next { s.seeIrq with
        cmd := 0x00000000#32
        status := { done := true, err := false, wlost := s.status.wlost, errCode := 0x00#8 } }

/-! ## Binary32 (00_scope.md) -/

/-- R12, D3: each arithmetic operation on finite numbers, where its result is finite, gives a number no finite binary32
is nearer to the exact result than, and of two equally near ones the one whose last bit is 0. -/
def Obligations.ArithmeticRoundsToNearest : Prop :=
  ∀ (x y : F32), isFinite x = true → isFinite y = true →
    ∀ (r : F32) (z : ℚ),
      (r = fadd x y ∧ z = valueQ x + valueQ y ∨ r = fsub x y ∧ z = valueQ x - valueQ y ∨
        r = fmul x y ∧ z = valueQ x * valueQ y ∨ r = fdiv x y ∧ isZero y = false ∧ z = valueQ x / valueQ y) →
      isFinite r = true →
      ∀ f : F32, isFinite f = true →
        |valueQ r - z| ≤ |valueQ f - z| ∧
        (|valueQ r - z| = |valueQ f - z| → valueQ r ≠ valueQ f → r.getLsbD 0 = false)

/-- R12: the results `ArithmeticRoundsToNearest` leaves out. On finite operands with a divisor that is not zero no result
is NaN, it is an infinity exactly from half a last place above the largest finite number, and its sign is the exact
result's, also where it underflows to a zero; an exact sum of 0 is +0 but for (−0) + (−0). Then NaN, infinite and zero
operands: NaN from a NaN, ∞ − ∞, 0·∞, ∞/∞ and 0/0 and from nothing else; x/0 is an infinity; a product's and a
quotient's sign is that of its operands' signs together; a difference is the sum with the second sign changed. The
first clause says what the words stand for in the fields of a pattern. -/
def Obligations.ArithmeticOverflow : Prop :=
  (∀ x : F32,
    let E := (x.extractLsb' 23 8).toNat
    let F := (x.extractLsb' 0 23).toNat
    (isNaN x = true ↔ E = 255 ∧ F ≠ 0) ∧ (isInf x = true ↔ E = 255 ∧ F = 0) ∧ (isZero x = true ↔ E = 0 ∧ F = 0) ∧
    (isFinite x = true ↔ E ≠ 255) ∧ signBit x = x.getLsbD 31 ∧
    valueQ x =
      (if x.getLsbD 31 = true then -1 else 1) * (if E = 0 then (F : ℚ) else 2 ^ 23 + F) *
        (2 : ℚ) ^ ((max E 1 : ℤ) - 150)) ∧
  (∀ (x y : F32), isFinite x = true → isFinite y = true →
    ∀ (r : F32) (z : ℚ),
      (r = fadd x y ∧ z = valueQ x + valueQ y ∨ r = fsub x y ∧ z = valueQ x - valueQ y ∨
        r = fmul x y ∧ z = valueQ x * valueQ y ∨ r = fdiv x y ∧ isZero y = false ∧ z = valueQ x / valueQ y) →
      isNaN r = false ∧ (isInf r = true ↔ 2 ^ 128 - 2 ^ 103 ≤ |z|) ∧ (z ≠ 0 → (signBit r = true ↔ z < 0))) ∧
  (∀ x y : F32, isNaN x = true ∨ isNaN y = true →
    isNaN (fadd x y) = true ∧ isNaN (fsub x y) = true ∧ isNaN (fmul x y) = true ∧ isNaN (fdiv x y) = true) ∧
  (∀ x y : F32, fsub x y = fadd x (y ^^^ 0x80000000#32)) ∧
  ∀ x y : F32, isNaN x = false → isNaN y = false →
    ((isFinite x = true → isFinite y = true → valueQ x + valueQ y = 0 →
        fadd x y = if signBit x = true ∧ signBit y = true then 0x80000000#32 else 0x00000000#32) ∧
      (isInf x = true → isFinite y = true → fadd x y = x) ∧
      (isFinite x = true → isInf y = true → fadd x y = y) ∧
      (isInf x = true → isInf y = true → signBit x = signBit y → fadd x y = x) ∧
      (isInf x = true → isInf y = true → signBit x ≠ signBit y → isNaN (fadd x y) = true)) ∧
    ((isNaN (fmul x y) = true ↔ isZero x = true ∧ isInf y = true ∨ isInf x = true ∧ isZero y = true) ∧
      (isNaN (fmul x y) = false → signBit (fmul x y) = (signBit x != signBit y)) ∧
      (isInf x = true ∨ isInf y = true → isNaN (fmul x y) = false → isInf (fmul x y) = true)) ∧
    (isNaN (fdiv x y) = true ↔ isZero x = true ∧ isZero y = true ∨ isInf x = true ∧ isInf y = true) ∧
    (isNaN (fdiv x y) = false → signBit (fdiv x y) = (signBit x != signBit y)) ∧
    (isInf x = true ∨ isZero y = true → isNaN (fdiv x y) = false → isInf (fdiv x y) = true) ∧
    (isFinite x = true → isInf y = true → isZero (fdiv x y) = true)

/-- R12, D44, D45: comparisons are false when either side is NaN, and otherwise compare the values, so that the two
zeros are equal; +∞ is above and −∞ below every finite number, and an infinity equals itself alone. -/
def Obligations.ComparisonsAreOrdered : Prop :=
  ∀ x y : F32,
    (isNaN x = true ∨ isNaN y = true → fle x y = false ∧ feq x y = false) ∧
    (isFinite x = true → isFinite y = true →
      (fle x y = true ↔ valueQ x ≤ valueQ y) ∧ (feq x y = true ↔ valueQ x = valueQ y)) ∧
    (isFinite x = true → isInf y = true →
      fle x y = !signBit y ∧ fle y x = signBit y ∧ feq x y = false ∧ feq y x = false) ∧
    (isInf x = true → isInf y = true →
      fle x y = (signBit x || !signBit y) ∧ feq x y = (signBit x == signBit y)) ∧
    (isInf x = true ↔ x = 0x7F800000#32 ∨ x = 0xFF800000#32)

/-- R13, R100, R180: the constants, the quantizer's bounds 0 and 255 among them, have their patterns, which are the
binary32 nearest to the source's literals. R12: `i2f` of 0 to 255 is exact. -/
def Obligations.ConstantsAreNearest : Prop :=
  (kDecT = 0x3D25AEE6#32 ∧ k1292 = 0x414EB852#32 ∧ k055 = 0x3D6147AE#32 ∧ k1055 = 0x3F870A3D#32 ∧
    kEncT = 0x3B4D2E1C#32 ∧ labT = 0x3C111AA7#32 ∧ labK = 0x3E038027#32 ∧ f4over29 = 0x3E0D3DCB#32 ∧
    f6over29 = 0x3E53DCB1#32 ∧ kappa = 0x4461D2F7#32 ∧ lT = 0x41000000#32 ∧ f116 = 0x42E80000#32 ∧
    f16 = 0x41800000#32 ∧ f500 = 0x43FA0000#32 ∧ f200 = 0x43480000#32 ∧ f13 = 0x41500000#32 ∧ f15 = 0x41700000#32 ∧
    f3 = 0x40400000#32 ∧ f4 = 0x40800000#32 ∧ f9 = 0x41100000#32 ∧ f1 = 0x3F800000#32 ∧ f12 = 0x41400000#32 ∧
    f20 = 0x41A00000#32 ∧ f255 = 0x437F0000#32 ∧ zero32 = 0x00000000#32) ∧
  (kDecT = nearestF32 false 4045 100000 ∧ k1292 = nearestF32 false 1292 100 ∧ k055 = nearestF32 false 55 1000 ∧
    k1055 = nearestF32 false 1055 1000 ∧ kEncT = nearestF32 false 31308 10000000 ∧
    labT = nearestF32 false 8856451679035631 1000000000000000000 ∧
    labK = nearestF32 false 12841854934601665 100000000000000000 ∧ f4over29 = nearestF32 false 4 29 ∧
    f6over29 = nearestF32 false 20689655172413793 100000000000000000 ∧
    kappa = nearestF32 false 9032962962962963 10000000000000) ∧
  (valueQ lT = 8 ∧ valueQ f116 = 116 ∧ valueQ f16 = 16 ∧ valueQ f500 = 500 ∧ valueQ f200 = 200 ∧ valueQ f13 = 13 ∧
    valueQ f15 = 15 ∧ valueQ f3 = 3 ∧ valueQ f4 = 4 ∧ valueQ f9 = 9 ∧ valueQ f1 = 1 ∧ valueQ f12 = 12 ∧
    valueQ f20 = 20 ∧ valueQ f255 = 255 ∧ valueQ zero32 = 0) ∧
  ∀ k ≤ 255, isFinite (i2f k) = true ∧ signBit (i2f k) = false ∧ valueQ (i2f k) = k

/-! ## The root engine (40_root_engine.md) -/

/-- R101, R102, R104 to R106: outside its domain `RootEngine` faults with the lane; inside it gives (p·s)·k, with p the
four steps of Horner's scheme on m over c4 to c0 of POLY[n], s = 2^e′ built in the exponent field, and k the entry of
CORR[n] (`CorrectionTablesAreNearest`) for the remainder. -/
def Obligations.RootEngineDomain : Prop :=
  ∀ (cfg : Config) (x : F32) (lane : Nat) (n : RootIndex) (N : Int) (c : Poly),
    (n = .n3 ∧ N = 3 ∧ c = cfg.poly3 ∨ n = .n5 ∧ N = 5 ∧ c = cfg.poly5 ∨ n = .n12 ∧ N = 12 ∧ c = cfg.poly12) →
    let E := (x.extractLsb' 23 8).toNat
    let outside := x.getLsbD 31 = true ∨ x = 0x00000000#32 ∨ E = 255 ∨
      (E = 0 ∧ x ≠ 0x00000000#32 ∧ cfg.subnormalRoot = .fault)
    let e : Int := E - 126
    let m := 0x3F000000#32 ||| (x.extractLsb' 0 23).zeroExtend 32
    let p := fadd (fmul (fadd (fmul (fadd (fmul (fadd (fmul c.c4 m) c.c3) m) c.c2) m) c.c1) m) c.c0
    let q := e.tdiv N
    let scale : BitVec (1 + 8 + 23) := 0#1 ++ BitVec.ofInt 8 (q + 127) ++ 0#23
    let k := corrAt n (e - q * N + (N - 1)).toNat
    rootValue cfg n x = fmul (fmul p scale) k ∧
    (outside → rootEngine cfg n x lane = .error ⟨.domainRoot, lane⟩) ∧
    (¬outside → rootEngine cfg n x lane = .ok (fmul (fmul p scale) k))

/-- R102, R105, R107 (a) to (c): the exponent, its quotient, the scale 2^e′ and the table index stay in range for every
number the engine takes, and a normal number is m·2^e with m in [0.5, 1). -/
def Obligations.RootRanges : Prop :=
  ∀ (cfg : Config) (n : RootIndex) (x : F32), rootAdmits cfg x = true →
    let e := rootExponent x
    let q := rootQuotient n e
    (expField x ≠ 0 → -125 ≤ e ∧ e ≤ 128 ∧ valueQ x = valueQ (rootMantissa x) * (2 : ℚ) ^ e) ∧
    (expField x = 0 → e = -126) ∧
    (1 / 2 ≤ valueQ (rootMantissa x) ∧ valueQ (rootMantissa x) < 1) ∧
    (n = .n3 → -42 ≤ q ∧ q ≤ 42) ∧ (n = .n5 → -25 ≤ q ∧ q ≤ 25) ∧ (n = .n12 → -10 ≤ q ∧ q ≤ 10) ∧
    valueQ (rootScale q) = (2 : ℚ) ^ q ∧
    |e - q * rootNat n| ≤ rootNat n - 1 ∧ 0 ≤ (e - q * rootNat n) * e ∧
    corrIndex n e < (corrTable n).length ∧
    (corrIndex n e : Int) = (e - q * rootNat n) + (rootNat n - 1)

/-- R103: each `CORR[n]` has 2n − 1 entries, and entry i is positive and the binary32 nearest to 2^(r/n) with
r = i − (n − 1): 2^r lies strictly between the n-th powers of the midpoints to the entry's two neighbours (in half units
of 2^-149). -/
def Obligations.CorrectionTablesAreNearest : Prop :=
  ∀ n : RootIndex, (corrTable n).length = 2 * rootNat n - 1 ∧
    ∀ i < 2 * rootNat n - 1,
      let w := corrAt n i
      signBit w = false ∧
      (mag (w - 1#32) + mag w) ^ rootNat n < 2 ^ (150 * rootNat n + i - (rootNat n - 1)) ∧
      2 ^ (150 * rootNat n + i - (rootNat n - 1)) < (mag w + mag (w + 1#32)) ^ rootNat n

/-- R110 to R112: where every lane is positive and finite (and not a subnormal that `SUBNORMAL_ROOT` excludes), the three
ROOT operations complete with the root of each lane. -/
def Obligations.RootOperationsComplete : Prop :=
  ∀ (s : State) (i : Instr) (n : RootIndex),
    (i = .root3 ∧ n = .n3 ∨ i = .root5 ∧ n = .n5 ∨ i = .root12 ∧ n = .n12) →
    (∀ x ∈ [s.a.c0, s.a.c1, s.a.c2], isFinite x = true ∧ signBit x = false ∧ isZero x = false ∧
      (expField x ≠ 0 ∨ s.cfg.subnormalRoot = .compute)) →
    exec i s = .next (s.writeResult (s.a.map (rootValue s.cfg n))).complete

/-- R110 to R112, R101: where every lane is finite and a lane is negative, a zero, or an excluded subnormal, the first
such lane is reported with DOMAIN_ROOT. -/
def Obligations.RootOperationsFault : Prop :=
  ∀ (s : State) (i : Instr) (lane : Nat), i = .root3 ∨ i = .root5 ∨ i = .root12 → s.a.Finite →
    FirstFail (fun x => !signBit x && !isZero x && !(expField x == 0 && s.cfg.subnormalRoot == .fault)) s.a lane →
    exec i s = .next (s.raise ⟨.domainRoot, lane⟩)

/-! ## Transfer functions, matrices and pipelines (41 to 44) -/

/-- R120, R122: SRGB_DEC completes on every finite triple, with v/12.92 at or below the threshold and r^12 as r6·r6
above it: DOMAIN_ROOT cannot arise. -/
def Obligations.SrgbDecodeCompletes : Prop :=
  ∀ s : State, s.a.Finite →
    let power := fun r =>
      let r3 := fmul (fmul r r) r
      let r6 := fmul r3 r3
      fmul r6 r6
    let decoded := fun v =>
      if fle v kDecT then fdiv v k1292 else power (rootValue s.cfg .n5 (fdiv (fadd v k055) k1055))
    exec .srgbDec s = .next (s.writeResult (s.a.map decoded)).complete

/-- R121, R123: SRGB_ENC completes on every finite triple, with v·12.92 at or below the threshold and 1.055·r5 − 0.055,
r5 as r4·r, above it. -/
def Obligations.SrgbEncodeCompletes : Prop :=
  ∀ s : State, s.a.Finite →
    let power := fun r =>
      let r2 := fmul r r
      let r4 := fmul r2 r2
      fmul r4 r
    let encoded := fun v =>
      if fle v kEncT then fmul v k1292 else fsub (fmul k1055 (power (rootValue s.cfg .n12 v))) k055
    exec .srgbEnc s = .next (s.writeResult (s.a.map encoded)).complete

/-- R130, R142: LAB_FWD completes on every finite triple. -/
def Obligations.LabForwardCompletes : Prop :=
  ∀ s : State, s.a.Finite → exec .labFwd s = .next (s.writeResult (s.a.map (labForwardValue s.cfg))).complete

/-- R131, R143: LAB_INV completes on every finite triple. -/
def Obligations.LabInverseCompletes : Prop :=
  ∀ s : State, s.a.Finite →
    exec .labInv s = .next (s.writeResult (s.a.map fun v =>
      if fle v f6over29 then fmul (fsub v f4over29) labK else fmul (fmul v v) v)).complete

/-- R132, R144: XYZ2LAB completes where no quotient by the white is NaN or +∞. -/
def Obligations.XyzToLabCompletes : Prop :=
  ∀ s : State, s.FiniteRegs (checkedRegs .xyz2lab) → AllPass rootStageOk (divLanes s.a s.white) →
    exec .xyz2lab s =
      .next (s.writeResult (labOf ((divLanes s.a s.white).map (labForwardValue s.cfg)))).complete

/-- R133, R145: LAB2XYZ completes on finite operands and white. -/
def Obligations.LabToXyzCompletes : Prop :=
  ∀ s : State, s.FiniteRegs (checkedRegs .lab2xyz) →
    let inv := fun v => if fle v f6over29 then fmul (fsub v f4over29) labK else fmul (fmul v v) v
    let fy := fdiv (fadd s.a.c0 f16) f116
    exec .lab2xyz s =
      .next (s.writeResult
        ⟨fmul (inv (fadd fy (fdiv s.a.c1 f500))) s.wx, fmul (inv fy) s.wy,
          fmul (inv (fsub fy (fdiv s.a.c2 f200))) s.wz⟩).complete

/-- R134, R146: UVP completes on every finite triple; a denominator that is exactly zero gives (+0, +0, +0).
`calc_uv_prime` is R134's on every triple, of infinities and NaN too, as WSET's and the Luv operations' use of it needs. -/
def Obligations.UvPrimeCompletes : Prop :=
  (∀ c : Triple F32,
    let d := fadd (fadd c.c0 (fmul f15 c.c1)) (fmul f3 c.c2)
    (isZero d = true → calcUvPrime c = (zero32, zero32)) ∧
    (isZero d = false → calcUvPrime c = (fdiv (fmul f4 c.c0) d, fdiv (fmul f9 c.c1) d))) ∧
  ∀ s : State, s.a.Finite →
    let d := fadd (fadd s.a.c0 (fmul f15 s.a.c1)) (fmul f3 s.a.c2)
    (isZero d = true → exec .uvp s = .next (s.writeResult ⟨zero32, zero32, zero32⟩).complete) ∧
    (isZero d = false →
      exec .uvp s = .next (s.writeResult ⟨fdiv (fmul f4 s.a.c0) d, fdiv (fmul f9 s.a.c1) d, zero32⟩).complete)

/-- R135, R136, R147, R148, R140: XYZ2LUV and XYZ2LUV.PW complete where y/WY is neither NaN nor +∞; the full form takes
the white's chromaticity from WX, WY, WZ, the .PW form from WUP and WVP. -/
def Obligations.XyzToLuvCompletes : Prop :=
  ∀ (s : State) (i : Instr) (upw vpw : F32),
    (i = .xyz2luv ∧ (upw, vpw) = calcUvPrime ⟨s.wx, s.wy, s.wz⟩ ∨ i = .xyz2luvPw ∧ upw = s.wup ∧ vpw = s.wvp) →
    s.FiniteRegs (checkedRegs i) → rootStageOk (fdiv s.a.c1 s.wy) = true →
    let l := lightnessValue s.cfg (fdiv s.a.c1 s.wy)
    exec i s =
      .next (s.writeResult
        ⟨l, fmul (fmul f13 l) (fsub (calcUvPrime s.a).1 upw), fmul (fmul f13 l) (fsub (calcUvPrime s.a).2 vpw)⟩).complete

/-- R137 to R140, R149, R150: LUV2XYZ and LUV2XYZ.PW complete on finite operands and white; L = ±0 gives three +0. -/
def Obligations.LuvToXyzCompletes : Prop :=
  ∀ (s : State) (i : Instr) (upw vpw : F32),
    (i = .luv2xyz ∧ (upw, vpw) = calcUvPrime ⟨s.wx, s.wy, s.wz⟩ ∨ i = .luv2xyzPw ∧ upw = s.wup ∧ vpw = s.wvp) →
    s.FiniteRegs (checkedRegs i) →
    let l := s.a.c0
    let up := fadd (fdiv s.a.c1 (fmul f13 l)) upw
    let vp := fadd (fdiv s.a.c2 (fmul f13 l)) vpw
    let t := fdiv (fadd l f16) f116
    let y := if fle l lT then fmul (fdiv l kappa) s.wy else fmul (fmul (fmul t t) t) s.wy
    let d := fmul f4 vp
    (isZero l = true → exec i s = .next (s.writeResult ⟨zero32, zero32, zero32⟩).complete) ∧
    (isZero l = false →
      exec i s =
        .next (s.writeResult
          ⟨fdiv (fmul y (fmul f9 up)) d, y,
            fdiv (fmul y (fsub (fsub f12 (fmul f3 up)) (fmul f20 vp))) d⟩).complete)

/-- R141, R151: WSET writes WX to WVP together from the chromaticity and leaves R0 to R2; a white_y that is ±0 faults
with WHITE_ZERO and info 0 and writes none. -/
def Obligations.WhiteSetFromChromaticity : Prop :=
  ∀ s : State, s.a.Finite →
    (isZero s.a.c1 = true → exec .wset s = .next (s.raise ⟨.whiteZero, 0⟩)) ∧
    (isZero s.a.c1 = false →
      let x := fmul (fdiv s.a.c0 s.a.c1) s.a.c2
      let z := fmul (fdiv (fsub (fsub f1 s.a.c0) s.a.c1) s.a.c1) s.a.c2
      let uv := calcUvPrime ⟨x, s.a.c2, z⟩
      ∃ t, exec .wset s = .next t ∧ t.r = s.r ∧ t.wy = s.a.c2 ∧
        (isNaN x = false → t.wx = x) ∧ (isNaN z = false → t.wz = z) ∧
        (isNaN uv.1 = false → t.wup = uv.1) ∧ (isNaN uv.2 = false → t.wvp = uv.2) ∧
        (isNaN x = true → isNaN t.wx = true) ∧ (isNaN z = true → isNaN t.wz = true) ∧
        (isNaN uv.1 = true → isNaN t.wup = true) ∧ (isNaN uv.2 = true → isNaN t.wvp = true) ∧
        t = { s with
          wx := t.wx, wy := t.wy, wz := t.wz, wup := t.wup, wvp := t.wvp, nanDraws := t.nanDraws
          status := { done := true, err := false, wlost := s.status.wlost, errCode := 0x00#8 }
          phase := .idle })

/-- R160, R164, R165: MAT_FWD and MAT_INV complete on every finite triple, each row summed left to right. `matmul` is
R160's on every matrix and triple, of infinities and NaN too, as the pipelines' use of it needs. -/
def Obligations.MatrixMultiplyCompletes : Prop :=
  (∀ (m : Mat3) (c : Triple F32),
    matmul m c =
      ⟨fadd (fadd (fmul m.c0.c0 c.c0) (fmul m.c0.c1 c.c1)) (fmul m.c0.c2 c.c2),
        fadd (fadd (fmul m.c1.c0 c.c0) (fmul m.c1.c1 c.c1)) (fmul m.c1.c2 c.c2),
        fadd (fadd (fmul m.c2.c0 c.c0) (fmul m.c2.c1 c.c1)) (fmul m.c2.c2 c.c2)⟩) ∧
  ∀ (s : State) (i : Instr) (m : Mat3),
    (i = .matFwd ∧ m = s.cfg.matFwd ∨ i = .matInv ∧ m = s.cfg.matInv) → s.a.Finite →
    exec i s =
      .next (s.writeResult (m.map fun row =>
        fadd (fadd (fmul row.c0 s.a.c0) (fmul row.c1 s.a.c1)) (fmul row.c2 s.a.c2))).complete

/-- R171, R173: SRGB2XYZ completes on every finite triple, and SRGB2LAB where no quotient by the white is NaN or +∞. -/
def Obligations.SrgbForwardPipelinesComplete : Prop :=
  ∀ s : State, s.a.Finite →
    let xyz := matmul s.cfg.matFwd (s.a.map (decodeValue s.cfg))
    exec .srgb2xyz s = .next (s.writeResult xyz).complete ∧
    (s.white.Finite → AllPass rootStageOk (divLanes xyz s.white) →
      exec .srgb2lab s =
        .next (s.writeResult (labOf ((divLanes xyz s.white).map (labForwardValue s.cfg)))).complete)

/-- R172, R174: XYZ2SRGB and LAB2SRGB complete where the matrix gives no NaN and no +∞. -/
def Obligations.SrgbInversePipelinesComplete : Prop :=
  ∀ s : State, s.a.Finite →
    (let l := matmul s.cfg.matInv s.a
     AllPass rootStageOk l → exec .xyz2srgb s = .next (s.writeResult (l.map (encodeValue s.cfg))).complete) ∧
    (let l := matmul s.cfg.matInv (labToXyz s.white s.a)
     s.white.Finite → AllPass rootStageOk l →
       exec .lab2srgb s = .next (s.writeResult (l.map (encodeValue s.cfg))).complete)

/-- R220, R144, R147, R148, R172 to R174: a NaN or +∞ that reaches a root stage faults with DOMAIN_ROOT and its lane, the
first such lane; y/WY is lane 1. -/
def Obligations.RootStageFaults : Prop :=
  ∀ (s : State) (lane : Nat),
    (s.FiniteRegs (checkedRegs .xyz2lab) → FirstFail rootStageOk (divLanes s.a s.white) lane →
      exec .xyz2lab s = .next (s.raise ⟨.domainRoot, lane⟩)) ∧
    (s.FiniteRegs (checkedRegs .xyz2luv) → rootStageOk (fdiv s.a.c1 s.wy) = false →
      exec .xyz2luv s = .next (s.raise ⟨.domainRoot, 1⟩)) ∧
    (s.FiniteRegs (checkedRegs .xyz2luvPw) → rootStageOk (fdiv s.a.c1 s.wy) = false →
      exec .xyz2luvPw s = .next (s.raise ⟨.domainRoot, 1⟩)) ∧
    (s.a.Finite → FirstFail rootStageOk (matmul s.cfg.matInv s.a) lane →
      exec .xyz2srgb s = .next (s.raise ⟨.domainRoot, lane⟩)) ∧
    (s.FiniteRegs (checkedRegs .srgb2lab) →
      FirstFail rootStageOk (divLanes (matmul s.cfg.matFwd (s.a.map (decodeValue s.cfg))) s.white) lane →
      exec .srgb2lab s = .next (s.raise ⟨.domainRoot, lane⟩)) ∧
    (s.FiniteRegs (checkedRegs .lab2srgb) →
      FirstFail rootStageOk (matmul s.cfg.matInv (labToXyz s.white s.a)) lane →
      exec .lab2srgb s = .next (s.raise ⟨.domainRoot, lane⟩))

/-! ## The quantizer (45_quantizer.md) -/

/-- R180: the byte of a channel: NaN faults, the product is clamped to 0 and 255, and in between it is the nearest whole
number, a tie going to the even one (this hardware's rule) or, under TIES_AWAY, to the larger one. -/
def Obligations.QuantizeRoundsAndClamps : Prop :=
  refConfig.qround = .tiesEven ∧ ∀ (cfg : Config) (v scale : F32) (info : Nat),
    let p := fmul v scale
    (isNaN p = true → quantize cfg v scale info = .error ⟨.quantNan, info⟩) ∧
    (isNaN p = false → ∃ b : Byte, quantize cfg v scale info = .ok b ∧
      (fle p zero32 = true → b = 0x00#8) ∧
      (fle f255 p = true → b = 0xFF#8) ∧
      (fle p zero32 = false → fle f255 p = false →
        |(b.toNat : ℚ) - valueQ p| ≤ 1 / 2 ∧
        (|(b.toNat : ℚ) - valueQ p| = 1 / 2 →
          (cfg.qround = .tiesEven → b.toNat % 2 = 0) ∧ (cfg.qround = .tiesAway → valueQ p < b.toNat))))

/-- R181: QUANT completes on finite operands and scales, with the three bytes zero-extended: QUANT_NAN cannot arise. -/
def Obligations.QuantCompletes : Prop :=
  ∀ s : State, s.FiniteRegs (checkedRegs .quant) →
    ∃ q : Triple Byte,
      (∀ info, quantize s.cfg s.a.c0 s.outScale.c0 info = .ok q.c0 ∧
        quantize s.cfg s.a.c1 s.outScale.c1 info = .ok q.c1 ∧
        quantize s.cfg s.a.c2 s.outScale.c2 info = .ok q.c2) ∧
      exec .quant s =
        .next { s with
          r := ⟨0#24 ++ q.c0, 0#24 ++ q.c1, 0#24 ++ q.c2⟩
          status := { done := true, err := false, wlost := s.status.wlost, errCode := 0x00#8 }
          phase := .idle }

/-! ## The batch converter (46_batch.md) -/

/-- R190, R191, R265: the entry step and the end step of each of the ten BATCH operations. Bounds first, on unbounded
integers and even with no pixel; then the registers; then WALK(op, 0) with BATCH_IDX 0. At k = npix the BATCH ends
without a fault. Neither step touches a byte. -/
def Obligations.BatchEntryAndEndSteps : Prop :=
  ∀ (p : Pid) (s : State),
    let start := s.bufAddr.toNat + s.bufOff.toNat
    let npix := s.bufLen.toNat / 4
    ((∀ k, s.phase ≠ .walk k) →
      (s.cfg.memBytes < start + 4 * npix →
        exec p.instr s = .next ({ s with batchIdx := 0x00000000#32 }.raise ⟨.bounds, 0⟩)) ∧
      (start + 4 * npix ≤ s.cfg.memBytes → s.FiniteRegs (batchCheckedRegs p) →
        exec p.instr s = .next { s with batchIdx := 0x00000000#32, phase := .walk 0 })) ∧
    (s.phase = .walk npix →
      exec p.instr s =
        .next { s with
          status := { done := true, err := false, wlost := s.status.wlost, errCode := 0x00#8 }
          phase := .idle }) ∧
    npix ≤ 2 ^ 30 - 1

/-- R194: PIPE of each BATCH on a triple is what the operation of that pipeline computes of it as operands, with the same
white registers: the same results where there is no fault, the same fault where there is one. -/
def Obligations.BatchPipelineIsTheOperation : Prop :=
  ∀ (p : Pid) (s : State) (c : Triple F32),
    let t := { s with a := c }
    t.FiniteRegs (checkedRegs (pidOperation p)) →
      (∀ o, pipe p s c = .ok o → exec (pidOperation p) t = .next (t.writeResult o).complete) ∧
      (∀ f, pipe p s c = .error f → exec (pidOperation p) t = .next (t.raise f))

/-- R192: the pixel step of each BATCH where it does not fault: the three channels are decoded, taken through the
pipeline, quantized and written, no other byte changes, BATCH_IDX is k + 1 and the walk goes on. -/
def Obligations.BatchPixelStep : Prop :=
  ∀ (p : Pid) (s : State) (k : Nat) (o : Triple F32), s.phase = .walk k → k < s.npix →
    s.pixelAddr k + 2 < s.cfg.memBytes → Memory.wf s.mem →
    (channelsOf s.inScale (s.pixelBytes k)).Finite →
    pipe p s (channelsOf s.inScale (s.pixelBytes k)) = .ok o →
    AllPass (fun x => !isNaN x) (mulLanes o s.outScale) →
    ∃ t, exec p.instr s = .next t ∧
      t = { s with mem := t.mem, batchIdx := BitVec.ofNat 32 (k + 1), phase := .walk (k + 1) } ∧
      t.pixelBytes k = (mulLanes o s.outScale).map (clampByte s.cfg.qround) ∧
      (∀ y, y ≠ s.pixelAddr k → y ≠ s.pixelAddr k + 1 → y ≠ s.pixelAddr k + 2 → t.byteAt y = s.byteAt y) ∧
      Memory.wf t.mem

/-- R192, R193, R224: the faults of a pixel step, in their order, each with info k and no byte written: a decoded channel
that is not finite, the pipeline's fault, a product that is NaN. -/
def Obligations.BatchPixelFaults : Prop :=
  ∀ (p : Pid) (s : State) (k : Nat), s.phase = .walk k → k < s.npix → s.pixelAddr k + 2 < s.cfg.memBytes →
    let c := channelsOf s.inScale (s.pixelBytes k)
    (¬c.Finite → exec p.instr s = .next (s.raise ⟨.domainOperand, k⟩)) ∧
    (∀ f, c.Finite → pipe p s c = .error f → exec p.instr s = .next (s.raise ⟨f.code, k⟩)) ∧
    (∀ o, c.Finite → pipe p s c = .ok o → ¬AllPass (fun x => !isNaN x) (mulLanes o s.outScale) →
      exec p.instr s = .next (s.raise ⟨.quantNan, k⟩))

/-- R53, R190, R192: no engine step changes a byte that is not a channel byte of a pixel of the buffer: not a passthrough
byte, not a trailing byte, none outside. -/
def Obligations.EngineTouchesOnlyChannelBytes : Prop :=
  ∀ s t : State, engineStep s = .next t →
    ∀ y : Nat, (∀ k < s.npix, y ≠ s.pixelAddr k ∧ y ≠ s.pixelAddr k + 1 ∧ y ≠ s.pixelAddr k + 2) →
      t.byteAt y = s.byteAt y

/-- R61, R192, R266: a BATCH whose pixels all convert ends after its pixel steps and its end step with every pixel
replaced by what the bytes the host left there convert to, every other byte and every register but STATUS and BATCH_IDX
as they were, and BATCH_IDX the number of pixels. -/
def Obligations.FaultFreeBatchConvertsEveryPixel : Prop :=
  ∀ (p : Pid) (s : State) (q : Nat → Triple Byte), s.Inv → s.phase = .walk 0 → s.operation = .ok p.instr →
    (∀ k < s.npix, convertPixel p s k (s.pixelBytes k) = .ok (q k)) →
    ∃ t, engineSteps (s.npix + 1) s = .next t ∧
      t = { s with
        mem := t.mem
        batchIdx := BitVec.ofNat 32 s.npix
        status := { done := true, err := false, wlost := s.status.wlost, errCode := 0x00#8 }
        phase := .idle } ∧
      (∀ k < s.npix, t.pixelBytes k = q k) ∧
      (∀ y : Nat, (∀ k < s.npix, y ≠ s.pixelAddr k ∧ y ≠ s.pixelAddr k + 1 ∧ y ≠ s.pixelAddr k + 2) →
        t.byteAt y = s.byteAt y)

/-- R225, R193: a BATCH whose pixel k is the first to fault ends there with pixels 0 to k−1 converted, no byte of pixel k
or beyond changed, BATCH_IDX = k, and the fault's code and k recorded. -/
def Obligations.BatchFaultIsPrecise : Prop :=
  ∀ (p : Pid) (s : State) (k : Nat) (f : OpFault) (q : Nat → Triple Byte), s.Inv → s.phase = .walk 0 →
    s.operation = .ok p.instr → k < s.npix →
    (∀ j < k, convertPixel p s j (s.pixelBytes j) = .ok (q j)) →
    convertPixel p s k (s.pixelBytes k) = .error f →
    ∃ t, engineSteps (k + 1) s = .next t ∧
      t = { s with
        mem := t.mem
        batchIdx := BitVec.ofNat 32 k
        errInfo := BitVec.ofNat 32 k
        status := { done := true, err := true, wlost := s.status.wlost, errCode := faultByte f.code }
        phase := .idle } ∧
      (∀ j < k, t.pixelBytes j = q j) ∧
      (∀ y : Nat, (∀ j < k, y ≠ s.pixelAddr j ∧ y ≠ s.pixelAddr j + 1 ∧ y ≠ s.pixelAddr j + 2) →
        t.byteAt y = s.byteAt y)

/-- R266: every operation ends. From a legal state the engine alone reaches IDLE with DONE = 1 in at most npix + 2 steps;
an operation that is not a BATCH in one. -/
def Obligations.EveryOperationEnds : Prop :=
  ∀ s : State, s.Inv → s.busy = true →
    (∃ n ≤ s.npix + 2, ∃ t, engineSteps n s = .next t ∧ t.phase = .idle ∧ t.status.done = true) ∧
    ((∀ p : Pid, s.operation ≠ .ok p.instr) →
      ∃ t, engineSteps 1 s = .next t ∧ t.phase = .idle ∧ t.status.done = true)

/-! ## Frames and whole-machine rules -/

/-- R28, R225, R151, R170: what an operation that is not a BATCH leaves unchanged. With a fault: everything but STATUS
and ERR_INFO. Without: everything but STATUS and the registers its rule lists under "writes" (R0 to R2; WX to WVP for
WSET; none for NOP). It changes no byte. -/
def Obligations.NonBatchFrame : Prop :=
  ∀ (i : Instr) (s t : State), i.pid? = none → exec i s = .next t →
    t.phase = .idle ∧ t.status.done = true ∧ t.status.wlost = s.status.wlost ∧
    (t.status.err = true → t = { s with status := t.status, errInfo := t.errInfo, phase := .idle }) ∧
    (t.status.err = false → i ≠ .wset → i ≠ .nop →
      t = { s with status := t.status, r := t.r, nanDraws := t.nanDraws, phase := .idle }) ∧
    (t.status.err = false → i = .wset →
      t = { s with
        status := t.status, wx := t.wx, wy := t.wy, wz := t.wz, wup := t.wup, wvp := t.wvp, nanDraws := t.nanDraws
        phase := .idle }) ∧
    (t.status.err = false → i = .nop → t = { s with status := t.status, phase := .idle }) ∧
    ∀ y : Nat, t.byteAt y = s.byteAt y

/-- R28, R192, R193: what one step of a BATCH leaves unchanged: every register but STATUS, ERR_INFO and BATCH_IDX; and
every byte, but in the pixel step of a pixel k < npix its three channel bytes at start + 4k. -/
def Obligations.BatchFrame : Prop :=
  ∀ (p : Pid) (s t : State), exec p.instr s = .next t →
    t = { s with
      mem := t.mem, batchIdx := t.batchIdx, status := t.status, errInfo := t.errInfo, phase := t.phase } ∧
    t.status.wlost = s.status.wlost ∧
    (∀ k, s.phase = .walk k → k < s.npix → ∀ y : Nat,
      y ≠ s.bufAddr.toNat + s.bufOff.toNat + 4 * k → y ≠ s.bufAddr.toNat + s.bufOff.toNat + 4 * k + 1 →
      y ≠ s.bufAddr.toNat + s.bufOff.toNat + 4 * k + 2 → t.byteAt y = s.byteAt y) ∧
    ((∀ k, s.phase = .walk k → s.npix ≤ k) → ∀ y : Nat, t.byteAt y = s.byteAt y)

/-- R24, R27, R30, R31, R33: no engine step writes an operand, scale, buffer or control register or a parameter; and no
step at all writes a parameter. -/
def Obligations.EngineNeverWritesOperands : Prop :=
  (∀ s t : State, engineStep s = .next t →
    t.a = s.a ∧ t.inScale = s.inScale ∧ t.outScale = s.outScale ∧ t.bufAddr = s.bufAddr ∧ t.bufOff = s.bufOff ∧
    t.bufLen = s.bufLen ∧ t.irqEn = s.irqEn ∧ t.cmd = s.cmd ∧ t.cfg = s.cfg) ∧
  ∀ s t : State, step s = .next t → t.cfg = s.cfg

/-- R26, R28: ERR_INFO changes only in a step that ends an operation with a fault, and R0 to R2 only in one that ends an
operation other than a BATCH, NOP and WSET without a fault, the reset signal apart. -/
def Obligations.ResultsChangeOnlyAtTheEnd : Prop :=
  ∀ s t : State, step s = .next t → (∀ rest : List Turn, s.script ≠ .host .reset :: rest) →
    (t.errInfo ≠ s.errInfo → s.busy = true ∧ t.phase = .idle ∧ t.status.done = true ∧ t.status.err = true) ∧
    (t.r ≠ s.r → s.busy = true ∧ t.phase = .idle ∧ t.status.done = true ∧ t.status.err = false ∧
      ∃ i, s.operation = .ok i ∧ i.pid? = none ∧ i ≠ .nop ∧ i ≠ .wset)

/-- R20, R269: an operation that is not a BATCH is a function of the registers its rule lists, the parameters and the NaN
draws: two states that agree on these end alike, whatever their other registers, STATUS and memory hold. That a NaN's
pattern comes from a counted draw is the model's choice (assumption log 3). -/
def Obligations.OutcomeDependsOnOperandsOnly : Prop :=
  ∀ (i : Instr) (s s' t : State), i.pid? = none → s.cfg = s'.cfg → s.nanDraws = s'.nanDraws →
    (∀ g ∈ checkedRegs i, s.get g = s'.get g) → exec i s = .next t →
    ∃ t', exec i s' = .next t' ∧ t'.status.err = t.status.err ∧ t'.status.errCode = t.status.errCode ∧
      (t.status.err = true → t'.errInfo = t.errInfo) ∧
      (t.status.err = false → i ≠ .nop → i ≠ .wset → t'.r = t.r) ∧
      (t.status.err = false → i = .wset →
        t'.wx = t.wx ∧ t'.wy = t.wy ∧ t'.wz = t.wz ∧ t'.wup = t.wup ∧ t'.wvp = t.wvp)

/-! ## Invariants -/

/-- R23, R36, R250: the state after reset is legal. Its memory and parameters are the model's choice (assumption log 1, 2
and 4). -/
def Obligations.ResetIsLegal : Prop := State.reset.Inv

/-- R23, R32, R36, R50, R191, R220: every step, of the engine and of the host, keeps the state legal: STATUS is in one of
its legal states, no code above 6 is ever recorded, the memory keeps its canonical form and lists no byte past MEM_BYTES,
and a walk stays inside its checked range with BATCH_IDX its pixel. -/
def Obligations.EveryStepKeepsTheStateLegal : Prop :=
  ∀ s t : State, s.Inv → step s = .next t → t.Inv

/-- R191, R222: from a legal state the engine's step always answers a next state: every fault of the block is one it
records, and no pixel is outside the memory. -/
def Obligations.EngineNeverStops : Prop :=
  ∀ s : State, s.Inv → ∃ t, engineStep s = .next t
end

