-- ==== Sys2Proof/Laws/Binary32.lean ====
section
/-! SUPPORT. Binary32: the fields of a packed pattern, the bounds of a rounding, and when a result is finite. -/

namespace Sys2Proof.Machine

/-! Fields -/

theorem expField_eq (x : F32) : expField x = x.toNat / 2 ^ 23 % 2 ^ 8 := by
  simp [expField, BitVec.extractLsb'_toNat, Nat.shiftRight_eq_div_pow]

theorem fracField_eq (x : F32) : fracField x = x.toNat % 2 ^ 23 := by
  simp [fracField, BitVec.extractLsb'_toNat]

theorem signBit_eq (x : F32) : signBit x = decide (2 ^ 31 ≤ x.toNat) := by
  simp [signBit, BitVec.msb_eq_decide]

theorem fracField_lt (x : F32) : fracField x < 2 ^ 23 := by
  rw [fracField_eq]; exact Nat.mod_lt _ (by norm_num)

theorem expField_le (x : F32) : expField x ≤ 255 := by
  rw [expField_eq]; have := Nat.mod_lt (x.toNat / 2 ^ 23) (show 2 ^ 8 > 0 by norm_num); omega

theorem toNat_pack (sg : Bool) {p : Nat} (hp : p < 2 ^ 31) :
    (pack sg p).toNat = (if sg then 2 ^ 31 else 0) + p := by
  have : (if sg then 2 ^ 31 else 0) + p < 2 ^ 32 := by split <;> omega
  simp only [pack, BitVec.toNat_ofNat]
  exact Nat.mod_eq_of_lt this

theorem expField_pack (sg : Bool) {p : Nat} (hp : p < 2 ^ 31) : expField (pack sg p) = p / 2 ^ 23 := by
  rw [expField_eq, toNat_pack sg hp]
  cases sg <;> (simp; try omega)

theorem fracField_pack (sg : Bool) {p : Nat} (hp : p < 2 ^ 31) : fracField (pack sg p) = p % 2 ^ 23 := by
  rw [fracField_eq, toNat_pack sg hp]
  cases sg <;> (simp; try omega)

theorem signBit_pack (sg : Bool) {p : Nat} (hp : p < 2 ^ 31) : signBit (pack sg p) = sg := by
  rw [signBit_eq, toNat_pack sg hp]
  cases sg <;> (simp; try omega)

theorem isNaN_eq_false_of_isFinite {x : F32} (h : isFinite x = true) : isNaN x = false := by
  simp_all [isFinite, isNaN]

theorem isInf_eq_false_of_isFinite {x : F32} (h : isFinite x = true) : isInf x = false := by
  simp_all [isFinite, isInf]

theorem isFinite_of_not {x : F32} (hn : isNaN x = false) (hi : isInf x = false) : isFinite x = true := by
  by_cases h : expField x = 255 <;> simp_all [isFinite, isNaN, isInf]

theorem isFinite_pack (sg : Bool) {p : Nat} (hp : p < infPattern) : isFinite (pack sg p) = true := by
  unfold infPattern at hp
  have hp' : p < 2 ^ 31 := by omega
  simp only [isFinite, expField_pack sg hp', bne_iff_ne]
  omega

/-- A pattern at most that of infinity is not NaN. -/
theorem isNaN_pack (sg : Bool) {p : Nat} (hp : p ≤ infPattern) : isNaN (pack sg p) = false := by
  unfold infPattern at hp
  have hp' : p < 2 ^ 31 := by omega
  simp only [isNaN, expField_pack sg hp', fracField_pack sg hp', Bool.and_eq_false_iff, beq_eq_false_iff_ne,
    bne_eq_false_iff_eq]
  omega

/-- The largest finite magnitude is (2^24 − 1)·2^253 units. -/
theorem mag_le_of_isFinite {x : F32} (h : isFinite x = true) : mag x ≤ (2 ^ 24 - 1) * 2 ^ 253 := by
  have h1 := expField_le x
  have h2 := fracField_lt x
  have h3 : expField x ≠ 255 := by simpa [isFinite] using h
  unfold mag
  split
  · calc fracField x ≤ 2 ^ 23 := h2.le
      _ ≤ _ := by norm_num
  · exact Nat.mul_le_mul (by omega) (Nat.pow_le_pow_right (by norm_num) (by omega))

theorem mag_eq_zero_iff (x : F32) : mag x = 0 ↔ isZero x = true := by
  unfold mag isZero
  split <;> rename_i h <;> simp [h]

/-! Rounding -/

/-- A rounding is off by at most half, as two inequalities without a fraction. -/
theorem nearestEven_bounds (n : Nat) {d : Nat} (hd : 0 < d) :
    2 * n ≤ 2 * (nearestEven n d * d) + d ∧ 2 * (nearestEven n d * d) ≤ 2 * n + d := by
  have h := Nat.div_add_mod n d
  have hlt := Nat.mod_lt n hd
  have e : (n / d + 1) * d = d * (n / d) + d := by ring
  have e' : n / d * d = d * (n / d) := by ring
  unfold nearestEven
  split_ifs <;> (first | rw [e] | rw [e']) <;> constructor <;> omega

theorem nearestAway_bounds (n : Nat) {d : Nat} (hd : 0 < d) :
    2 * n < 2 * (nearestAway n d * d) + d ∧ 2 * (nearestAway n d * d) ≤ 2 * n + d := by
  have h := Nat.div_add_mod n d
  have hlt := Nat.mod_lt n hd
  have e : (n / d + 1) * d = d * (n / d) + d := by ring
  have e' : n / d * d = d * (n / d) := by ring
  unfold nearestAway
  split_ifs <;> (first | rw [e] | rw [e']) <;> constructor <;> omega

/-- An exact half goes to the even whole number. -/
theorem nearestEven_even_of_tie {n d : Nat} (h : 2 * (n % d) = d) : nearestEven n d % 2 = 0 := by
  unfold nearestEven
  split_ifs <;> omega

/-- A rounding lies between the whole numbers around the fraction. -/
theorem nearestEven_le_of_lt {n d b : Nat} (h : n < b * d) : nearestEven n d ≤ b := by
  have hd : 0 < d := by
    rcases Nat.eq_zero_or_pos d with h0 | h0
    · simp [h0] at h
    · exact h0
  have : n / d < b := (Nat.div_lt_iff_lt_mul hd).2 h
  unfold nearestEven
  split_ifs <;> omega

theorem le_nearestEven_of_le {n d b : Nat} (hd : 0 < d) (h : b * d ≤ n) : b ≤ nearestEven n d := by
  have : b ≤ n / d := (Nat.le_div_iff_mul_le hd).2 h
  unfold nearestEven
  split_ifs <;> omega

/-- The fraction is below 2^24 of the units it is rounded in. -/
theorem lt_excessBits (n : Nat) {d : Nat} (hd : 0 < d) : n < 2 ^ 24 * (d * 2 ^ excessBits n d) := by
  have h2 : n / d < 2 ^ ((n / d).log2 + 1) := Nat.lt_log2_self
  have h3 : n < d * 2 ^ ((n / d).log2 + 1) := by
    rw [Nat.mul_comm]; exact (Nat.div_lt_iff_lt_mul hd).1 h2
  have h4 : (n / d).log2 + 1 ≤ 24 + excessBits n d := by unfold excessBits; omega
  calc n < d * 2 ^ ((n / d).log2 + 1) := h3
    _ ≤ d * 2 ^ (24 + excessBits n d) := Nat.mul_le_mul_left _ (Nat.pow_le_pow_right (by norm_num) h4)
    _ = 2 ^ 24 * (d * 2 ^ excessBits n d) := by rw [pow_add]; ring

/-- Where low bits are rounded away, the fraction is at least 2^23 of the units it is rounded in. -/
theorem le_excessBits {n d : Nat} (hd : 0 < d) (h : excessBits n d ≠ 0) : 2 ^ 23 * (d * 2 ^ excessBits n d) ≤ n := by
  have h1 : (n / d).log2 = 23 + excessBits n d := by unfold excessBits at h ⊢; omega
  have h0 : n / d ≠ 0 := by intro h0; rw [h0, Nat.log2_zero] at h1; omega
  have h2 : 2 ^ (n / d).log2 ≤ n / d := Nat.log2_self_le h0
  rw [h1] at h2
  have h3 : 2 ^ (23 + excessBits n d) * d ≤ n := (Nat.le_div_iff_mul_le hd).1 h2
  calc 2 ^ 23 * (d * 2 ^ excessBits n d) = 2 ^ (23 + excessBits n d) * d := by rw [pow_add]; ring
    _ ≤ n := h3

/-- The significand a rounding gives, before it is put into the fields. -/
abbrev roundedSig (n d : Nat) : Nat := nearestEven n (d * 2 ^ excessBits n d)

theorem roundedSig_le (n : Nat) {d : Nat} (hd : 0 < d) : roundedSig n d ≤ 2 ^ 24 :=
  nearestEven_le_of_lt (lt_excessBits n hd)

theorem le_roundedSig {n d : Nat} (hd : 0 < d) (h : excessBits n d ≠ 0) : 2 ^ 23 ≤ roundedSig n d :=
  le_nearestEven_of_le (Nat.mul_pos hd (by positivity)) (le_excessBits hd h)

theorem roundMag_le (n d : Nat) : roundMag n d ≤ infPattern := min_le_left _ _

theorem roundMag_eq_of_lt {n d : Nat} (h : roundMag n d < infPattern) :
    roundMag n d = 2 ^ 23 * excessBits n d + roundedSig n d := by
  have e : roundMag n d = min infPattern (2 ^ 23 * excessBits n d + roundedSig n d) := rfl
  omega

/-- A result that stays below infinity has exactly the magnitude its significand says: the carry into the exponent
field is right. -/
theorem mag_pack_roundMag (sg : Bool) {n d : Nat} (hd : 0 < d) (h : roundMag n d < infPattern) :
    mag (pack sg (roundMag n d)) = roundedSig n d * 2 ^ excessBits n d := by
  have hp : roundMag n d < 2 ^ 31 := by unfold infPattern at h; omega
  have hq := roundedSig_le n hd
  have hq' := @le_roundedSig n d hd
  have e := roundMag_eq_of_lt h
  unfold mag
  rw [expField_pack sg hp, fracField_pack sg hp, e]
  generalize excessBits n d = t at *
  generalize roundedSig n d = q at *
  by_cases ht : t = 0
  · subst ht
    simp only [Nat.mul_zero, Nat.zero_add, pow_zero, Nat.mul_one]
    by_cases hq2 : q < 2 ^ 23
    · rw [if_pos (Nat.div_eq_of_lt hq2), Nat.mod_eq_of_lt hq2]
    · rw [if_neg (by omega)]
      by_cases hq3 : q = 2 ^ 24
      · subst hq3; norm_num
      · have e1 : q / 2 ^ 23 = 1 := by omega
        have e2 : q % 2 ^ 23 = q - 2 ^ 23 := by omega
        rw [e1, e2]
        simp only [Nat.sub_self, pow_zero, Nat.mul_one]; omega
  · have h23 := hq' ht
    rw [if_neg (by omega)]
    by_cases hq3 : q = 2 ^ 24
    · have e1 : (2 ^ 23 * t + q) / 2 ^ 23 = t + 2 := by omega
      have e2 : (2 ^ 23 * t + q) % 2 ^ 23 = 0 := by omega
      rw [e1, e2, hq3, Nat.add_zero, show t + 2 - 1 = t + 1 by omega, pow_succ]; ring
    · have e1 : (2 ^ 23 * t + q) / 2 ^ 23 = t + 1 := by omega
      have e2 : (2 ^ 23 * t + q) % 2 ^ 23 = q - 2 ^ 23 := by omega
      rw [e1, e2, show 2 ^ 23 + (q - 2 ^ 23) = q by omega, Nat.add_sub_cancel]

/-- A magnitude below the largest finite one and half its last place, (2^25 − 1)·2^252 units, rounds to a finite
number. -/
theorem roundMag_lt_of_lt {n d : Nat} (hd : 0 < d) (h : n < (2 ^ 25 - 1) * (2 ^ 252 * d)) :
    roundMag n d < infPattern := by
  have hq := roundedSig_le n hd
  have ht : excessBits n d ≤ 253 := by
    by_contra hc
    have h1 := le_excessBits (n := n) hd (by omega)
    have h2 : 2 ^ 254 ≤ 2 ^ excessBits n d := Nat.pow_le_pow_right (by norm_num) (by omega)
    have h3 : 2 ^ 23 * (d * 2 ^ 254) ≤ n :=
      le_trans (Nat.mul_le_mul_left _ (Nat.mul_le_mul_left _ h2)) h1
    have h4 : 2 ^ 23 * (d * 2 ^ 254) = 2 ^ 25 * (2 ^ 252 * d) := by
      rw [show (2 : Nat) ^ 254 = 4 * 2 ^ 252 by norm_num]; ring
    generalize 2 ^ 252 * d = c at *
    omega
  have e : roundMag n d = min infPattern (2 ^ 23 * excessBits n d + roundedSig n d) := rfl
  have h253 : excessBits n d = 253 → roundedSig n d < 2 ^ 24 := by
    intro h253
    by_contra hc
    have h2 : roundedSig n d = 2 ^ 24 := by omega
    have h1 := (nearestEven_bounds n (Nat.mul_pos hd (show 0 < 2 ^ excessBits n d by positivity))).2
    have h3 : nearestEven n (d * 2 ^ excessBits n d) = 2 ^ 24 := h2
    rw [h3, h253, show (2 : Nat) ^ 253 = 2 * 2 ^ 252 by norm_num,
      show d * (2 * 2 ^ 252) = 2 * (2 ^ 252 * d) by ring] at h1
    generalize 2 ^ 252 * d = c at *
    omega
  have hi : infPattern = 255 * 2 ^ 23 := by decide
  by_cases h253' : excessBits n d = 253
  · have := h253 h253'; omega
  · omega

/-- One unit or more rounds to something positive. -/
theorem roundedSig_pos {n d : Nat} (hd : 0 < d) (h : d ≤ n) : 0 < roundedSig n d := by
  by_cases ht : excessBits n d = 0
  · have : 1 ≤ nearestEven n (d * 2 ^ excessBits n d) := by
      rw [ht]; exact le_nearestEven_of_le (by simpa using hd) (by simpa using h)
    exact this
  · exact lt_of_lt_of_le (by norm_num) (le_roundedSig hd ht)

/-! When an operation gives a finite number -/

theorem mag_pos_of_units_pos {x : F32} (h : 0 < units x) : signBit x = false ∧ 0 < mag x := by
  unfold units at h
  cases hs : signBit x <;> simp only [hs, if_true, if_false, Bool.false_eq_true] at h <;> simp <;> omega

theorem units_eq_mag {x : F32} (h : signBit x = false) : units x = (mag x : Int) := by simp [units, h]

/-- The sum of two numbers whose sum is a positive whole number of units in range is that sum, rounded. -/
theorem fadd_of_pos {x y : F32} (hx : isFinite x = true) (hy : isFinite y = true) (hp : 0 < units x + units y) :
    fadd x y = pack false (roundMag (units x + units y).natAbs 1) := by
  unfold fadd faddFinite
  rw [isNaN_eq_false_of_isFinite hx, isNaN_eq_false_of_isFinite hy, isInf_eq_false_of_isFinite hx,
    isInf_eq_false_of_isFinite hy]
  simp only [Bool.or_self, Bool.false_eq_true, if_false]
  rw [if_neg (by omega), decide_eq_false (by omega)]

/-- A quotient of two finite numbers with a divisor that is not zero. -/
theorem fdiv_of_finite {x y : F32} (hx : isFinite x = true) (hy : isFinite y = true) (h0 : isZero y = false) :
    fdiv x y = pack (signBit x != signBit y) (roundMag (unitsPerOne * mag x) (mag y)) := by
  unfold fdiv
  simp [isNaN_eq_false_of_isFinite hx, isNaN_eq_false_of_isFinite hy, isInf_eq_false_of_isFinite hx,
    isInf_eq_false_of_isFinite hy, h0]

/-- A product of two finite numbers is never NaN (R181). -/
theorem fmul_of_finite {x y : F32} (hx : isFinite x = true) (hy : isFinite y = true) :
    fmul x y = pack (signBit x != signBit y) (roundMag (mag x * mag y) unitsPerOne) := by
  unfold fmul
  simp [isNaN_eq_false_of_isFinite hx, isNaN_eq_false_of_isFinite hy, isInf_eq_false_of_isFinite hx,
    isInf_eq_false_of_isFinite hy]

theorem isNaN_fmul_of_finite {x y : F32} (hx : isFinite x = true) (hy : isFinite y = true) :
    isNaN (fmul x y) = false := by
  rw [fmul_of_finite hx hy]; exact isNaN_pack _ (roundMag_le _ _)

end Sys2Proof.Machine
end

