-- ==== Sys2Proof/Laws/State.lean ====
section
/-! SUPPORT. What each update of the state leaves in each field, so that no proof unfolds a record update. -/

namespace Sys2Proof.Machine

variable (s : State)

/-! `raise` -/

@[simp] theorem raise_cmd (f : OpFault) : (s.raise f).cmd = s.cmd := rfl
@[simp] theorem raise_status (f : OpFault) : (s.raise f).status = { s.status with done := true, err := true, errCode := faultByte f.code } := rfl
@[simp] theorem raise_irqEn (f : OpFault) : (s.raise f).irqEn = s.irqEn := rfl
@[simp] theorem raise_errInfo (f : OpFault) : (s.raise f).errInfo = BitVec.ofNat 32 f.info := rfl
@[simp] theorem raise_a (f : OpFault) : (s.raise f).a = s.a := rfl
@[simp] theorem raise_r (f : OpFault) : (s.raise f).r = s.r := rfl
@[simp] theorem raise_wx (f : OpFault) : (s.raise f).wx = s.wx := rfl
@[simp] theorem raise_wy (f : OpFault) : (s.raise f).wy = s.wy := rfl
@[simp] theorem raise_wz (f : OpFault) : (s.raise f).wz = s.wz := rfl
@[simp] theorem raise_wup (f : OpFault) : (s.raise f).wup = s.wup := rfl
@[simp] theorem raise_wvp (f : OpFault) : (s.raise f).wvp = s.wvp := rfl
@[simp] theorem raise_inScale (f : OpFault) : (s.raise f).inScale = s.inScale := rfl
@[simp] theorem raise_outScale (f : OpFault) : (s.raise f).outScale = s.outScale := rfl
@[simp] theorem raise_bufAddr (f : OpFault) : (s.raise f).bufAddr = s.bufAddr := rfl
@[simp] theorem raise_bufOff (f : OpFault) : (s.raise f).bufOff = s.bufOff := rfl
@[simp] theorem raise_bufLen (f : OpFault) : (s.raise f).bufLen = s.bufLen := rfl
@[simp] theorem raise_batchIdx (f : OpFault) : (s.raise f).batchIdx = s.batchIdx := rfl
@[simp] theorem raise_phase (f : OpFault) : (s.raise f).phase = .idle := rfl
@[simp] theorem raise_mem (f : OpFault) : (s.raise f).mem = s.mem := rfl
@[simp] theorem raise_cfg (f : OpFault) : (s.raise f).cfg = s.cfg := rfl
@[simp] theorem raise_nanDraws (f : OpFault) : (s.raise f).nanDraws = s.nanDraws := rfl
@[simp] theorem raise_script (f : OpFault) : (s.raise f).script = s.script := rfl
@[simp] theorem raise_replies (f : OpFault) : (s.raise f).replies = s.replies := rfl
@[simp] theorem raise_handed (f : OpFault) : (s.raise f).handed = s.handed := rfl

/-! `complete` -/

@[simp] theorem complete_cmd : (s.complete).cmd = s.cmd := rfl
@[simp] theorem complete_status : (s.complete).status = { s.status with done := true, err := false, errCode := 0x00#8 } := rfl
@[simp] theorem complete_irqEn : (s.complete).irqEn = s.irqEn := rfl
@[simp] theorem complete_errInfo : (s.complete).errInfo = s.errInfo := rfl
@[simp] theorem complete_a : (s.complete).a = s.a := rfl
@[simp] theorem complete_r : (s.complete).r = s.r := rfl
@[simp] theorem complete_wx : (s.complete).wx = s.wx := rfl
@[simp] theorem complete_wy : (s.complete).wy = s.wy := rfl
@[simp] theorem complete_wz : (s.complete).wz = s.wz := rfl
@[simp] theorem complete_wup : (s.complete).wup = s.wup := rfl
@[simp] theorem complete_wvp : (s.complete).wvp = s.wvp := rfl
@[simp] theorem complete_inScale : (s.complete).inScale = s.inScale := rfl
@[simp] theorem complete_outScale : (s.complete).outScale = s.outScale := rfl
@[simp] theorem complete_bufAddr : (s.complete).bufAddr = s.bufAddr := rfl
@[simp] theorem complete_bufOff : (s.complete).bufOff = s.bufOff := rfl
@[simp] theorem complete_bufLen : (s.complete).bufLen = s.bufLen := rfl
@[simp] theorem complete_batchIdx : (s.complete).batchIdx = s.batchIdx := rfl
@[simp] theorem complete_phase : (s.complete).phase = .idle := rfl
@[simp] theorem complete_mem : (s.complete).mem = s.mem := rfl
@[simp] theorem complete_cfg : (s.complete).cfg = s.cfg := rfl
@[simp] theorem complete_nanDraws : (s.complete).nanDraws = s.nanDraws := rfl
@[simp] theorem complete_script : (s.complete).script = s.script := rfl
@[simp] theorem complete_replies : (s.complete).replies = s.replies := rfl
@[simp] theorem complete_handed : (s.complete).handed = s.handed := rfl

/-! `startCommand` -/

@[simp] theorem startCommand_cmd (w : Word) : (s.startCommand w).cmd = w := rfl
@[simp] theorem startCommand_status (w : Word) : (s.startCommand w).status = { s.status with done := false, err := false, errCode := 0x00#8 } := rfl
@[simp] theorem startCommand_irqEn (w : Word) : (s.startCommand w).irqEn = s.irqEn := rfl
@[simp] theorem startCommand_errInfo (w : Word) : (s.startCommand w).errInfo = s.errInfo := rfl
@[simp] theorem startCommand_a (w : Word) : (s.startCommand w).a = s.a := rfl
@[simp] theorem startCommand_r (w : Word) : (s.startCommand w).r = s.r := rfl
@[simp] theorem startCommand_wx (w : Word) : (s.startCommand w).wx = s.wx := rfl
@[simp] theorem startCommand_wy (w : Word) : (s.startCommand w).wy = s.wy := rfl
@[simp] theorem startCommand_wz (w : Word) : (s.startCommand w).wz = s.wz := rfl
@[simp] theorem startCommand_wup (w : Word) : (s.startCommand w).wup = s.wup := rfl
@[simp] theorem startCommand_wvp (w : Word) : (s.startCommand w).wvp = s.wvp := rfl
@[simp] theorem startCommand_inScale (w : Word) : (s.startCommand w).inScale = s.inScale := rfl
@[simp] theorem startCommand_outScale (w : Word) : (s.startCommand w).outScale = s.outScale := rfl
@[simp] theorem startCommand_bufAddr (w : Word) : (s.startCommand w).bufAddr = s.bufAddr := rfl
@[simp] theorem startCommand_bufOff (w : Word) : (s.startCommand w).bufOff = s.bufOff := rfl
@[simp] theorem startCommand_bufLen (w : Word) : (s.startCommand w).bufLen = s.bufLen := rfl
@[simp] theorem startCommand_batchIdx (w : Word) : (s.startCommand w).batchIdx = s.batchIdx := rfl
@[simp] theorem startCommand_phase (w : Word) : (s.startCommand w).phase = .run := rfl
@[simp] theorem startCommand_mem (w : Word) : (s.startCommand w).mem = s.mem := rfl
@[simp] theorem startCommand_cfg (w : Word) : (s.startCommand w).cfg = s.cfg := rfl
@[simp] theorem startCommand_nanDraws (w : Word) : (s.startCommand w).nanDraws = s.nanDraws := rfl
@[simp] theorem startCommand_script (w : Word) : (s.startCommand w).script = s.script := rfl
@[simp] theorem startCommand_replies (w : Word) : (s.startCommand w).replies = s.replies := rfl
@[simp] theorem startCommand_handed (w : Word) : (s.startCommand w).handed = s.handOver w := rfl

/-! `writeResult` -/

@[simp] theorem writeResult_cmd (t : Triple F32) : (s.writeResult t).cmd = s.cmd := rfl
@[simp] theorem writeResult_status (t : Triple F32) : (s.writeResult t).status = s.status := rfl
@[simp] theorem writeResult_irqEn (t : Triple F32) : (s.writeResult t).irqEn = s.irqEn := rfl
@[simp] theorem writeResult_errInfo (t : Triple F32) : (s.writeResult t).errInfo = s.errInfo := rfl
@[simp] theorem writeResult_a (t : Triple F32) : (s.writeResult t).a = s.a := rfl
@[simp] theorem writeResult_wx (t : Triple F32) : (s.writeResult t).wx = s.wx := rfl
@[simp] theorem writeResult_wy (t : Triple F32) : (s.writeResult t).wy = s.wy := rfl
@[simp] theorem writeResult_wz (t : Triple F32) : (s.writeResult t).wz = s.wz := rfl
@[simp] theorem writeResult_wup (t : Triple F32) : (s.writeResult t).wup = s.wup := rfl
@[simp] theorem writeResult_wvp (t : Triple F32) : (s.writeResult t).wvp = s.wvp := rfl
@[simp] theorem writeResult_inScale (t : Triple F32) : (s.writeResult t).inScale = s.inScale := rfl
@[simp] theorem writeResult_outScale (t : Triple F32) : (s.writeResult t).outScale = s.outScale := rfl
@[simp] theorem writeResult_bufAddr (t : Triple F32) : (s.writeResult t).bufAddr = s.bufAddr := rfl
@[simp] theorem writeResult_bufOff (t : Triple F32) : (s.writeResult t).bufOff = s.bufOff := rfl
@[simp] theorem writeResult_bufLen (t : Triple F32) : (s.writeResult t).bufLen = s.bufLen := rfl
@[simp] theorem writeResult_batchIdx (t : Triple F32) : (s.writeResult t).batchIdx = s.batchIdx := rfl
@[simp] theorem writeResult_phase (t : Triple F32) : (s.writeResult t).phase = s.phase := rfl
@[simp] theorem writeResult_mem (t : Triple F32) : (s.writeResult t).mem = s.mem := rfl
@[simp] theorem writeResult_cfg (t : Triple F32) : (s.writeResult t).cfg = s.cfg := rfl
@[simp] theorem writeResult_script (t : Triple F32) : (s.writeResult t).script = s.script := rfl
@[simp] theorem writeResult_replies (t : Triple F32) : (s.writeResult t).replies = s.replies := rfl
@[simp] theorem writeResult_handed (t : Triple F32) : (s.writeResult t).handed = s.handed := rfl

/-! `writeWhite` -/

@[simp] theorem writeWhite_cmd (w : Triple F32) (up vp : F32) : (s.writeWhite w up vp).cmd = s.cmd := rfl
@[simp] theorem writeWhite_status (w : Triple F32) (up vp : F32) : (s.writeWhite w up vp).status = s.status := rfl
@[simp] theorem writeWhite_irqEn (w : Triple F32) (up vp : F32) : (s.writeWhite w up vp).irqEn = s.irqEn := rfl
@[simp] theorem writeWhite_errInfo (w : Triple F32) (up vp : F32) : (s.writeWhite w up vp).errInfo = s.errInfo := rfl
@[simp] theorem writeWhite_a (w : Triple F32) (up vp : F32) : (s.writeWhite w up vp).a = s.a := rfl
@[simp] theorem writeWhite_r (w : Triple F32) (up vp : F32) : (s.writeWhite w up vp).r = s.r := rfl
@[simp] theorem writeWhite_wx (w : Triple F32) (up vp : F32) : (s.writeWhite w up vp).wx = settleWord s.nanDraws w.c0 := rfl
@[simp] theorem writeWhite_inScale (w : Triple F32) (up vp : F32) : (s.writeWhite w up vp).inScale = s.inScale := rfl
@[simp] theorem writeWhite_outScale (w : Triple F32) (up vp : F32) : (s.writeWhite w up vp).outScale = s.outScale := rfl
@[simp] theorem writeWhite_bufAddr (w : Triple F32) (up vp : F32) : (s.writeWhite w up vp).bufAddr = s.bufAddr := rfl
@[simp] theorem writeWhite_bufOff (w : Triple F32) (up vp : F32) : (s.writeWhite w up vp).bufOff = s.bufOff := rfl
@[simp] theorem writeWhite_bufLen (w : Triple F32) (up vp : F32) : (s.writeWhite w up vp).bufLen = s.bufLen := rfl
@[simp] theorem writeWhite_batchIdx (w : Triple F32) (up vp : F32) : (s.writeWhite w up vp).batchIdx = s.batchIdx := rfl
@[simp] theorem writeWhite_phase (w : Triple F32) (up vp : F32) : (s.writeWhite w up vp).phase = s.phase := rfl
@[simp] theorem writeWhite_mem (w : Triple F32) (up vp : F32) : (s.writeWhite w up vp).mem = s.mem := rfl
@[simp] theorem writeWhite_cfg (w : Triple F32) (up vp : F32) : (s.writeWhite w up vp).cfg = s.cfg := rfl
@[simp] theorem writeWhite_script (w : Triple F32) (up vp : F32) : (s.writeWhite w up vp).script = s.script := rfl
@[simp] theorem writeWhite_replies (w : Triple F32) (up vp : F32) : (s.writeWhite w up vp).replies = s.replies := rfl
@[simp] theorem writeWhite_handed (w : Triple F32) (up vp : F32) : (s.writeWhite w up vp).handed = s.handed := rfl

/-! `writeBytes` -/

@[simp] theorem writeBytes_cmd (q : Triple Byte) : (s.writeBytes q).cmd = s.cmd := rfl
@[simp] theorem writeBytes_status (q : Triple Byte) : (s.writeBytes q).status = s.status := rfl
@[simp] theorem writeBytes_irqEn (q : Triple Byte) : (s.writeBytes q).irqEn = s.irqEn := rfl
@[simp] theorem writeBytes_errInfo (q : Triple Byte) : (s.writeBytes q).errInfo = s.errInfo := rfl
@[simp] theorem writeBytes_a (q : Triple Byte) : (s.writeBytes q).a = s.a := rfl
@[simp] theorem writeBytes_r (q : Triple Byte) : (s.writeBytes q).r = ⟨byteWord q.c0, byteWord q.c1, byteWord q.c2⟩ := rfl
@[simp] theorem writeBytes_wx (q : Triple Byte) : (s.writeBytes q).wx = s.wx := rfl
@[simp] theorem writeBytes_wy (q : Triple Byte) : (s.writeBytes q).wy = s.wy := rfl
@[simp] theorem writeBytes_wz (q : Triple Byte) : (s.writeBytes q).wz = s.wz := rfl
@[simp] theorem writeBytes_wup (q : Triple Byte) : (s.writeBytes q).wup = s.wup := rfl
@[simp] theorem writeBytes_wvp (q : Triple Byte) : (s.writeBytes q).wvp = s.wvp := rfl
@[simp] theorem writeBytes_inScale (q : Triple Byte) : (s.writeBytes q).inScale = s.inScale := rfl
@[simp] theorem writeBytes_outScale (q : Triple Byte) : (s.writeBytes q).outScale = s.outScale := rfl
@[simp] theorem writeBytes_bufAddr (q : Triple Byte) : (s.writeBytes q).bufAddr = s.bufAddr := rfl
@[simp] theorem writeBytes_bufOff (q : Triple Byte) : (s.writeBytes q).bufOff = s.bufOff := rfl
@[simp] theorem writeBytes_bufLen (q : Triple Byte) : (s.writeBytes q).bufLen = s.bufLen := rfl
@[simp] theorem writeBytes_batchIdx (q : Triple Byte) : (s.writeBytes q).batchIdx = s.batchIdx := rfl
@[simp] theorem writeBytes_phase (q : Triple Byte) : (s.writeBytes q).phase = s.phase := rfl
@[simp] theorem writeBytes_mem (q : Triple Byte) : (s.writeBytes q).mem = s.mem := rfl
@[simp] theorem writeBytes_cfg (q : Triple Byte) : (s.writeBytes q).cfg = s.cfg := rfl
@[simp] theorem writeBytes_nanDraws (q : Triple Byte) : (s.writeBytes q).nanDraws = s.nanDraws := rfl
@[simp] theorem writeBytes_script (q : Triple Byte) : (s.writeBytes q).script = s.script := rfl
@[simp] theorem writeBytes_replies (q : Triple Byte) : (s.writeBytes q).replies = s.replies := rfl
@[simp] theorem writeBytes_handed (q : Triple Byte) : (s.writeBytes q).handed = s.handed := rfl

/-! `memWrite` -/

@[simp] theorem memWrite_cmd (x : Nat) (v : Byte) : (memWrite s x v).cmd = s.cmd := rfl
@[simp] theorem memWrite_status (x : Nat) (v : Byte) : (memWrite s x v).status = s.status := rfl
@[simp] theorem memWrite_irqEn (x : Nat) (v : Byte) : (memWrite s x v).irqEn = s.irqEn := rfl
@[simp] theorem memWrite_errInfo (x : Nat) (v : Byte) : (memWrite s x v).errInfo = s.errInfo := rfl
@[simp] theorem memWrite_a (x : Nat) (v : Byte) : (memWrite s x v).a = s.a := rfl
@[simp] theorem memWrite_r (x : Nat) (v : Byte) : (memWrite s x v).r = s.r := rfl
@[simp] theorem memWrite_wx (x : Nat) (v : Byte) : (memWrite s x v).wx = s.wx := rfl
@[simp] theorem memWrite_wy (x : Nat) (v : Byte) : (memWrite s x v).wy = s.wy := rfl
@[simp] theorem memWrite_wz (x : Nat) (v : Byte) : (memWrite s x v).wz = s.wz := rfl
@[simp] theorem memWrite_wup (x : Nat) (v : Byte) : (memWrite s x v).wup = s.wup := rfl
@[simp] theorem memWrite_wvp (x : Nat) (v : Byte) : (memWrite s x v).wvp = s.wvp := rfl
@[simp] theorem memWrite_inScale (x : Nat) (v : Byte) : (memWrite s x v).inScale = s.inScale := rfl
@[simp] theorem memWrite_outScale (x : Nat) (v : Byte) : (memWrite s x v).outScale = s.outScale := rfl
@[simp] theorem memWrite_bufAddr (x : Nat) (v : Byte) : (memWrite s x v).bufAddr = s.bufAddr := rfl
@[simp] theorem memWrite_bufOff (x : Nat) (v : Byte) : (memWrite s x v).bufOff = s.bufOff := rfl
@[simp] theorem memWrite_bufLen (x : Nat) (v : Byte) : (memWrite s x v).bufLen = s.bufLen := rfl
@[simp] theorem memWrite_batchIdx (x : Nat) (v : Byte) : (memWrite s x v).batchIdx = s.batchIdx := rfl
@[simp] theorem memWrite_phase (x : Nat) (v : Byte) : (memWrite s x v).phase = s.phase := rfl
@[simp] theorem memWrite_mem (x : Nat) (v : Byte) : (memWrite s x v).mem = memSet s.mem x v := rfl
@[simp] theorem memWrite_cfg (x : Nat) (v : Byte) : (memWrite s x v).cfg = s.cfg := rfl
@[simp] theorem memWrite_nanDraws (x : Nat) (v : Byte) : (memWrite s x v).nanDraws = s.nanDraws := rfl
@[simp] theorem memWrite_script (x : Nat) (v : Byte) : (memWrite s x v).script = s.script := rfl
@[simp] theorem memWrite_replies (x : Nat) (v : Byte) : (memWrite s x v).replies = s.replies := rfl
@[simp] theorem memWrite_handed (x : Nat) (v : Byte) : (memWrite s x v).handed = s.handed := rfl

/-! `writePixel` -/

@[simp] theorem writePixel_cmd (x : Nat) (q : Triple Byte) : (writePixel s x q).cmd = s.cmd := rfl
@[simp] theorem writePixel_status (x : Nat) (q : Triple Byte) : (writePixel s x q).status = s.status := rfl
@[simp] theorem writePixel_irqEn (x : Nat) (q : Triple Byte) : (writePixel s x q).irqEn = s.irqEn := rfl
@[simp] theorem writePixel_errInfo (x : Nat) (q : Triple Byte) : (writePixel s x q).errInfo = s.errInfo := rfl
@[simp] theorem writePixel_a (x : Nat) (q : Triple Byte) : (writePixel s x q).a = s.a := rfl
@[simp] theorem writePixel_r (x : Nat) (q : Triple Byte) : (writePixel s x q).r = s.r := rfl
@[simp] theorem writePixel_wx (x : Nat) (q : Triple Byte) : (writePixel s x q).wx = s.wx := rfl
@[simp] theorem writePixel_wy (x : Nat) (q : Triple Byte) : (writePixel s x q).wy = s.wy := rfl
@[simp] theorem writePixel_wz (x : Nat) (q : Triple Byte) : (writePixel s x q).wz = s.wz := rfl
@[simp] theorem writePixel_wup (x : Nat) (q : Triple Byte) : (writePixel s x q).wup = s.wup := rfl
@[simp] theorem writePixel_wvp (x : Nat) (q : Triple Byte) : (writePixel s x q).wvp = s.wvp := rfl
@[simp] theorem writePixel_inScale (x : Nat) (q : Triple Byte) : (writePixel s x q).inScale = s.inScale := rfl
@[simp] theorem writePixel_outScale (x : Nat) (q : Triple Byte) : (writePixel s x q).outScale = s.outScale := rfl
@[simp] theorem writePixel_bufAddr (x : Nat) (q : Triple Byte) : (writePixel s x q).bufAddr = s.bufAddr := rfl
@[simp] theorem writePixel_bufOff (x : Nat) (q : Triple Byte) : (writePixel s x q).bufOff = s.bufOff := rfl
@[simp] theorem writePixel_bufLen (x : Nat) (q : Triple Byte) : (writePixel s x q).bufLen = s.bufLen := rfl
@[simp] theorem writePixel_batchIdx (x : Nat) (q : Triple Byte) : (writePixel s x q).batchIdx = s.batchIdx := rfl
@[simp] theorem writePixel_phase (x : Nat) (q : Triple Byte) : (writePixel s x q).phase = s.phase := rfl
@[simp] theorem writePixel_mem (x : Nat) (q : Triple Byte) : (writePixel s x q).mem = memSet (memSet (memSet s.mem x q.c0) (x + 1) q.c1) (x + 2) q.c2 := rfl
@[simp] theorem writePixel_cfg (x : Nat) (q : Triple Byte) : (writePixel s x q).cfg = s.cfg := rfl
@[simp] theorem writePixel_nanDraws (x : Nat) (q : Triple Byte) : (writePixel s x q).nanDraws = s.nanDraws := rfl
@[simp] theorem writePixel_script (x : Nat) (q : Triple Byte) : (writePixel s x q).script = s.script := rfl
@[simp] theorem writePixel_replies (x : Nat) (q : Triple Byte) : (writePixel s x q).replies = s.replies := rfl
@[simp] theorem writePixel_handed (x : Nat) (q : Triple Byte) : (writePixel s x q).handed = s.handed := rfl

/-! `advanceTo` -/

@[simp] theorem advanceTo_cmd (k : Nat) : (s.advanceTo k).cmd = s.cmd := rfl
@[simp] theorem advanceTo_status (k : Nat) : (s.advanceTo k).status = s.status := rfl
@[simp] theorem advanceTo_irqEn (k : Nat) : (s.advanceTo k).irqEn = s.irqEn := rfl
@[simp] theorem advanceTo_errInfo (k : Nat) : (s.advanceTo k).errInfo = s.errInfo := rfl
@[simp] theorem advanceTo_a (k : Nat) : (s.advanceTo k).a = s.a := rfl
@[simp] theorem advanceTo_r (k : Nat) : (s.advanceTo k).r = s.r := rfl
@[simp] theorem advanceTo_wx (k : Nat) : (s.advanceTo k).wx = s.wx := rfl
@[simp] theorem advanceTo_wy (k : Nat) : (s.advanceTo k).wy = s.wy := rfl
@[simp] theorem advanceTo_wz (k : Nat) : (s.advanceTo k).wz = s.wz := rfl
@[simp] theorem advanceTo_wup (k : Nat) : (s.advanceTo k).wup = s.wup := rfl
@[simp] theorem advanceTo_wvp (k : Nat) : (s.advanceTo k).wvp = s.wvp := rfl
@[simp] theorem advanceTo_inScale (k : Nat) : (s.advanceTo k).inScale = s.inScale := rfl
@[simp] theorem advanceTo_outScale (k : Nat) : (s.advanceTo k).outScale = s.outScale := rfl
@[simp] theorem advanceTo_bufAddr (k : Nat) : (s.advanceTo k).bufAddr = s.bufAddr := rfl
@[simp] theorem advanceTo_bufOff (k : Nat) : (s.advanceTo k).bufOff = s.bufOff := rfl
@[simp] theorem advanceTo_bufLen (k : Nat) : (s.advanceTo k).bufLen = s.bufLen := rfl
@[simp] theorem advanceTo_batchIdx (k : Nat) : (s.advanceTo k).batchIdx = BitVec.ofNat 32 k := rfl
@[simp] theorem advanceTo_phase (k : Nat) : (s.advanceTo k).phase = .walk k := rfl
@[simp] theorem advanceTo_mem (k : Nat) : (s.advanceTo k).mem = s.mem := rfl
@[simp] theorem advanceTo_cfg (k : Nat) : (s.advanceTo k).cfg = s.cfg := rfl
@[simp] theorem advanceTo_nanDraws (k : Nat) : (s.advanceTo k).nanDraws = s.nanDraws := rfl
@[simp] theorem advanceTo_script (k : Nat) : (s.advanceTo k).script = s.script := rfl
@[simp] theorem advanceTo_replies (k : Nat) : (s.advanceTo k).replies = s.replies := rfl
@[simp] theorem advanceTo_handed (k : Nat) : (s.advanceTo k).handed = s.handed := rfl

/-! `answer` -/

@[simp] theorem answer_cmd (y : Reply) : (s.answer y).cmd = s.cmd := rfl
@[simp] theorem answer_status (y : Reply) : (s.answer y).status = s.status := rfl
@[simp] theorem answer_irqEn (y : Reply) : (s.answer y).irqEn = s.irqEn := rfl
@[simp] theorem answer_errInfo (y : Reply) : (s.answer y).errInfo = s.errInfo := rfl
@[simp] theorem answer_a (y : Reply) : (s.answer y).a = s.a := rfl
@[simp] theorem answer_r (y : Reply) : (s.answer y).r = s.r := rfl
@[simp] theorem answer_wx (y : Reply) : (s.answer y).wx = s.wx := rfl
@[simp] theorem answer_wy (y : Reply) : (s.answer y).wy = s.wy := rfl
@[simp] theorem answer_wz (y : Reply) : (s.answer y).wz = s.wz := rfl
@[simp] theorem answer_wup (y : Reply) : (s.answer y).wup = s.wup := rfl
@[simp] theorem answer_wvp (y : Reply) : (s.answer y).wvp = s.wvp := rfl
@[simp] theorem answer_inScale (y : Reply) : (s.answer y).inScale = s.inScale := rfl
@[simp] theorem answer_outScale (y : Reply) : (s.answer y).outScale = s.outScale := rfl
@[simp] theorem answer_bufAddr (y : Reply) : (s.answer y).bufAddr = s.bufAddr := rfl
@[simp] theorem answer_bufOff (y : Reply) : (s.answer y).bufOff = s.bufOff := rfl
@[simp] theorem answer_bufLen (y : Reply) : (s.answer y).bufLen = s.bufLen := rfl
@[simp] theorem answer_batchIdx (y : Reply) : (s.answer y).batchIdx = s.batchIdx := rfl
@[simp] theorem answer_phase (y : Reply) : (s.answer y).phase = s.phase := rfl
@[simp] theorem answer_mem (y : Reply) : (s.answer y).mem = s.mem := rfl
@[simp] theorem answer_cfg (y : Reply) : (s.answer y).cfg = s.cfg := rfl
@[simp] theorem answer_nanDraws (y : Reply) : (s.answer y).nanDraws = s.nanDraws := rfl
@[simp] theorem answer_script (y : Reply) : (s.answer y).script = s.script := rfl
@[simp] theorem answer_replies (y : Reply) : (s.answer y).replies = y :: s.replies := rfl
@[simp] theorem answer_handed (y : Reply) : (s.answer y).handed = s.handed := rfl

/-! `dropTurn` -/

@[simp] theorem dropTurn_cmd : (s.dropTurn).cmd = s.cmd := rfl
@[simp] theorem dropTurn_status : (s.dropTurn).status = s.status := rfl
@[simp] theorem dropTurn_irqEn : (s.dropTurn).irqEn = s.irqEn := rfl
@[simp] theorem dropTurn_errInfo : (s.dropTurn).errInfo = s.errInfo := rfl
@[simp] theorem dropTurn_a : (s.dropTurn).a = s.a := rfl
@[simp] theorem dropTurn_r : (s.dropTurn).r = s.r := rfl
@[simp] theorem dropTurn_wx : (s.dropTurn).wx = s.wx := rfl
@[simp] theorem dropTurn_wy : (s.dropTurn).wy = s.wy := rfl
@[simp] theorem dropTurn_wz : (s.dropTurn).wz = s.wz := rfl
@[simp] theorem dropTurn_wup : (s.dropTurn).wup = s.wup := rfl
@[simp] theorem dropTurn_wvp : (s.dropTurn).wvp = s.wvp := rfl
@[simp] theorem dropTurn_inScale : (s.dropTurn).inScale = s.inScale := rfl
@[simp] theorem dropTurn_outScale : (s.dropTurn).outScale = s.outScale := rfl
@[simp] theorem dropTurn_bufAddr : (s.dropTurn).bufAddr = s.bufAddr := rfl
@[simp] theorem dropTurn_bufOff : (s.dropTurn).bufOff = s.bufOff := rfl
@[simp] theorem dropTurn_bufLen : (s.dropTurn).bufLen = s.bufLen := rfl
@[simp] theorem dropTurn_batchIdx : (s.dropTurn).batchIdx = s.batchIdx := rfl
@[simp] theorem dropTurn_phase : (s.dropTurn).phase = s.phase := rfl
@[simp] theorem dropTurn_mem : (s.dropTurn).mem = s.mem := rfl
@[simp] theorem dropTurn_cfg : (s.dropTurn).cfg = s.cfg := rfl
@[simp] theorem dropTurn_nanDraws : (s.dropTurn).nanDraws = s.nanDraws := rfl
@[simp] theorem dropTurn_script : (s.dropTurn).script = s.script.tail := rfl
@[simp] theorem dropTurn_replies : (s.dropTurn).replies = s.replies := rfl
@[simp] theorem dropTurn_handed : (s.dropTurn).handed = s.handed := rfl

/-! `withCommand` -/

@[simp] theorem withCommand_cmd (w : Word) : (s.withCommand w).cmd = w := rfl
@[simp] theorem withCommand_status (w : Word) : (s.withCommand w).status = { s.status with done := false, err := false, errCode := 0x00#8 } := rfl
@[simp] theorem withCommand_irqEn (w : Word) : (s.withCommand w).irqEn = s.irqEn := rfl
@[simp] theorem withCommand_errInfo (w : Word) : (s.withCommand w).errInfo = s.errInfo := rfl
@[simp] theorem withCommand_a (w : Word) : (s.withCommand w).a = s.a := rfl
@[simp] theorem withCommand_r (w : Word) : (s.withCommand w).r = s.r := rfl
@[simp] theorem withCommand_wx (w : Word) : (s.withCommand w).wx = s.wx := rfl
@[simp] theorem withCommand_wy (w : Word) : (s.withCommand w).wy = s.wy := rfl
@[simp] theorem withCommand_wz (w : Word) : (s.withCommand w).wz = s.wz := rfl
@[simp] theorem withCommand_wup (w : Word) : (s.withCommand w).wup = s.wup := rfl
@[simp] theorem withCommand_wvp (w : Word) : (s.withCommand w).wvp = s.wvp := rfl
@[simp] theorem withCommand_inScale (w : Word) : (s.withCommand w).inScale = s.inScale := rfl
@[simp] theorem withCommand_outScale (w : Word) : (s.withCommand w).outScale = s.outScale := rfl
@[simp] theorem withCommand_bufAddr (w : Word) : (s.withCommand w).bufAddr = s.bufAddr := rfl
@[simp] theorem withCommand_bufOff (w : Word) : (s.withCommand w).bufOff = s.bufOff := rfl
@[simp] theorem withCommand_bufLen (w : Word) : (s.withCommand w).bufLen = s.bufLen := rfl
@[simp] theorem withCommand_batchIdx (w : Word) : (s.withCommand w).batchIdx = s.batchIdx := rfl
@[simp] theorem withCommand_phase (w : Word) : (s.withCommand w).phase = .run := rfl
@[simp] theorem withCommand_mem (w : Word) : (s.withCommand w).mem = s.mem := rfl
@[simp] theorem withCommand_cfg (w : Word) : (s.withCommand w).cfg = s.cfg := rfl
@[simp] theorem withCommand_nanDraws (w : Word) : (s.withCommand w).nanDraws = s.nanDraws := rfl
@[simp] theorem withCommand_script (w : Word) : (s.withCommand w).script = .engine :: s.script := rfl
@[simp] theorem withCommand_replies (w : Word) : (s.withCommand w).replies = s.replies := rfl
@[simp] theorem withCommand_handed (w : Word) : (s.withCommand w).handed = s.handOver w := rfl

/-! The views of the state -/

@[simp] theorem raise_operation (f : OpFault) : (s.raise f).operation = s.operation := rfl
@[simp] theorem raise_npix (f : OpFault) : (s.raise f).npix = s.npix := rfl
@[simp] theorem raise_batchStart (f : OpFault) : (s.raise f).batchStart = s.batchStart := rfl
@[simp] theorem raise_pixelAddr (f : OpFault) (k' : Nat) : (s.raise f).pixelAddr k' = s.pixelAddr k' := rfl
@[simp] theorem complete_operation : (s.complete).operation = s.operation := rfl
@[simp] theorem complete_npix : (s.complete).npix = s.npix := rfl
@[simp] theorem complete_batchStart : (s.complete).batchStart = s.batchStart := rfl
@[simp] theorem complete_pixelAddr (k' : Nat) : (s.complete).pixelAddr k' = s.pixelAddr k' := rfl
@[simp] theorem startCommand_npix (w : Word) : (s.startCommand w).npix = s.npix := rfl
@[simp] theorem startCommand_batchStart (w : Word) : (s.startCommand w).batchStart = s.batchStart := rfl
@[simp] theorem startCommand_pixelAddr (w : Word) (k' : Nat) : (s.startCommand w).pixelAddr k' = s.pixelAddr k' := rfl
@[simp] theorem writeResult_busy (t : Triple F32) : (s.writeResult t).busy = s.busy := rfl
@[simp] theorem writeResult_operation (t : Triple F32) : (s.writeResult t).operation = s.operation := rfl
@[simp] theorem writeResult_npix (t : Triple F32) : (s.writeResult t).npix = s.npix := rfl
@[simp] theorem writeResult_batchStart (t : Triple F32) : (s.writeResult t).batchStart = s.batchStart := rfl
@[simp] theorem writeResult_pixelAddr (t : Triple F32) (k' : Nat) : (s.writeResult t).pixelAddr k' = s.pixelAddr k' := rfl
@[simp] theorem writeWhite_busy (w : Triple F32) (up vp : F32) : (s.writeWhite w up vp).busy = s.busy := rfl
@[simp] theorem writeWhite_operation (w : Triple F32) (up vp : F32) : (s.writeWhite w up vp).operation = s.operation := rfl
@[simp] theorem writeWhite_npix (w : Triple F32) (up vp : F32) : (s.writeWhite w up vp).npix = s.npix := rfl
@[simp] theorem writeWhite_batchStart (w : Triple F32) (up vp : F32) : (s.writeWhite w up vp).batchStart = s.batchStart := rfl
@[simp] theorem writeWhite_pixelAddr (w : Triple F32) (up vp : F32) (k' : Nat) : (s.writeWhite w up vp).pixelAddr k' = s.pixelAddr k' := rfl
@[simp] theorem writeBytes_busy (q : Triple Byte) : (s.writeBytes q).busy = s.busy := rfl
@[simp] theorem writeBytes_operation (q : Triple Byte) : (s.writeBytes q).operation = s.operation := rfl
@[simp] theorem writeBytes_npix (q : Triple Byte) : (s.writeBytes q).npix = s.npix := rfl
@[simp] theorem writeBytes_batchStart (q : Triple Byte) : (s.writeBytes q).batchStart = s.batchStart := rfl
@[simp] theorem writeBytes_pixelAddr (q : Triple Byte) (k' : Nat) : (s.writeBytes q).pixelAddr k' = s.pixelAddr k' := rfl
@[simp] theorem memWrite_busy (x : Nat) (v : Byte) : (memWrite s x v).busy = s.busy := rfl
@[simp] theorem memWrite_operation (x : Nat) (v : Byte) : (memWrite s x v).operation = s.operation := rfl
@[simp] theorem memWrite_npix (x : Nat) (v : Byte) : (memWrite s x v).npix = s.npix := rfl
@[simp] theorem memWrite_batchStart (x : Nat) (v : Byte) : (memWrite s x v).batchStart = s.batchStart := rfl
@[simp] theorem memWrite_pixelAddr (x : Nat) (v : Byte) (k' : Nat) : (memWrite s x v).pixelAddr k' = s.pixelAddr k' := rfl
@[simp] theorem writePixel_busy (x : Nat) (q : Triple Byte) : (writePixel s x q).busy = s.busy := rfl
@[simp] theorem writePixel_operation (x : Nat) (q : Triple Byte) : (writePixel s x q).operation = s.operation := rfl
@[simp] theorem writePixel_npix (x : Nat) (q : Triple Byte) : (writePixel s x q).npix = s.npix := rfl
@[simp] theorem writePixel_batchStart (x : Nat) (q : Triple Byte) : (writePixel s x q).batchStart = s.batchStart := rfl
@[simp] theorem writePixel_pixelAddr (x : Nat) (q : Triple Byte) (k' : Nat) : (writePixel s x q).pixelAddr k' = s.pixelAddr k' := rfl
@[simp] theorem advanceTo_operation (k : Nat) : (s.advanceTo k).operation = s.operation := rfl
@[simp] theorem advanceTo_npix (k : Nat) : (s.advanceTo k).npix = s.npix := rfl
@[simp] theorem advanceTo_batchStart (k : Nat) : (s.advanceTo k).batchStart = s.batchStart := rfl
@[simp] theorem advanceTo_pixelAddr (k : Nat) (k' : Nat) : (s.advanceTo k).pixelAddr k' = s.pixelAddr k' := rfl
@[simp] theorem answer_busy (y : Reply) : (s.answer y).busy = s.busy := rfl
@[simp] theorem answer_operation (y : Reply) : (s.answer y).operation = s.operation := rfl
@[simp] theorem answer_npix (y : Reply) : (s.answer y).npix = s.npix := rfl
@[simp] theorem answer_batchStart (y : Reply) : (s.answer y).batchStart = s.batchStart := rfl
@[simp] theorem answer_pixelAddr (y : Reply) (k' : Nat) : (s.answer y).pixelAddr k' = s.pixelAddr k' := rfl
@[simp] theorem dropTurn_busy : (s.dropTurn).busy = s.busy := rfl
@[simp] theorem dropTurn_operation : (s.dropTurn).operation = s.operation := rfl
@[simp] theorem dropTurn_npix : (s.dropTurn).npix = s.npix := rfl
@[simp] theorem dropTurn_batchStart : (s.dropTurn).batchStart = s.batchStart := rfl
@[simp] theorem dropTurn_pixelAddr (k' : Nat) : (s.dropTurn).pixelAddr k' = s.pixelAddr k' := rfl
@[simp] theorem withCommand_npix (w : Word) : (s.withCommand w).npix = s.npix := rfl
@[simp] theorem withCommand_batchStart (w : Word) : (s.withCommand w).batchStart = s.batchStart := rfl
@[simp] theorem withCommand_pixelAddr (w : Word) (k' : Nat) : (s.withCommand w).pixelAddr k' = s.pixelAddr k' := rfl

@[simp] theorem raise_busy (f : OpFault) : (s.raise f).busy = false := rfl
@[simp] theorem complete_busy : s.complete.busy = false := rfl
@[simp] theorem startCommand_busy (w : Word) : (s.startCommand w).busy = true := rfl
@[simp] theorem advanceTo_busy (k : Nat) : (s.advanceTo k).busy = true := rfl
@[simp] theorem withCommand_busy (w : Word) : (s.withCommand w).busy = true := rfl

/-! `takeBack`, `seeIrq` and `readSlot`: nothing but the ranges handed over, and what the host has read -/

@[simp] theorem takeBack_cmd : (s.takeBack).cmd = s.cmd := rfl
@[simp] theorem takeBack_status : (s.takeBack).status = s.status := rfl
@[simp] theorem takeBack_irqEn : (s.takeBack).irqEn = s.irqEn := rfl
@[simp] theorem takeBack_errInfo : (s.takeBack).errInfo = s.errInfo := rfl
@[simp] theorem takeBack_a : (s.takeBack).a = s.a := rfl
@[simp] theorem takeBack_r : (s.takeBack).r = s.r := rfl
@[simp] theorem takeBack_wx : (s.takeBack).wx = s.wx := rfl
@[simp] theorem takeBack_wy : (s.takeBack).wy = s.wy := rfl
@[simp] theorem takeBack_wz : (s.takeBack).wz = s.wz := rfl
@[simp] theorem takeBack_wup : (s.takeBack).wup = s.wup := rfl
@[simp] theorem takeBack_wvp : (s.takeBack).wvp = s.wvp := rfl
@[simp] theorem takeBack_inScale : (s.takeBack).inScale = s.inScale := rfl
@[simp] theorem takeBack_outScale : (s.takeBack).outScale = s.outScale := rfl
@[simp] theorem takeBack_bufAddr : (s.takeBack).bufAddr = s.bufAddr := rfl
@[simp] theorem takeBack_bufOff : (s.takeBack).bufOff = s.bufOff := rfl
@[simp] theorem takeBack_bufLen : (s.takeBack).bufLen = s.bufLen := rfl
@[simp] theorem takeBack_batchIdx : (s.takeBack).batchIdx = s.batchIdx := rfl
@[simp] theorem takeBack_phase : (s.takeBack).phase = s.phase := rfl
@[simp] theorem takeBack_mem : (s.takeBack).mem = s.mem := rfl
@[simp] theorem takeBack_cfg : (s.takeBack).cfg = s.cfg := rfl
@[simp] theorem takeBack_nanDraws : (s.takeBack).nanDraws = s.nanDraws := rfl
@[simp] theorem takeBack_script : (s.takeBack).script = s.script := rfl
@[simp] theorem takeBack_replies : (s.takeBack).replies = s.replies := rfl
@[simp] theorem takeBack_busy : (s.takeBack).busy = s.busy := rfl
@[simp] theorem takeBack_operation : (s.takeBack).operation = s.operation := rfl
@[simp] theorem takeBack_npix : (s.takeBack).npix = s.npix := rfl
@[simp] theorem takeBack_batchStart : (s.takeBack).batchStart = s.batchStart := rfl
@[simp] theorem takeBack_handed : (s.takeBack).handed = [] := rfl

theorem seeIrq_eq : s.seeIrq = { s with handed := s.seeIrq.handed } := by unfold State.seeIrq; split <;> rfl

/-- The IRQ line tells the host nothing while an operation runs. -/
theorem seeIrq_of_busy (h : s.busy = true) : s.seeIrq = s := by simp [State.seeIrq, State.ended, h]

@[simp] theorem seeIrq_cmd : (s.seeIrq).cmd = s.cmd := by unfold State.seeIrq; split <;> rfl
@[simp] theorem seeIrq_status : (s.seeIrq).status = s.status := by unfold State.seeIrq; split <;> rfl
@[simp] theorem seeIrq_irqEn : (s.seeIrq).irqEn = s.irqEn := by unfold State.seeIrq; split <;> rfl
@[simp] theorem seeIrq_errInfo : (s.seeIrq).errInfo = s.errInfo := by unfold State.seeIrq; split <;> rfl
@[simp] theorem seeIrq_a : (s.seeIrq).a = s.a := by unfold State.seeIrq; split <;> rfl
@[simp] theorem seeIrq_r : (s.seeIrq).r = s.r := by unfold State.seeIrq; split <;> rfl
@[simp] theorem seeIrq_wx : (s.seeIrq).wx = s.wx := by unfold State.seeIrq; split <;> rfl
@[simp] theorem seeIrq_wy : (s.seeIrq).wy = s.wy := by unfold State.seeIrq; split <;> rfl
@[simp] theorem seeIrq_wz : (s.seeIrq).wz = s.wz := by unfold State.seeIrq; split <;> rfl
@[simp] theorem seeIrq_wup : (s.seeIrq).wup = s.wup := by unfold State.seeIrq; split <;> rfl
@[simp] theorem seeIrq_wvp : (s.seeIrq).wvp = s.wvp := by unfold State.seeIrq; split <;> rfl
@[simp] theorem seeIrq_inScale : (s.seeIrq).inScale = s.inScale := by unfold State.seeIrq; split <;> rfl
@[simp] theorem seeIrq_outScale : (s.seeIrq).outScale = s.outScale := by unfold State.seeIrq; split <;> rfl
@[simp] theorem seeIrq_bufAddr : (s.seeIrq).bufAddr = s.bufAddr := by unfold State.seeIrq; split <;> rfl
@[simp] theorem seeIrq_bufOff : (s.seeIrq).bufOff = s.bufOff := by unfold State.seeIrq; split <;> rfl
@[simp] theorem seeIrq_bufLen : (s.seeIrq).bufLen = s.bufLen := by unfold State.seeIrq; split <;> rfl
@[simp] theorem seeIrq_batchIdx : (s.seeIrq).batchIdx = s.batchIdx := by unfold State.seeIrq; split <;> rfl
@[simp] theorem seeIrq_phase : (s.seeIrq).phase = s.phase := by unfold State.seeIrq; split <;> rfl
@[simp] theorem seeIrq_mem : (s.seeIrq).mem = s.mem := by unfold State.seeIrq; split <;> rfl
@[simp] theorem seeIrq_cfg : (s.seeIrq).cfg = s.cfg := by unfold State.seeIrq; split <;> rfl
@[simp] theorem seeIrq_nanDraws : (s.seeIrq).nanDraws = s.nanDraws := by unfold State.seeIrq; split <;> rfl
@[simp] theorem seeIrq_script : (s.seeIrq).script = s.script := by unfold State.seeIrq; split <;> rfl
@[simp] theorem seeIrq_replies : (s.seeIrq).replies = s.replies := by unfold State.seeIrq; split <;> rfl
@[simp] theorem seeIrq_busy : (s.seeIrq).busy = s.busy := by unfold State.seeIrq; split <;> rfl
@[simp] theorem seeIrq_operation : (s.seeIrq).operation = s.operation := by unfold State.seeIrq; split <;> rfl
@[simp] theorem seeIrq_npix : (s.seeIrq).npix = s.npix := by unfold State.seeIrq; split <;> rfl
@[simp] theorem seeIrq_batchStart : (s.seeIrq).batchStart = s.batchStart := by unfold State.seeIrq; split <;> rfl
@[simp] theorem seeIrq_byteAt (x : Nat) : (s.seeIrq).byteAt x = s.byteAt x := by unfold State.seeIrq; split <;> rfl
@[simp] theorem seeIrq_get (g : Reg) : (s.seeIrq).get g = s.get g := by unfold State.seeIrq; split <;> cases g <;> rfl

theorem readSlot_eq (slot : BitVec 6) :
    s.readSlot slot =
      { s with replies := .word (hostRead s slot) :: s.replies, handed := (s.readSlot slot).handed } := by
  unfold State.readSlot; simp only; split <;> rfl

@[simp] theorem readSlot_cmd (slot : BitVec 6) : (s.readSlot slot).cmd = s.cmd := by rw [readSlot_eq]
@[simp] theorem readSlot_status (slot : BitVec 6) : (s.readSlot slot).status = s.status := by rw [readSlot_eq]
@[simp] theorem readSlot_irqEn (slot : BitVec 6) : (s.readSlot slot).irqEn = s.irqEn := by rw [readSlot_eq]
@[simp] theorem readSlot_errInfo (slot : BitVec 6) : (s.readSlot slot).errInfo = s.errInfo := by rw [readSlot_eq]
@[simp] theorem readSlot_a (slot : BitVec 6) : (s.readSlot slot).a = s.a := by rw [readSlot_eq]
@[simp] theorem readSlot_r (slot : BitVec 6) : (s.readSlot slot).r = s.r := by rw [readSlot_eq]
@[simp] theorem readSlot_wx (slot : BitVec 6) : (s.readSlot slot).wx = s.wx := by rw [readSlot_eq]
@[simp] theorem readSlot_wy (slot : BitVec 6) : (s.readSlot slot).wy = s.wy := by rw [readSlot_eq]
@[simp] theorem readSlot_wz (slot : BitVec 6) : (s.readSlot slot).wz = s.wz := by rw [readSlot_eq]
@[simp] theorem readSlot_wup (slot : BitVec 6) : (s.readSlot slot).wup = s.wup := by rw [readSlot_eq]
@[simp] theorem readSlot_wvp (slot : BitVec 6) : (s.readSlot slot).wvp = s.wvp := by rw [readSlot_eq]
@[simp] theorem readSlot_inScale (slot : BitVec 6) : (s.readSlot slot).inScale = s.inScale := by rw [readSlot_eq]
@[simp] theorem readSlot_outScale (slot : BitVec 6) : (s.readSlot slot).outScale = s.outScale := by rw [readSlot_eq]
@[simp] theorem readSlot_bufAddr (slot : BitVec 6) : (s.readSlot slot).bufAddr = s.bufAddr := by rw [readSlot_eq]
@[simp] theorem readSlot_bufOff (slot : BitVec 6) : (s.readSlot slot).bufOff = s.bufOff := by rw [readSlot_eq]
@[simp] theorem readSlot_bufLen (slot : BitVec 6) : (s.readSlot slot).bufLen = s.bufLen := by rw [readSlot_eq]
@[simp] theorem readSlot_batchIdx (slot : BitVec 6) : (s.readSlot slot).batchIdx = s.batchIdx := by rw [readSlot_eq]
@[simp] theorem readSlot_phase (slot : BitVec 6) : (s.readSlot slot).phase = s.phase := by rw [readSlot_eq]
@[simp] theorem readSlot_mem (slot : BitVec 6) : (s.readSlot slot).mem = s.mem := by rw [readSlot_eq]
@[simp] theorem readSlot_cfg (slot : BitVec 6) : (s.readSlot slot).cfg = s.cfg := by rw [readSlot_eq]
@[simp] theorem readSlot_nanDraws (slot : BitVec 6) : (s.readSlot slot).nanDraws = s.nanDraws := by rw [readSlot_eq]
@[simp] theorem readSlot_script (slot : BitVec 6) : (s.readSlot slot).script = s.script := by rw [readSlot_eq]
@[simp] theorem readSlot_replies (slot : BitVec 6) : (s.readSlot slot).replies = .word (hostRead s slot) :: s.replies := by rw [readSlot_eq]
@[simp] theorem readSlot_busy (slot : BitVec 6) : (s.readSlot slot).busy = s.busy := by rw [readSlot_eq]; rfl

/-- While an operation runs a host step is its move alone. -/
theorem hostStep_of_busy (act : HostAction) (h : s.busy = true) : hostStep act s = hostMove act s := by
  rw [hostStep, seeIrq_of_busy s h]

/-- BUSY is 0 exactly in IDLE (R36). -/
theorem busy_eq_false_iff : s.busy = false ↔ s.phase = .idle := by
  cases h : s.phase <;> simp [State.busy, h]

/-- BUSY is 1 exactly outside IDLE (R36). -/
theorem busy_eq_true_iff : s.busy = true ↔ s.phase ≠ .idle := by
  cases h : s.phase <;> simp [State.busy, h]

end Sys2Proof.Machine
end

