-- ==== Sys2Proof/Laws/Memory.lean ====
section
/-! SUPPORT. The byte memory: a read after a write, and that every write keeps the canonical form. -/

namespace Sys2Proof.Machine

/-- An address below every listed one is not listed. -/
theorem memGet_of_below (m : List Host.Cell) (x : Nat) (h : ∀ p ∈ m, x < p.1) : memGet m x = unlistedByte := by
  induction m with
  | nil => rfl
  | cons p rest ih =>
    have hp : x < p.1 := h p (by simp)
    simp only [memGet]
    rw [if_neg (by omega)]
    exact ih fun q hq => h q (by simp [hq])

/-- Every cell of the written memory is the written one or an old one. -/
theorem mem_memSet {m : List Host.Cell} {x : Nat} {v : Byte} {p : Host.Cell} (hp : p ∈ memSet m x v) :
    p ∈ m ∨ (p = (x, v) ∧ v ≠ unlistedByte) := by
  induction m with
  | nil =>
    simp only [memSet] at hp
    split at hp
    · simp at hp
    · exact .inr ⟨by simpa using hp, by assumption⟩
  | cons q rest ih =>
    obtain ⟨b, u⟩ := q
    simp only [memSet] at hp
    split at hp
    · split at hp
      · exact .inl hp
      · rcases List.mem_cons.1 hp with h | h
        · exact .inr ⟨h, by assumption⟩
        · exact .inl h
    · split at hp
      · split at hp
        · exact .inl (List.mem_cons_of_mem _ hp)
        · rcases List.mem_cons.1 hp with h | h
          · exact .inr ⟨h, by assumption⟩
          · exact .inl (List.mem_cons_of_mem _ h)
      · rcases List.mem_cons.1 hp with h | h
        · exact .inl (by simp [h])
        · exact (ih h).imp (fun h => List.mem_cons_of_mem _ h) id

/-- Every write keeps the canonical form. -/
theorem memSet_wf {m : List Host.Cell} (hm : Memory.wf m) (x : Nat) (v : Byte) : Memory.wf (memSet m x v) := by
  refine ⟨?_, fun p hp => ?_⟩
  · induction m with
    | nil => simp only [memSet]; split <;> simp
    | cons q rest ih =>
      obtain ⟨b, u⟩ := q
      obtain ⟨hpair, hne⟩ := hm
      have hb := (List.pairwise_cons.1 hpair).1
      have hrest := (List.pairwise_cons.1 hpair).2
      simp only [memSet]
      split
      · split
        · exact hpair
        · refine List.pairwise_cons.2 ⟨fun r hr => ?_, hpair⟩
          rcases List.mem_cons.1 hr with h | h
          · subst h; assumption
          · have := hb r h; simp at this ⊢; omega
      · split
        · split
          · exact hrest
          · exact List.pairwise_cons.2 ⟨fun r hr => by have := hb r hr; simp at this ⊢; omega, hrest⟩
        · refine List.pairwise_cons.2 ⟨fun r hr => ?_, ih ⟨hrest, fun p hp => hne p (by simp [hp])⟩⟩
          rcases mem_memSet hr with h | h
          · exact hb r h
          · rw [h.1]; simp; omega
  · rcases mem_memSet hp with h | h
    · exact hm.2 p h
    · rw [h.1]; exact h.2

/-- A write leaves every other address as it was. -/
theorem memGet_memSet_ne (m : List Host.Cell) {x y : Nat} (v : Byte) (h : y ≠ x) :
    memGet (memSet m x v) y = memGet m y := by
  induction m with
  | nil => simp only [memSet]; split <;> simp [memGet, h]
  | cons q rest ih =>
    obtain ⟨b, u⟩ := q
    simp only [memSet]
    split
    · split
      · rfl
      · simp [memGet, h]
    · split
      · rename_i hxb
        split <;> simp [memGet, h, ← hxb]
      · simp [memGet, ih]

/-- A read after a write to the same address gives the byte written. -/
theorem memGet_memSet_self {m : List Host.Cell} (hm : Memory.wf m) (x : Nat) (v : Byte) :
    memGet (memSet m x v) x = v := by
  induction m with
  | nil => simp only [memSet]; split <;> simp_all [memGet]
  | cons q rest ih =>
    obtain ⟨b, u⟩ := q
    obtain ⟨hpair, hne⟩ := hm
    have hb := (List.pairwise_cons.1 hpair).1
    have hrest := (List.pairwise_cons.1 hpair).2
    simp only [memSet]
    split
    · split
      · rename_i hx hv
        rw [hv]
        refine memGet_of_below _ _ fun p hp => ?_
        rcases List.mem_cons.1 hp with h | h
        · subst h; exact hx
        · have := hb p h; simp at this; omega
      · simp [memGet]
    · split
      · rename_i hx
        split
        · rename_i hv
          rw [hv]
          exact memGet_of_below _ _ fun p hp => by have := hb p hp; simp at this; omega
        · simp [memGet]
      · rename_i hx
        simp only [memGet]
        rw [if_neg hx]
        exact ih ⟨hrest, fun p hp => hne p (by simp [hp])⟩

/-- The byte at an address after a write. -/
theorem byteAt_memWrite {s : State} (hm : Memory.wf s.mem) (x y : Nat) (v : Byte) :
    (memWrite s x v).byteAt y = if y = x then v else s.byteAt y := by
  by_cases h : y = x
  · subst h; simp [State.byteAt, memGet_memSet_self hm]
  · simp [State.byteAt, memGet_memSet_ne _ _ h, h]

/-- The bytes after a pixel is written: its three channels, and no other byte (R53, R192). -/
theorem byteAt_writePixel {s : State} (hm : Memory.wf s.mem) (x y : Nat) (q : Triple Byte) :
    (writePixel s x q).byteAt y =
      if y = x then q.c0 else if y = x + 1 then q.c1 else if y = x + 2 then q.c2 else s.byteAt y := by
  unfold writePixel
  rw [byteAt_memWrite (memSet_wf (memSet_wf hm _ _) _ _), byteAt_memWrite (memSet_wf hm _ _), byteAt_memWrite hm]
  split_ifs <;> first | rfl | omega

/-- A byte outside a pixel's three channels is unchanged, whatever the memory. -/
theorem byteAt_writePixel_of_ne (s : State) (x y : Nat) (q : Triple Byte) (h0 : y ≠ x) (h1 : y ≠ x + 1)
    (h2 : y ≠ x + 2) : (writePixel s x q).byteAt y = s.byteAt y := by
  simp [State.byteAt, memGet_memSet_ne, h0, h1, h2]

/-- A pixel written below MEM_BYTES keeps the memory legal. -/
theorem writePixel_memLegal {s : State} (hm : s.MemLegal) (x : Nat) (q : Triple Byte)
    (hx : x + 2 < s.cfg.memBytes) : (writePixel s x q).MemLegal := by
  refine ⟨by simpa using memSet_wf (memSet_wf (memSet_wf hm.1 _ _) _ _) _ _, fun p hp => ?_⟩
  simp only [writePixel_mem, writePixel_cfg] at hp ⊢
  rcases mem_memSet hp with h | h
  · rcases mem_memSet h with h | h
    · rcases mem_memSet h with h | h
      · exact hm.2 p h
      · rw [h.1]; simp; omega
    · rw [h.1]; simp; omega
  · rw [h.1]; simp; omega

/-- A byte written below MEM_BYTES keeps the memory legal. -/
theorem memWrite_memLegal {s : State} (hm : s.MemLegal) (x : Nat) (v : Byte) (hx : x < s.cfg.memBytes) :
    (memWrite s x v).MemLegal := by
  refine ⟨by simpa using memSet_wf hm.1 _ _, fun p hp => ?_⟩
  simp only [memWrite_mem, memWrite_cfg] at hp ⊢
  rcases mem_memSet hp with h | h
  · exact hm.2 p h
  · rw [h.1]; simpa using hx

/-- The memory after reset has the canonical form. -/
theorem reset_mem_wf : Memory.wf State.reset.mem := by simp [State.reset, Memory.wf]

end Sys2Proof.Machine
end

