-- ==== Sys2Proof/Laws/Ops.lean ====
section
/-! SUPPORT. One lemma per shared operation that says everything it can do. -/

namespace Sys2Proof.Machine

/-! The operand check (R17) -/

theorem checkFinite_ok_iff (s : State) (regs : List Reg) : checkFinite s regs = .ok () ↔ s.FiniteRegs regs := by
  induction regs with
  | nil => simp [checkFinite, State.FiniteRegs]
  | cons g rest ih =>
    simp only [checkFinite, State.FiniteRegs, List.mem_cons, forall_eq_or_imp]
    split <;> rename_i h
    · simpa [h] using ih
    · simp [h]

theorem checkFinite_ok {s : State} {regs : List Reg} (h : s.FiniteRegs regs) : checkFinite s regs = .ok () :=
  (checkFinite_ok_iff s regs).2 h

/-- The first register that is not finite is the one reported. -/
theorem checkFinite_first (s : State) (pre : List Reg) (g : Reg) (post : List Reg) (hpre : s.FiniteRegs pre)
    (hg : isFinite (s.get g) = false) :
    checkFinite s (pre ++ g :: post) = .error ⟨.domainOperand, regOffset g⟩ := by
  induction pre with
  | nil => simp [checkFinite, hg]
  | cons h rest ih =>
    simp only [List.cons_append, checkFinite]
    rw [if_pos (hpre h (by simp))]
    exact ih fun x hx => hpre x (by simp [hx])

/-- A check that fails names the first register of the list that is not finite. -/
theorem checkFinite_error {s : State} {regs : List Reg} {f : OpFault} (h : checkFinite s regs = .error f) :
    ∃ (pre post : List Reg) (g : Reg), regs = pre ++ g :: post ∧ s.FiniteRegs pre ∧ isFinite (s.get g) = false ∧
      f = ⟨.domainOperand, regOffset g⟩ := by
  induction regs with
  | nil => simp [checkFinite] at h
  | cons g rest ih =>
    simp only [checkFinite] at h
    split at h <;> rename_i hg
    · obtain ⟨pre, post, x, rfl, hpre, hx⟩ := ih h
      exact ⟨g :: pre, post, x, rfl, by simpa [State.FiniteRegs, hg] using hpre, hx⟩
    · exact ⟨[], rest, g, rfl, (by intro x hx; cases hx), by simpa using hg, by simpa using h.symm⟩

/-- The check depends on the listed registers only. -/
theorem checkFinite_congr {s t : State} {regs : List Reg} (h : ∀ g ∈ regs, t.get g = s.get g) :
    checkFinite t regs = checkFinite s regs := by
  induction regs with
  | nil => rfl
  | cons g rest ih =>
    unfold checkFinite
    rw [h g (by simp), ih fun x hx => h x (by simp [hx])]

/-! The end step (R222, R223) -/

/-- An operation that ends in one step ends with a fault recorded or with its writes done. -/
theorem endStep_cases {α : Type} {s t : State} {e : Eval α} {write : State → α → State}
    (h : endStep s e write = .next t) :
    (∃ f, e = .error f ∧ t = s.raise f) ∨ ∃ v, e = .ok v ∧ t = (write s v).complete := by
  unfold endStep at h
  split at h
  · exact .inl ⟨_, rfl, by simpa using h.symm⟩
  · exact .inr ⟨_, rfl, by simpa using h.symm⟩

@[simp] theorem endStep_ok {α : Type} (s : State) (v : α) (write : State → α → State) :
    endStep s (.ok v) write = .next (write s v).complete := rfl

@[simp] theorem endStep_error {α : Type} (s : State) (f : OpFault) (write : State → α → State) :
    endStep s (.error f) write = .next (s.raise f) := rfl

theorem runTriple_of_ok {s : State} {regs : List Reg} {e : Eval (Triple F32)} {v : Triple F32}
    (hr : s.FiniteRegs regs) (he : e = .ok v) : runTriple s regs e = .next (s.writeResult v).complete := by
  unfold runTriple; rw [checkFinite_ok hr, he]; rfl

theorem runTriple_of_error {s : State} {regs : List Reg} {e : Eval (Triple F32)} {f : OpFault}
    (hr : s.FiniteRegs regs) (he : e = .error f) : runTriple s regs e = .next (s.raise f) := by
  unfold runTriple; rw [checkFinite_ok hr, he]; rfl

/-- An operation on a triple that ends with a fault ends with its operand check's or, past it, its evaluation's. -/
theorem runTriple_fault {s t : State} {regs : List Reg} {e : Eval (Triple F32)} (h : runTriple s regs e = .next t)
    (ht : t.status.err = true) :
    ∃ f, t = s.raise f ∧ (checkFinite s regs = .error f ∨ s.FiniteRegs regs ∧ e = .error f) := by
  rcases endStep_cases h with ⟨f, hf, rfl⟩ | ⟨v, -, rfl⟩
  · refine ⟨f, rfl, ?_⟩
    cases hc : checkFinite s regs with
    | error f' => rw [hc] at hf; cases hf; exact .inl rfl
    | ok u => rw [hc] at hf; exact .inr ⟨(checkFinite_ok_iff s regs).1 hc, hf⟩
  · cases ht

/-! Lane-wise evaluation (R109) -/

theorem lanewise_of_ok {f : F32 → Nat → Eval F32} {c v : Triple F32} (h0 : f c.c0 0 = .ok v.c0)
    (h1 : f c.c1 1 = .ok v.c1) (h2 : f c.c2 2 = .ok v.c2) : lanewise f c = .ok v := by
  unfold lanewise; rw [h0, h1, h2]; rfl

/-! The root engine's domain (R101) -/

/-- A number above a positive normal threshold, that is not NaN and not +∞, is one the root engine takes. -/
theorem rootAdmits_of_gt (cfg : Config) {x k : F32} (hok : rootStageOk x = true) (hk : isNaN k = false)
    (hpos : (2 ^ 23 : Int) ≤ units k) (hgt : fle x k = false) : rootAdmits cfg x = true := by
  have hn : isNaN x = false := by simp_all [rootStageOk]
  have hlt : units k < units x := by simpa [fle, hn, hk] using hgt
  norm_num at hpos
  obtain ⟨hs, hm⟩ := mag_pos_of_units_pos (x := x) (by omega)
  have hi : isInf x = false := by simpa [rootStageOk, hn, hs] using hok
  have hm' : 2 ^ 23 < mag x := by have := units_eq_mag hs; omega
  have he : expField x ≠ 0 := by
    intro h0
    have h2 := fracField_lt x
    rw [mag, if_pos h0] at hm'
    omega
  have hz : isZero x = false := by simp [isZero, he]
  have hf := isFinite_of_not hn hi
  simp [rootAdmits, hs, hz, hf, he]

/-- A NaN or +∞ is not at or below any finite threshold, and the root engine does not take it. -/
theorem fle_and_rootAdmits_of_not_ok (cfg : Config) {x k : F32} (hok : rootStageOk x = false)
    (hk : isFinite k = true) : fle x k = false ∧ rootAdmits cfg x = false := by
  by_cases hn : isNaN x = true
  · have he : expField x = 255 := by simp_all [isNaN]
    exact ⟨by simp [fle, hn], by simp [rootAdmits, isFinite, he]⟩
  · have hn' : isNaN x = false := by simpa using hn
    have hi : isInf x = true ∧ signBit x = false := by simpa [rootStageOk, hn'] using hok
    have he : expField x = 255 ∧ fracField x = 0 := by simpa [isInf] using hi.1
    refine ⟨?_, by simp [rootAdmits, isFinite, he.1]⟩
    have hm : mag x = 2 ^ 23 * 2 ^ 254 := by simp [mag, he.1, he.2]
    have hku : units k ≤ (mag k : Int) := by unfold units; split <;> omega
    have hkm := mag_le_of_isFinite hk
    have hx := units_eq_mag hi.2
    have hlt : units k < units x := by
      rw [hx, hm]
      have h2 : (2 ^ 24 - 1) * 2 ^ 253 < 2 ^ 23 * 2 ^ 254 := by
        have hz : 0 < (2 : Nat) ^ 253 := by positivity
        rw [show (2 : Nat) ^ 254 = 2 * 2 ^ 253 by norm_num]
        generalize (2 : Nat) ^ 253 = z at hz ⊢
        omega
      exact lt_of_le_of_lt hku (by exact_mod_cast lt_of_le_of_lt hkm h2)
    simp [fle, isNaN_eq_false_of_isFinite hk]
    intro _; omega

/-! The engine's step (R265) -/

theorem engineStep_of_idle {s : State} (h : s.phase = .idle) : engineStep s = .next s := by
  simp [engineStep, h]

theorem engineStep_of_ok {s : State} {i : Instr} (h : s.phase ≠ .idle) (hi : s.operation = .ok i) :
    engineStep s = exec i s := by
  unfold engineStep
  split
  · contradiction
  · rw [hi]

theorem engineStep_of_error {s : State} {e : DecodeReject} (h : s.phase ≠ .idle) (he : s.operation = .error e) :
    engineStep s = .next (s.raise ⟨.illegalCmd, 0⟩) := by
  unfold engineStep
  split
  · contradiction
  · rw [he]

/-- The arm of a BATCH command is the batch step of its pipeline (R73, R194). -/
theorem exec_pid (p : Pid) (s : State) : exec p.instr s = batchStep p s := by cases p <;> rfl

theorem pid?_instr (p : Pid) : p.instr.pid? = some p := by cases p <;> rfl

theorem eq_instr_of_pid? {i : Instr} {p : Pid} (h : i.pid? = some p) : i = p.instr := by
  cases i <;> simp [Instr.pid?] at h <;> subst h <;> rfl

/-! Everything an operation can do -/

/-- What an operation that is not a BATCH can end in: NOP only completes, WSET writes the W registers, every other one
writes R0 to R2, and each of them but NOP may end with a fault instead. -/
theorem exec_nonbatch_cases {i : Instr} {s t : State} (hp : i.pid? = none) (h : exec i s = .next t) :
    (i ≠ .nop ∧ ∃ f, t = s.raise f) ∨
    (i = .nop ∧ t = s.complete) ∨
    (i = .wset ∧ ∃ w u v, t = (s.writeWhite w u v).complete) ∨
    (i = .quant ∧ ∃ q, t = (s.writeBytes q).complete) ∨
    (i ≠ .nop ∧ i ≠ .wset ∧ i ≠ .quant ∧ ∃ v, t = (s.writeResult v).complete) := by
  cases i
  case nop => exact .inr (.inl ⟨rfl, by simpa [exec, execNop] using h.symm⟩)
  case wset =>
    simp only [exec, execWset] at h
    rcases endStep_cases h with ⟨f, -, rfl⟩ | ⟨w, -, rfl⟩
    · exact .inl ⟨by simp, f, rfl⟩
    · exact .inr (.inr (.inl ⟨rfl, _, _, _, rfl⟩))
  case quant =>
    simp only [exec, execQuant] at h
    rcases endStep_cases h with ⟨f, -, rfl⟩ | ⟨w, -, rfl⟩
    · exact .inl ⟨by simp, f, rfl⟩
    · exact .inr (.inr (.inr (.inl ⟨rfl, _, rfl⟩)))
  all_goals first
    | (simp [Instr.pid?] at hp; done)
    | (rcases endStep_cases h with ⟨f, -, rfl⟩ | ⟨w, -, rfl⟩
       · exact .inl ⟨by simp, f, rfl⟩
       · exact .inr (.inr (.inr (.inr ⟨by simp, by simp, by simp, _, rfl⟩))))

/-- What the entry step can end in (R190, R191). -/
theorem batchEntry_cases {p : Pid} {s t : State} (h : batchEntry p s = .next t) :
    (∃ f, batchEntryCheck p s = .error f ∧ t = { s with batchIdx := 0#32 }.raise f) ∨
    (batchEntryCheck p s = .ok () ∧ t = s.advanceTo 0) := by
  unfold batchEntry at h
  split at h <;> rename_i hc <;> injection h with h
  · exact .inl ⟨_, hc, h.symm⟩
  · exact .inr ⟨hc, h.symm⟩

/-- What a pixel step can end in (R192, R193). -/
theorem pixelStep_cases {p : Pid} {k : Nat} {s t : State} (h : pixelStep p k s = .next t) :
    ∃ b, readPixel s (s.pixelAddr k) = some b ∧
      ((∃ f, convertPixel p s k b = .error f ∧ t = s.raise f) ∨
       (∃ q, convertPixel p s k b = .ok q ∧ t = (writePixel s (s.pixelAddr k) q).advanceTo (k + 1))) := by
  unfold pixelStep at h
  split at h <;> rename_i hb
  · simp at h
  · refine ⟨_, hb, ?_⟩
    split at h <;> rename_i hc <;> injection h with h
    · exact .inl ⟨_, hc, h.symm⟩
    · exact .inr ⟨_, hc, h.symm⟩

/-- What one step of a BATCH can end in (R190 to R193, R265). -/
theorem batchStep_cases {p : Pid} {s t : State} (h : batchStep p s = .next t) :
    ((∀ k, s.phase ≠ .walk k) ∧ ∃ f, batchEntryCheck p s = .error f ∧ t = { s with batchIdx := 0#32 }.raise f) ∨
    ((∀ k, s.phase ≠ .walk k) ∧ batchEntryCheck p s = .ok () ∧ t = s.advanceTo 0) ∨
    (∃ k b f, s.phase = .walk k ∧ k < s.npix ∧ readPixel s (s.pixelAddr k) = some b ∧
      convertPixel p s k b = .error f ∧ t = s.raise f) ∨
    (∃ k b q, s.phase = .walk k ∧ k < s.npix ∧ readPixel s (s.pixelAddr k) = some b ∧
      convertPixel p s k b = .ok q ∧ t = (writePixel s (s.pixelAddr k) q).advanceTo (k + 1)) ∨
    (∃ k, s.phase = .walk k ∧ s.npix ≤ k ∧ t = s.complete) := by
  have entry (hph : ∀ k, s.phase ≠ .walk k) (h : batchEntry p s = .next t) := batchEntry_cases h
  unfold batchStep at h
  split at h <;> rename_i hph
  · split at h <;> rename_i hk
    · obtain ⟨b, hb, ⟨f, hc, rfl⟩ | ⟨q, hc, rfl⟩⟩ := pixelStep_cases h
      · exact .inr (.inr (.inl ⟨_, _, _, hph, hk, hb, hc, rfl⟩))
      · exact .inr (.inr (.inr (.inl ⟨_, _, _, hph, hk, hb, hc, rfl⟩)))
    · injection h with h
      exact .inr (.inr (.inr (.inr ⟨_, hph, by omega, h.symm⟩)))
  all_goals
    have hw : ∀ k, s.phase ≠ .walk k := by simp [hph]
    rcases entry hw h with h | h
    · exact .inl ⟨hw, h⟩
    · exact .inr (.inl ⟨hw, h⟩)

/-- A pixel is read exactly where its three channel bytes exist. -/
theorem readPixel_eq (s : State) (k : Nat) :
    readPixel s (s.pixelAddr k) =
      if s.pixelAddr k + 2 < s.cfg.memBytes then some (s.pixelBytes k) else none := by
  unfold readPixel memRead State.pixelBytes
  by_cases h2 : s.pixelAddr k + 2 < s.cfg.memBytes
  · simp [h2, show s.pixelAddr k + 1 < s.cfg.memBytes by omega, show s.pixelAddr k < s.cfg.memBytes by omega]
  · by_cases h0 : s.pixelAddr k < s.cfg.memBytes <;> by_cases h1 : s.pixelAddr k + 1 < s.cfg.memBytes <;>
      simp [h0, h1, h2]

/-- A word's decoding is looked up in CMD once the command is started (R223). -/
theorem operation_startCommand (s : State) (w : Word) : (s.startCommand w).operation = decode w := rfl

theorem decode_encode (i : Instr) : decode (encode i) = .ok i := by cases i <;> rfl

/-- The window word of a register holds that register (R21). -/
theorem regOfSlot_slotOf (g : Reg) : regOfSlot (slotOf g) = some g := by cases g <;> rfl

/-- The window word of CMD is CMD's alone. -/
theorem eq_slotOf_cmd : ∀ slot, regOfSlot slot = some .cmd → slot = slotOf .cmd := by decide +kernel

/-- A host write to the window changes the ranges handed over only where it starts a command (R262). -/
theorem hostWrite_handed (s : State) (slot : BitVec 6) (w : Word) :
    (hostWrite s slot w).handed = if slot = slotOf .cmd ∧ s.busy = false then s.handOver w else s.handed := by
  unfold hostWrite
  split <;> rename_i hg
  · rename_i g
    by_cases hc : slot = slotOf .cmd
    · subst hc
      rw [regOfSlot_slotOf] at hg; cases hg
      cases hb : s.busy <;> simp [writeReg, guarded, hb]
    · have hne : g ≠ .cmd := by rintro rfl; exact hc (eq_slotOf_cmd _ hg)
      rw [if_neg fun h => hc h.1]
      cases g <;> simp [writeReg, guarded, writeStatus, State.acknowledge] at hne ⊢ <;> repeat' (split <;> try rfl)
  · rw [if_neg]
    rintro ⟨rfl, -⟩
    rw [regOfSlot_slotOf] at hg; cases hg

/-- The engine hands nothing back by itself: the host has to see DONE (R262). -/
theorem exec_handed {i : Instr} {s t : State} (h : exec i s = .next t) : t.handed = s.handed := by
  cases hp : i.pid? with
  | none =>
    rcases exec_nonbatch_cases hp h with ⟨-, f, rfl⟩ | ⟨-, rfl⟩ | ⟨-, _, _, _, rfl⟩ | ⟨-, _, rfl⟩ | ⟨-, -, -, _, rfl⟩ <;> rfl
  | some p =>
    rw [eq_instr_of_pid? hp, exec_pid] at h
    rcases batchStep_cases h with ⟨-, _, -, rfl⟩ | ⟨-, -, rfl⟩ | ⟨_, _, _, -, -, -, -, rfl⟩ | ⟨_, _, _, -, -, -, -, rfl⟩ |
      ⟨_, -, -, rfl⟩ <;> rfl

end Sys2Proof.Machine
end

