-- ==== Sys2Proof/Laws/Transfer.lean ====
section
/-! SUPPORT. The root engine and the transfer functions: what each answers on the numbers it takes and on the others,
and the faults each can end with. -/

namespace Sys2Proof.Machine

theorem rootStageOk_of_isFinite {v : F32} (hv : isFinite v = true) : rootStageOk v = true := by
  simp [rootStageOk, isNaN_eq_false_of_isFinite hv, isInf_eq_false_of_isFinite hv]

theorem rootEngine_of_admits {cfg : Config} {x : F32} (n : RootIndex) (lane : Nat) (h : rootAdmits cfg x = true) :
    rootEngine cfg n x lane = .ok (rootValue cfg n x) := by
  unfold rootEngine; rw [if_pos h]

theorem rootEngine_of_not_admits {cfg : Config} {x : F32} (n : RootIndex) (lane : Nat)
    (h : rootAdmits cfg x = false) : rootEngine cfg n x lane = .error ⟨.domainRoot, lane⟩ := by
  unfold rootEngine; rw [if_neg (by simp [h])]

/-! `lab_forward`, `luv_lightness` and `srgb_encode` (R130, R135, R121): the segment or the root's value on everything
but NaN and +∞, a fault on those. -/

theorem labForward_of_stageOk (cfg : Config) {v : F32} (lane : Nat) (hv : rootStageOk v = true) :
    labForward cfg v lane = .ok (labForwardValue cfg v) := by
  unfold labForward labForwardValue
  split
  · rfl
  · rename_i h
    exact rootEngine_of_admits _ _
      (rootAdmits_of_gt cfg (k := labT) hv (by decide +kernel) (by decide +kernel) (by simpa using h))

theorem labForward_of_not_stageOk (cfg : Config) {v : F32} (lane : Nat) (hv : rootStageOk v = false) :
    labForward cfg v lane = .error ⟨.domainRoot, lane⟩ := by
  obtain ⟨h1, h2⟩ := fle_and_rootAdmits_of_not_ok cfg (k := labT) hv (by decide +kernel)
  unfold labForward; rw [h1, rootEngine_of_not_admits _ _ h2]; rfl

theorem luvLightness_of_stageOk (cfg : Config) {y yw : F32} (h : rootStageOk (fdiv y yw) = true) :
    luvLightness cfg y yw = .ok (lightnessValue cfg (fdiv y yw)) := by
  unfold luvLightness lightnessValue
  simp only
  split
  · rfl
  · rename_i hle
    rw [rootEngine_of_admits _ _
      (rootAdmits_of_gt cfg (k := labT) h (by decide +kernel) (by decide +kernel) (by simpa using hle))]
    rfl

theorem luvLightness_of_not_stageOk (cfg : Config) {y yw : F32} (h : rootStageOk (fdiv y yw) = false) :
    luvLightness cfg y yw = .error ⟨.domainRoot, 1⟩ := by
  obtain ⟨h1, h2⟩ := fle_and_rootAdmits_of_not_ok cfg (k := labT) h (by decide +kernel)
  unfold luvLightness
  simp only [h1, rootEngine_of_not_admits _ _ h2]
  rfl

theorem srgbEncode_of_stageOk (cfg : Config) {v : F32} (lane : Nat) (hv : rootStageOk v = true) :
    srgbEncode cfg v lane = .ok (encodeValue cfg v) := by
  unfold srgbEncode encodeValue
  split
  · rfl
  · rename_i h
    rw [rootEngine_of_admits _ _
      (rootAdmits_of_gt cfg (k := kEncT) hv (by decide +kernel) (by decide +kernel) (by simpa using h))]
    rfl

theorem srgbEncode_of_not_stageOk (cfg : Config) {v : F32} (lane : Nat) (hv : rootStageOk v = false) :
    srgbEncode cfg v lane = .error ⟨.domainRoot, lane⟩ := by
  obtain ⟨h1, h2⟩ := fle_and_rootAdmits_of_not_ok cfg (k := kEncT) hv (by decide +kernel)
  unfold srgbEncode; rw [h1, rootEngine_of_not_admits _ _ h2]; rfl

/-! `srgb_decode` (R120): the argument of its root is a positive normal number for every finite operand. -/

/-- A positive number of at least 2^-9 plus 0.055 is finite and at least 2^-10. -/
theorem fadd_k055_of_gt {v : F32} (hv : isFinite v = true) (h : fle v kDecT = false) :
    isFinite (fadd v k055) = true ∧ signBit (fadd v k055) = false ∧ 2 ^ 139 ≤ mag (fadd v k055) := by
  have hlt : units kDecT < units v := by
    have : isNaN kDecT = false := by decide +kernel
    simpa [fle, isNaN_eq_false_of_isFinite hv, this] using h
  have hk : (2 : Int) ^ 140 < units kDecT := by decide +kernel
  have h0 : (0 : Int) < 2 ^ 140 := by norm_num
  have hk0 : (0 : Int) < units k055 := by decide +kernel
  have hk1 : units k055 < (2 : Int) ^ 150 := by decide +kernel
  obtain ⟨hs, -⟩ := mag_pos_of_units_pos (x := v) (by linarith)
  have hum := units_eq_mag hs
  have hmv := mag_le_of_isFinite hv
  rw [fadd_of_pos hv (by decide +kernel) (by linarith)]
  generalize hn : (units v + units k055).natAbs = n
  have hn' : (n : Int) = mag v + units k055 := by rw [← hn, ← hum]; exact Int.natAbs_of_nonneg (by linarith)
  have hlow : 2 ^ 140 < n := by
    have : (2 : Int) ^ 140 < n := by linarith
    exact_mod_cast this
  have hhi : n < (2 ^ 24 - 1) * 2 ^ 253 + 2 ^ 150 := by
    have h2 : (mag v : Int) ≤ ((2 ^ 24 - 1) * 2 ^ 253 : Nat) := by exact_mod_cast hmv
    have : (n : Int) < ((2 ^ 24 - 1) * 2 ^ 253 + 2 ^ 150 : Nat) := by push_cast at h2 ⊢; linarith
    exact_mod_cast this
  have hfin : roundMag n 1 < infPattern :=
    roundMag_lt_of_lt (by norm_num) (lt_trans hhi (by decide +kernel))
  refine ⟨isFinite_pack _ hfin, signBit_pack _ (by unfold infPattern at hfin; omega), ?_⟩
  rw [mag_pack_roundMag false (by norm_num) hfin]
  have hex : excessBits n 1 ≠ 0 := by
    have : 140 ≤ (n / 1).log2 := (Nat.le_log2 (by omega)).2 (by omega)
    unfold excessBits; omega
  have h3 : 2 ^ 23 * 2 ^ excessBits n 1 ≤ roundedSig n 1 * 2 ^ excessBits n 1 :=
    Nat.mul_le_mul_right _ (le_roundedSig (by norm_num) hex)
  have h4 := lt_excessBits n (d := 1) (by norm_num)
  have h5 : 2 ^ 23 * 2 ^ excessBits n 1 * 2 = 2 ^ 24 * (1 * 2 ^ excessBits n 1) := by ring
  have e : (2 : Nat) ^ 140 = 2 ^ 139 * 2 := by norm_num
  omega

/-- The argument of the root is a number the engine takes. -/
theorem rootAdmits_decode_arg (cfg : Config) {v : F32} (hv : isFinite v = true) (h : fle v kDecT = false) :
    rootAdmits cfg (fdiv (fadd v k055) k1055) = true := by
  obtain ⟨hd, hs, hlow⟩ := fadd_k055_of_gt hv h
  generalize fadd v k055 = x at hd hs hlow
  rw [fdiv_of_finite hd (by decide +kernel) (by decide +kernel), hs, show signBit k1055 = false by decide +kernel]
  have hmk : 2 ^ 149 < mag k1055 ∧ mag k1055 < 2 ^ 150 := by decide +kernel
  generalize mag k1055 = d at hmk
  have hu : unitsPerOne = 2 ^ 149 := rfl
  have hf : roundMag (unitsPerOne * mag x) d < infPattern := by
    refine roundMag_lt_of_lt (by omega) ?_
    rw [hu]
    calc 2 ^ 149 * mag x ≤ 2 ^ 149 * ((2 ^ 24 - 1) * 2 ^ 253) := Nat.mul_le_mul_left _ (mag_le_of_isFinite hd)
      _ < (2 ^ 25 - 1) * (2 ^ 252 * 2 ^ 149) := by decide +kernel
      _ ≤ (2 ^ 25 - 1) * (2 ^ 252 * d) := Nat.mul_le_mul_left _ (Nat.mul_le_mul_left _ (by omega))
  have hpos : 2 ^ 23 ≤ mag (pack false (roundMag (unitsPerOne * mag x) d)) := by
    rw [mag_pack_roundMag false (by omega) hf]
    have hle : 2 ^ 100 ≤ (unitsPerOne * mag x) / d := by
      rw [Nat.le_div_iff_mul_le (by omega), hu]
      calc 2 ^ 100 * d ≤ 2 ^ 100 * 2 ^ 150 := Nat.mul_le_mul_left _ (by omega)
        _ ≤ 2 ^ 149 * 2 ^ 139 := by norm_num
        _ ≤ _ := Nat.mul_le_mul_left _ hlow
    have hex : excessBits (unitsPerOne * mag x) d ≠ 0 := by
      have : 100 ≤ ((unitsPerOne * mag x) / d).log2 :=
        (Nat.le_log2 (by have : 0 < 2 ^ 100 := by norm_num
                         omega)).2 hle
      unfold excessBits; omega
    have h1 := le_roundedSig (n := unitsPerOne * mag x) (d := d) (by omega) hex
    calc 2 ^ 23 ≤ roundedSig (unitsPerOne * mag x) d * 1 := by omega
      _ ≤ _ := Nat.mul_le_mul_left _ Nat.one_le_two_pow
  have hqs : signBit (pack false (roundMag (unitsPerOne * mag x) d)) = false :=
    signBit_pack _ (by unfold infPattern at hf; omega)
  have hqf := isFinite_pack false hf
  rw [show (false != false) = false from rfl]
  generalize pack false (roundMag (unitsPerOne * mag x) d) = q at *
  have he : expField q ≠ 0 := by
    intro h0
    rw [mag, if_pos h0] at hpos
    have := fracField_lt q
    omega
  simp [rootAdmits, hqs, hqf, isZero, he]

theorem srgbDecode_of_isFinite (cfg : Config) {v : F32} (lane : Nat) (hv : isFinite v = true) :
    srgbDecode cfg v lane = .ok (decodeValue cfg v) := by
  unfold srgbDecode decodeValue
  split
  · rfl
  · rename_i h
    rw [rootEngine_of_admits _ _ (rootAdmits_decode_arg cfg hv (by simpa using h))]
    rfl

/-! The faults of an evaluation past the operand check: a root's alone, with a lane (R220). -/

/-- Every fault of an evaluation is DOMAIN_ROOT with a lane. -/
abbrev OnlyRootFaults {α : Type} (e : Eval α) : Prop := ∀ f, e = .error f → f.code = .domainRoot ∧ f.info ≤ 2

theorem onlyRootFaults_ok {α : Type} (v : α) : OnlyRootFaults (.ok v : Eval α) := by intro f h; cases h

theorem onlyRootFaults_bind {α β : Type} {e : Eval α} {g : α → Eval β} (h : OnlyRootFaults e)
    (hg : ∀ v, OnlyRootFaults (g v)) : OnlyRootFaults (e >>= g) := by
  intro f hf
  cases e with
  | error f' => cases hf; exact h _ rfl
  | ok v => exact hg v f hf

theorem onlyRootFaults_rootEngine (cfg : Config) (n : RootIndex) (x : F32) {lane : Nat} (h : lane ≤ 2) :
    OnlyRootFaults (rootEngine cfg n x lane) := by
  intro f hf
  unfold rootEngine at hf
  split at hf <;> cases hf
  exact ⟨rfl, h⟩

theorem onlyRootFaults_lanewise {g : F32 → Nat → Eval F32} (h : ∀ v, ∀ lane ≤ 2, OnlyRootFaults (g v lane))
    (c : Triple F32) : OnlyRootFaults (lanewise g c) :=
  onlyRootFaults_bind (h _ 0 (by omega)) fun _ => onlyRootFaults_bind (h _ 1 (by omega)) fun _ =>
    onlyRootFaults_bind (h _ 2 (by omega)) fun _ => onlyRootFaults_ok _

theorem onlyRootFaults_srgbDecode (cfg : Config) (v : F32) (lane : Nat) (h : lane ≤ 2) :
    OnlyRootFaults (srgbDecode cfg v lane) := by
  unfold srgbDecode
  split
  · exact onlyRootFaults_ok _
  · exact onlyRootFaults_bind (onlyRootFaults_rootEngine _ _ _ h) fun _ => onlyRootFaults_ok _

theorem onlyRootFaults_srgbEncode (cfg : Config) (v : F32) (lane : Nat) (h : lane ≤ 2) :
    OnlyRootFaults (srgbEncode cfg v lane) := by
  unfold srgbEncode
  split
  · exact onlyRootFaults_ok _
  · exact onlyRootFaults_bind (onlyRootFaults_rootEngine _ _ _ h) fun _ => onlyRootFaults_ok _

theorem onlyRootFaults_labForward (cfg : Config) (v : F32) (lane : Nat) (h : lane ≤ 2) :
    OnlyRootFaults (labForward cfg v lane) := by
  unfold labForward
  split
  · exact onlyRootFaults_ok _
  · exact onlyRootFaults_rootEngine _ _ _ h

theorem onlyRootFaults_xyzToLab (cfg : Config) (w c : Triple F32) : OnlyRootFaults (xyzToLab cfg w c) :=
  onlyRootFaults_bind (onlyRootFaults_labForward _ _ 0 (by omega)) fun _ =>
    onlyRootFaults_bind (onlyRootFaults_labForward _ _ 1 (by omega)) fun _ =>
      onlyRootFaults_bind (onlyRootFaults_labForward _ _ 2 (by omega)) fun _ => onlyRootFaults_ok _

theorem onlyRootFaults_xyzToLuvPw (cfg : Config) (yw upw vpw : F32) (c : Triple F32) :
    OnlyRootFaults (xyzToLuvPw cfg yw upw vpw c) := by
  refine onlyRootFaults_bind ?_ fun _ => onlyRootFaults_ok _
  unfold luvLightness
  simp only
  split
  · exact onlyRootFaults_ok _
  · exact onlyRootFaults_bind (onlyRootFaults_rootEngine _ _ _ (by omega)) fun _ => onlyRootFaults_ok _

/-! The zero test of R134, R137 and R141. -/

/-- A comparison with +0 holds exactly of the two zeros. -/
theorem feq_zero32 (x : F32) : feq x zero32 = isZero x := by
  have h0 : units zero32 = 0 := by decide
  have hn : isNaN zero32 = false := by decide
  have hm := mag_eq_zero_iff x
  have hu : units x = 0 ↔ mag x = 0 := by unfold units; split <;> omega
  cases hz : isZero x
  · have : units x ≠ 0 := by rw [Ne, hu, hm, hz]; simp
    simp [feq, h0, this]
  · have hx : units x = 0 := by rw [hu, hm, hz]
    have hnx : isNaN x = false := by
      have : expField x = 0 := by simp [isZero] at hz; exact hz.1
      simp [isNaN, this]
    simp [feq, h0, hx, hn, hnx]

end Sys2Proof.Machine
end

