-- ==== Sys2Proof/Laws/Batch.lean ====
section
/-! SUPPORT. The batch converter: what each phase's step answers, and on which fields it depends. -/

namespace Sys2Proof.Machine

/-- Outside a walk the step of a BATCH is its entry step (R265). -/
theorem batchStep_of_not_walk (p : Pid) {s : State} (h : ∀ k, s.phase ≠ .walk k) : batchStep p s = batchEntry p s := by
  unfold batchStep
  split
  · exact absurd ‹_› (h _)
  · rfl
  · rfl

/-- In a walk that has a pixel left, whose bytes exist, the step converts that pixel: it writes the three bytes it
gives and moves on (R192). -/
theorem batchStep_of_walk_ok (p : Pid) {s : State} {k : Nat} {q : Triple Byte} (hw : s.phase = .walk k)
    (hk : k < s.npix) (hb : s.pixelAddr k + 2 < s.cfg.memBytes)
    (hc : convertPixel p s k (s.pixelBytes k) = .ok q) :
    batchStep p s = .next ((writePixel s (s.pixelAddr k) q).advanceTo (k + 1)) := by
  unfold batchStep
  rw [hw]
  simp only [hk, if_true, pixelStep, readPixel_eq, hb, hc]

/-- The same step where the pixel faults (R193). -/
theorem batchStep_of_walk_error (p : Pid) {s : State} {k : Nat} {f : OpFault} (hw : s.phase = .walk k)
    (hk : k < s.npix) (hb : s.pixelAddr k + 2 < s.cfg.memBytes)
    (hc : convertPixel p s k (s.pixelBytes k) = .error f) : batchStep p s = .next (s.raise f) := by
  unfold batchStep
  rw [hw]
  simp only [hk, if_true, pixelStep, readPixel_eq, hb, hc]

/-- In a walk that has no pixel left the BATCH ends (R265). -/
theorem batchStep_of_walk_end (p : Pid) {s : State} {k : Nat} (hw : s.phase = .walk k) (hk : s.npix ≤ k) :
    batchStep p s = .next s.complete := by
  unfold batchStep
  rw [hw]
  simp [Nat.not_lt.2 hk]

/-- The entry checks read the parameters, the buffer, the scales and the white registers only (R191). -/
theorem batchEntryCheck_congr (p : Pid) {s t : State} (hcfg : t.cfg = s.cfg) (haddr : t.bufAddr = s.bufAddr)
    (hoff : t.bufOff = s.bufOff) (hlen : t.bufLen = s.bufLen) (hin : t.inScale = s.inScale)
    (hout : t.outScale = s.outScale) (hx : t.wx = s.wx) (hy : t.wy = s.wy) (hz : t.wz = s.wz) (hu : t.wup = s.wup)
    (hv : t.wvp = s.wvp) : batchEntryCheck p t = batchEntryCheck p s := by
  have h1 : checkFinite t scaleRegs = checkFinite s scaleRegs :=
    checkFinite_congr (by simp [scaleRegs, State.get, hin, hout])
  have h2 : checkFinite t (pidWhiteRegs p) = checkFinite s (pidWhiteRegs p) :=
    checkFinite_congr (by cases p <;> simp [pidWhiteRegs, State.get, hx, hy, hz, hu, hv])
  unfold batchEntryCheck State.batchStart State.npix
  rw [hcfg, haddr, hoff, hlen, h1, h2]

/-- A range that passes the entry checks is inside the memory (R191). -/
theorem le_memBytes_of_batchEntryCheck {p : Pid} {s : State} (h : batchEntryCheck p s = .ok ()) :
    s.batchStart + 4 * s.npix ≤ s.cfg.memBytes := by
  unfold batchEntryCheck at h
  split at h
  · cases h
  · omega

/-- The pixel conversion reads the parameters, the scales and the white registers only (R192). -/
theorem convertPixel_congr (p : Pid) {s t : State} (k : Nat) (b : Triple Byte) (hcfg : t.cfg = s.cfg)
    (hin : t.inScale = s.inScale) (hout : t.outScale = s.outScale) (hx : t.wx = s.wx) (hy : t.wy = s.wy)
    (hz : t.wz = s.wz) (hu : t.wup = s.wup) (hv : t.wvp = s.wvp) :
    convertPixel p t k b = convertPixel p s k b := by
  have hw : t.white = s.white := by simp only [State.white, hx, hy, hz]
  have hp : ∀ c, pipe p t c = pipe p s c := by
    intro c; cases p <;> simp only [pipe, hcfg, hw, hy, hu, hv]
  unfold convertPixel
  simp only [hcfg, hin, hout, hp]

/-- A fault inside a pixel carries the pixel's index (R192). -/
theorem info_of_convertPixel {p : Pid} {s : State} {k : Nat} {b : Triple Byte} {f : OpFault}
    (h : convertPixel p s k b = .error f) : f.info = k := by
  unfold convertPixel atPixel at h
  split at h
  · cases h
  · simp only [Except.error.injEq] at h
    rw [← h]

theorem decodePixel_of_finite {scale : Triple F32} {b : Triple Byte} (h : (channelsOf scale b).Finite) :
    decodePixel scale b = .ok (channelsOf scale b) := by
  obtain ⟨h0, h1, h2⟩ := h
  simp only [channelsOf] at h0 h1 h2
  simp only [decodePixel, decodeChannel, h0, h1, h2, if_true]
  rfl

theorem decodePixel_of_not_finite {scale : Triple F32} {b : Triple Byte} (h : ¬(channelsOf scale b).Finite) :
    decodePixel scale b = .error ⟨.domainOperand, 0⟩ := by
  simp only [Triple.Finite, channelsOf] at h
  simp only [decodePixel, decodeChannel]
  by_cases h0 : isFinite (fdiv (i2f b.c0.toNat) scale.c0) = true
  · by_cases h1 : isFinite (fdiv (i2f b.c1.toNat) scale.c1) = true
    · simp only [h0, h1, show ¬isFinite (fdiv (i2f b.c2.toNat) scale.c2) = true by tauto, if_true]; rfl
    · simp only [h0, h1, if_true]; rfl
  · simp only [h0]; rfl

theorem quantizeTriple_of_not_nan {cfg : Config} {o scale : Triple F32} (info : Nat → Nat)
    (h : AllPass (fun x => !isNaN x) (mulLanes o scale)) :
    quantizeTriple cfg o scale info = .ok ((mulLanes o scale).map (clampByte cfg.qround)) := by
  obtain ⟨h0, h1, h2⟩ := h
  simp only [mulLanes, Bool.not_eq_true'] at h0 h1 h2
  simp only [quantizeTriple, quantize, h0, h1, h2]
  rfl

theorem quantizeTriple_of_nan {cfg : Config} {o scale : Triple F32} (k : Nat)
    (h : ¬AllPass (fun x => !isNaN x) (mulLanes o scale)) :
    quantizeTriple cfg o scale (fun _ => k) = .error ⟨.quantNan, k⟩ := by
  simp only [AllPass, mulLanes, Bool.not_eq_true'] at h
  simp only [quantizeTriple, quantize]
  by_cases h0 : isNaN (fmul o.c0 scale.c0) = false
  · by_cases h1 : isNaN (fmul o.c1 scale.c1) = false
    · have h2 : isNaN (fmul o.c2 scale.c2) = true := by
        by_contra hc
        exact h ⟨h0, h1, by simpa using hc⟩
      simp only [h0, h1, h2, if_true]; rfl
    · simp only [Bool.not_eq_false] at h1
      simp only [h0, h1, if_true]; rfl
  · simp only [Bool.not_eq_false] at h0
    simp only [h0]; rfl

/-- The bytes of the pixel just written (R192). -/
theorem pixelBytes_writePixel {s : State} (hm : Memory.wf s.mem) (k : Nat) (q : Triple Byte) :
    (writePixel s (s.pixelAddr k) q).pixelBytes k = q := by
  have h : (writePixel s (s.pixelAddr k) q).pixelAddr k = s.pixelAddr k := rfl
  simp only [State.pixelBytes, h, byteAt_writePixel hm]
  cases q
  simp

/-- The bytes of another pixel stay (R53, R192). -/
theorem pixelBytes_writePixel_of_ne (s : State) {j k : Nat} (q : Triple Byte) (h : j ≠ k) :
    (writePixel s (s.pixelAddr k) q).pixelBytes j = s.pixelBytes j := by
  have hj : (writePixel s (s.pixelAddr k) q).pixelAddr j = s.pixelAddr j := rfl
  have hne : ∀ d ≤ 2, ∀ e ≤ 2, s.pixelAddr j + d ≠ s.pixelAddr k + e := by
    intro d hd e he
    unfold State.pixelAddr
    omega
  have hb : ∀ d ≤ 2, (writePixel s (s.pixelAddr k) q).byteAt (s.pixelAddr j + d) = s.byteAt (s.pixelAddr j + d) :=
    fun d hd => byteAt_writePixel_of_ne s _ _ q (hne d hd 0 (by omega)) (hne d hd 1 (by omega)) (hne d hd 2 (by omega))
  have h0 := hb 0 (by omega)
  simp only [Nat.add_zero] at h0
  simp only [State.pixelBytes, hj, h0, hb 1 (by omega), hb 2 (by omega)]

end Sys2Proof.Machine
end

