-- ==== Sys2Proof/Laws/PerInstr.lean ====
section
/-! SUPPORT. What holds of every instruction as syntax, one lemma per constructor. -/

namespace Sys2Proof.Laws.EncodingFields

/-- The word of an operation carries the four fields R72 and R73 give it, they are legal, every bit above W is zero
(R70), and the word decodes back (R76). -/
def Statement (i : Instr) : Prop :=
  CmdFields.ofWord (encode i) = i.fields ∧ i.fields.wf = true ∧ (encode i).toNat < 2 ^ 13 ∧ decode (encode i) = .ok i

theorem nop : Statement .nop := by unfold Statement; decide
theorem root3 : Statement .root3 := by unfold Statement; decide
theorem root5 : Statement .root5 := by unfold Statement; decide
theorem root12 : Statement .root12 := by unfold Statement; decide
theorem srgbDec : Statement .srgbDec := by unfold Statement; decide
theorem srgbEnc : Statement .srgbEnc := by unfold Statement; decide
theorem labFwd : Statement .labFwd := by unfold Statement; decide
theorem labInv : Statement .labInv := by unfold Statement; decide
theorem xyz2lab : Statement .xyz2lab := by unfold Statement; decide
theorem lab2xyz : Statement .lab2xyz := by unfold Statement; decide
theorem uvp : Statement .uvp := by unfold Statement; decide
theorem xyz2luv : Statement .xyz2luv := by unfold Statement; decide
theorem xyz2luvPw : Statement .xyz2luvPw := by unfold Statement; decide
theorem luv2xyz : Statement .luv2xyz := by unfold Statement; decide
theorem luv2xyzPw : Statement .luv2xyzPw := by unfold Statement; decide
theorem wset : Statement .wset := by unfold Statement; decide
theorem matFwd : Statement .matFwd := by unfold Statement; decide
theorem matInv : Statement .matInv := by unfold Statement; decide
theorem srgb2xyz : Statement .srgb2xyz := by unfold Statement; decide
theorem xyz2srgb : Statement .xyz2srgb := by unfold Statement; decide
theorem srgb2lab : Statement .srgb2lab := by unfold Statement; decide
theorem lab2srgb : Statement .lab2srgb := by unfold Statement; decide
theorem quant : Statement .quant := by unfold Statement; decide
theorem batchSrgb2xyz : Statement .batchSrgb2xyz := by unfold Statement; decide
theorem batchXyz2srgb : Statement .batchXyz2srgb := by unfold Statement; decide
theorem batchSrgb2lin : Statement .batchSrgb2lin := by unfold Statement; decide
theorem batchLin2srgb : Statement .batchLin2srgb := by unfold Statement; decide
theorem batchSrgb2lab : Statement .batchSrgb2lab := by unfold Statement; decide
theorem batchLab2srgb : Statement .batchLab2srgb := by unfold Statement; decide
theorem batchXyz2lab : Statement .batchXyz2lab := by unfold Statement; decide
theorem batchLab2xyz : Statement .batchLab2xyz := by unfold Statement; decide
theorem batchXyz2luv : Statement .batchXyz2luv := by unfold Statement; decide
theorem batchLuv2xyz : Statement .batchLuv2xyz := by unfold Statement; decide

end Sys2Proof.Laws.EncodingFields
end

