-- ==== Sys2Proof/Tests/Slice0.lean ====
section
/-! SUPPORT. The model's own tests. Expected values come from spec/95_test_vectors.md (the row is named before each), or,
for a refusal of a field, from the rule named. The theorems `wit_<obligation>` show concrete states and operands that meet
the hypotheses of that obligation, with one per clause at the clause's boundary. -/

namespace Sys2Proof.Tests

open Sys2Proof.Machine

-- one kernel evaluation at a time: checked side by side, their stacks together pass the memory limit
set_option Elab.async false

/-! Helpers: small states, and what one step or operation leaves. -/

/-- The D65 white of V3 with an operand triple. -/
def colour (c0 c1 c2 : Word) : State :=
  { State.reset with
    a := ⟨c0, c1, c2⟩, wx := 0x3F735200, wy := 0x3F800000, wz := 0x3F8B5EC8, wup := 0x3E4A9685, wvp := 0x3EEFC9C6 }

/-- The state a step leaves. -/
def after (o : Host.Outcome State Fault Refusal) : Option State :=
  match o with
  | .next t => some t
  | .fault _ => none
  | .refused _ => none

/-- The machine stops with this fault. -/
def faultOf (o : Host.Outcome State Fault Refusal) : Option Fault :=
  match o with
  | .next _ => none
  | .fault f => some f
  | .refused _ => none

/-- The machine refuses with this reason. -/
def refusalOf (o : Host.Outcome State Fault Refusal) : Option Refusal :=
  match o with
  | .next _ => none
  | .fault _ => none
  | .refused r => some r

/-- One command, placed and run by one step. -/
def ran (i : Instr) (s : State) : Option State := after (step (s.withFetchWord 32 (encode i).toNat))

/-- R0 to R2, STATUS and ERR_INFO after one command. -/
def ends (i : Instr) (s : State) : Option (Triple Word × Word × Word) :=
  (ran i s).map fun t => (t.r, statusWord t, t.errInfo)

/-- 2.55, 1, 1: the Lab and Luv scales of V7. -/
def labScale : Triple Word := ⟨0x40233333, 0x3F800000, 0x3F800000⟩

def scale255 : Triple Word := ⟨0x437F0000, 0x437F0000, 0x437F0000⟩

/-- Bytes listed from address 0. -/
def bytesAt0 (l : List Nat) : List Host.Cell :=
  ((List.range l.length).zip l).foldl (fun m p => memSet m p.1 (BitVec.ofNat 8 p.2)) []

/-- A BATCH of `len` bytes at address 0 about to convert pixel k, in a memory of 256 bytes. -/
def walking (i : Instr) (k len : Nat) (scales : Triple Word × Triple Word) (l : List Nat) : State :=
  { colour 0 0 0 with
    cmd := encode i, phase := .walk k, batchIdx := BitVec.ofNat 32 k, bufLen := BitVec.ofNat 32 len
    inScale := scales.1, outScale := scales.2, mem := bytesAt0 l
    cfg := { refConfig with memBytes := 256 } }

/-- The four bytes of pixel k after the engine's step, and BATCH_IDX. -/
def pixelAfter (k : Nat) (s : State) : Option (List Nat × Nat) :=
  (after (engineStep s)).map fun t =>
    ([0, 1, 2, 3].map fun j => (t.byteAt (s.pixelAddr k + j)).toNat, t.batchIdx.toNat)

/-! Ill-formed fields: one refused for each check of WellFormed (R70, R72, R73). -/

theorem test_resOk_refuses : CmdFields.wf ⟨0x01, 0, 0, 1⟩ = false := by decide
theorem test_opOk_refuses : CmdFields.wf ⟨0x14, 0, 0, 0⟩ = false := by decide
theorem test_subOk_refuses_plain : CmdFields.wf ⟨0x09, 1, 0, 0⟩ = false := by decide
theorem test_subOk_refuses_root : CmdFields.wf ⟨0x01, 3, 0, 0⟩ = false := by decide
theorem test_subOk_refuses_batch : CmdFields.wf ⟨0x13, 10, 0, 0⟩ = false := by decide
theorem test_wOk_refuses : CmdFields.wf ⟨0x0B, 0, 1, 0⟩ = false := by decide
theorem test_wf_accepts : CmdFields.wf ⟨0x0A, 0, 1, 0⟩ = true ∧ CmdFields.wf ⟨0x13, 9, 0, 0⟩ = true := by decide

/-! Decoding, from words written out bit by bit: RES (19 bits), W, SUB, OP (R70, R72, R73, V8). -/

theorem test_decode_root12 : decode 0b0000000000000000000_0_0010_00000001#32 = .ok .root12 := by decide
theorem test_decode_labInv : decode 0b0000000000000000000_0_0000_00000101#32 = .ok .labInv := by decide
theorem test_decode_luv2xyzPw : decode 0b0000000000000000000_1_0000_00001010#32 = .ok .luv2xyzPw := by decide
theorem test_decode_matFwd : decode 0b0000000000000000000_0_0000_00001100#32 = .ok .matFwd := by decide
theorem test_decode_srgb2lab : decode 0b0000000000000000000_0_0000_00010000#32 = .ok .srgb2lab := by decide
theorem test_decode_quant : decode 0b0000000000000000000_0_0000_00010010#32 = .ok .quant := by decide
theorem test_decode_batchXyz2luv : decode 0b0000000000000000000_0_1000_00010011#32 = .ok .batchXyz2luv := by decide

/-- V8: the ILLEGAL words, each with its reason. -/
theorem test_decode_illegal :
    decode 0x00000301 = .error .reservedSub ∧ decode 0x00001001 = .error .reservedW ∧
    decode 0x00000109 = .error .reservedSub ∧ decode 0x00001002 = .error .reservedW ∧
    decode 0x00000A13 = .error .reservedSub ∧ decode 0x00001013 = .error .reservedW ∧
    decode 0x00000014 = .error .reservedOp ∧ decode 0x000000FF = .error .reservedOp ∧
    decode 0x00002001 = .error .reservedBits ∧ decode 0x80000000 = .error .reservedBits := by decide

/-! One command each (the V-row named). -/

/-- V5, NOP: only STATUS changes. -/
theorem test_nop :
    ends .nop (colour 0x3F800000 0x3F800000 0x3F800000) = some (⟨0x00000000, 0x00000000, 0x00000000⟩, 0x00000002#32, 0x00000000#32) := by decide +kernel

/-- V1, 8, 0.5 and 27; P1. -/
theorem test_root3 :
    ends .root3 (colour 0x41000000 0x3F000000 0x41D80000) = some (⟨0x4000006F, 0x3F4B30A5, 0x403FFFA7⟩, 0x00000002#32, 0x00000000#32) := by decide +kernel

/-- V10, ROOT.3 of (8, 0, 8). -/
theorem test_root3_fault :
    ends .root3 (colour 0x41000000 0x00000000 0x41000000) = some (⟨0x00000000, 0x00000000, 0x00000000⟩, 0x00000306#32, 0x00000001#32) := by decide +kernel

/-- V1, 32, 1 and 0.1. -/
theorem test_root5 :
    ends .root5 (colour 0x42000000 0x3F800000 0x3DCCCCCD) = some (⟨0x4000005A, 0x3F80005A, 0x3F218630⟩, 0x00000002#32, 0x00000000#32) := by decide +kernel

/-- V1, 4096, 1e-20 and the largest binary32. -/
theorem test_root12 :
    ends .root12 (colour 0x45800000 0x1E3CE508 0x7F7FFFFF) = some (⟨0x40000030, 0x3CB07DD0, 0x44CB2FCC⟩, 0x00000002#32, 0x00000000#32) := by decide +kernel

/-- V10, ROOT.12 of (+∞, 1, 1). -/
theorem test_root12_fault :
    ends .root12 (colour 0x7F800000 0x3F800000 0x3F800000) = some (⟨0x00000000, 0x00000000, 0x00000000⟩, 0x00000206#32, 0x00000010#32) := by decide +kernel

/-- S2. -/
theorem test_srgbDec :
    ends .srgbDec (colour 0x3DA0A0A1 0x3DF0F0F1 0x3EC8C8C9) = some (⟨0x3BE53D45, 0x3C54BBD8, 0x3E027CBE⟩, 0x00000002#32, 0x00000000#32) := by decide +kernel

/-- V2, the threshold, the number above it, and 0.5. -/
theorem test_srgbDec_segments :
    ends .srgbDec (colour 0x3D25AEE6 0x3D25AEE7 0x3F000000) = some (⟨0x3B4D2E31, 0x3B4D309E, 0x3E5B290C⟩, 0x00000002#32, 0x00000000#32) := by decide +kernel

/-- V2, 0.2, 0.5 and 1. -/
theorem test_srgbEnc :
    ends .srgbEnc (colour 0x3E4CCCCD 0x3F000000 0x3F800000) = some (⟨0x3EF81312, 0x3F3C41D3, 0x3F8000FD⟩, 0x00000002#32, 0x00000000#32) := by decide +kernel

/-- V2, the threshold, the number above it, and −0.1. -/
theorem test_srgbEnc_segments :
    ends .srgbEnc (colour 0x3B4D2E1C 0x3B4D2E1D 0xBDCCCCCD) = some (⟨0x3D25AED5, 0x3D25AD3A, 0xBFA56042⟩, 0x00000002#32, 0x00000000#32) := by decide +kernel

/-- V3, the threshold, the number above it, and −0.1. -/
theorem test_labFwd :
    ends .labFwd (colour 0x3C111AA7 0x3C111AA8 0xBDCCCCCD) = some (⟨0x3E53DCB0, 0x3E53DC2C, 0xBF2409AD⟩, 0x00000002#32, 0x00000000#32) := by decide +kernel

/-- V3, the threshold, the number above it, and 1e13: +∞ is no fault. -/
theorem test_labInv :
    ends .labInv (colour 0x3E53DCB1 0x3E53DCB2 0x551184E7) = some (⟨0x3C111AA8, 0x3C111AAA, 0x7F800000⟩, 0x00000002#32, 0x00000000#32) := by decide +kernel

/-- S3. -/
theorem test_xyz2lab :
    ends .xyz2lab (colour 0x3EE2AC32 0x3E8FFD61 0x3E0FBD27) = some (⟨0x426FFEE2, 0x427005A6, 0x41EFFD6D⟩, 0x00000002#32, 0x00000000#32) := by decide +kernel

/-- V10, WZ = NaN. -/
theorem test_xyz2lab_fault :
    ends .xyz2lab { colour 0x3F000000 0x3F000000 0x3F000000 with wz := 0x7FC00000#32 } = some (⟨0x00000000, 0x00000000, 0x00000000⟩, 0x00000206#32, 0x00000038#32) := by decide +kernel

/-- S3: (60, 60, 30). -/
theorem test_lab2xyz :
    ends .lab2xyz (colour 0x42700000 0x42700000 0x41F00000) = some (⟨0x3EE2ACC1, 0x3E8FFDD1, 0x3E0FBD8B⟩, 0x00000002#32, 0x00000000#32) := by decide +kernel

/-- V3, calc_uv_prime of D65. -/
theorem test_uvp :
    ends .uvp (colour 0x3F735200 0x3F800000 0x3F8B5EC8) = some (⟨0x3E4A9685, 0x3EEFC9C6, 0x00000000⟩, 0x00000002#32, 0x00000000#32) := by decide +kernel

/-- V3, calc_uv_prime of (−15, 1, 0). -/
theorem test_uvp_zero :
    ends .uvp (colour 0xC1700000 0x3F800000 0x00000000) = some (⟨0x00000000, 0x00000000, 0x00000000⟩, 0x00000002#32, 0x00000000#32) := by decide +kernel

/-- V3, xyz_to_luv_pw of (0, 0x3C111AA8, 0): the root side of the threshold; calc_uv_prime of D65 is the WUP and WVP of the row. -/
theorem test_xyz2luv :
    ends .xyz2luv (colour 0x00000000 0x3C111AA8 0x00000000) = some (⟨0x40FFFE20, 0xC1A49917, 0x415B1504⟩, 0x00000002#32, 0x00000000#32) := by decide +kernel

/-- V3, xyz_to_luv_pw of D65 with D65 white. -/
theorem test_xyz2luv_full :
    ends .xyz2luv (colour 0x3F735200 0x3F800000 0x3F8B5EC8) = some (⟨0x42C800C9, 0x00000000, 0x00000000⟩, 0x00000002#32, 0x00000000#32) := by decide +kernel

/-- V10, WY = +0. -/
theorem test_xyz2luvPw_fault :
    ends .xyz2luvPw { colour 0x3DCCCCCD 0x3DCCCCCD 0x3DCCCCCD with wy := 0x00000000#32 } = some (⟨0x00000000, 0x00000000, 0x00000000⟩, 0x00000306#32, 0x00000001#32) := by decide +kernel

/-- S6: (0, 0, 0). -/
theorem test_xyz2luvPw_zero :
    ends .xyz2luvPw (colour 0x00000000 0x00000000 0x00000000) = some (⟨0x00000000, 0x80000000, 0x80000000⟩, 0x00000002#32, 0x00000000#32) := by decide +kernel

/-- V3, luv_to_xyz_pw of (100, 0, 0), with the same white. -/
theorem test_luv2xyz :
    ends .luv2xyz (colour 0x42C80000 0x00000000 0x00000000) = some (⟨0x3F735200, 0x3F800000, 0x3F8B5ECA⟩, 0x00000002#32, 0x00000000#32) := by decide +kernel

/-- V3, luv_to_xyz_pw of (5, 1, 1). -/
theorem test_luv2xyzPw :
    ends .luv2xyzPw (colour 0x40A00000 0x3F800000 0x3F800000) = some (⟨0x3BB3E49D, 0x3BB56150, 0x3B9E0A6E⟩, 0x00000002#32, 0x00000000#32) := by decide +kernel

/-- V3, luv_to_xyz_pw of (−0, 10, 10). -/
theorem test_luv2xyzPw_zero :
    ends .luv2xyzPw (colour 0x80000000 0x41200000 0x41200000) = some (⟨0x00000000, 0x00000000, 0x00000000⟩, 0x00000002#32, 0x00000000#32) := by decide +kernel

/-- V3, WSET of (0.3127, 0.3290, 1); P4. -/
theorem test_wset :
    (ran .wset (colour 0x3EA01A37 0x3EA872B0 0x3F800000)).map (fun t => [t.wx, t.wy, t.wz, t.wup, t.wvp, t.r.c0]) =
      some [0x3F735115, 0x3F800000, 0x3F8B663E, 0x3E4A93F4, 0x3EEFC7A4, 0x00000000] := by decide +kernel

/-- V10, WSET of (0.3, 0, 1). -/
theorem test_wset_fault :
    ends .wset (colour 0x3E99999A 0x00000000 0x3F800000) = some (⟨0x00000000, 0x00000000, 0x00000000⟩, 0x00000606#32, 0x00000000#32) := by decide +kernel

/-- V4. -/
theorem test_matFwd :
    ends .matFwd (colour 0x3E5D0A89 0x00000000 0x3F800000) = some (⟨0x3E89F80B, 0x3DF1D552, 0x3F7458A3⟩, 0x00000002#32, 0x00000000#32) := by decide +kernel

/-- V4, MAT_INV of D65. -/
theorem test_matInv :
    ends .matInv (colour 0x3F735200 0x3F800000 0x3F8B5EC8) = some (⟨0x3F800000, 0x3F800001, 0x3F800000⟩, 0x00000002#32, 0x00000000#32) := by decide +kernel

/-- V5. -/
theorem test_srgb2xyz :
    ends .srgb2xyz (colour 0x3DA0A0A1 0x3DF0F0F1 0x3EC8C8C9) = some (⟨0x3CFA07CA, 0x3CA399A0, 0x3DFB73A4⟩, 0x00000002#32, 0x00000000#32) := by decide +kernel

/-- V5, XYZ2SRGB of D65. -/
theorem test_xyz2srgb :
    ends .xyz2srgb (colour 0x3F735200 0x3F800000 0x3F8B5EC8) = some (⟨0x3F8000FD, 0x3F8000FD, 0x3F8000FD⟩, 0x00000002#32, 0x00000000#32) := by decide +kernel

/-- V5. -/
theorem test_srgb2lab :
    ends .srgb2lab (colour 0x3DA0A0A1 0x3DF0F0F1 0x3EC8C8C9) = some (⟨0x41778DC2, 0x41BA26B2, 0xC229727B⟩, 0x00000002#32, 0x00000000#32) := by decide +kernel

/-- V5, the largest binary32 in each lane. -/
theorem test_srgb2lab_fault :
    ends .srgb2lab (colour 0x7F7FFFFF 0x7F7FFFFF 0x7F7FFFFF) = some (⟨0x00000000, 0x00000000, 0x00000000⟩, 0x00000306#32, 0x00000000#32) := by decide +kernel

/-- V5. -/
theorem test_lab2srgb :
    ends .lab2srgb (colour 0x41778DC2 0x41BA26B2 0xC229727B) = some (⟨0x3DA09D1B, 0x3DF0F5A1, 0x3EC8C76C⟩, 0x00000002#32, 0x00000000#32) := by decide +kernel

/-- V6, QUANT of (0.5, 0.2158605, 2). -/
theorem test_quant :
    ends .quant (colour 0x3F000000 0x3E5D0A89 0x40000000) = some (⟨0x00000080, 0x00000037, 0x000000FF⟩, 0x00000002#32, 0x00000000#32) := by decide +kernel

/-- V10, OUT_SCALE2 = +∞. -/
theorem test_quant_fault :
    ends .quant { colour 0x3F000000 0x3F000000 0x3F000000 with outScale := ⟨0x437F0000#32, 0x437F0000#32, 0x7F800000#32⟩ } = some (⟨0x00000000, 0x00000000, 0x00000000⟩, 0x00000206#32, 0x00000058#32) := by decide +kernel

/-! The pixel step of each BATCH (V7): a pixel of the row, its four bytes after, and BATCH_IDX. -/

theorem test_batchSrgb2xyz :
    pixelAfter 0 (walking .batchSrgb2xyz 0 18 (scale255, scale255) [20, 30, 100, 77]) = some ([8, 5, 31, 77], 1) := by decide +kernel

theorem test_batchXyz2srgb :
    pixelAfter 1 (walking .batchXyz2srgb 1 18 (scale255, scale255) [20, 30, 100, 77, 0, 128, 255, 200]) = some ([0, 253, 250, 200], 2) := by decide +kernel

theorem test_batchSrgb2lin :
    pixelAfter 0 (walking .batchSrgb2lin 0 6 (scale255, scale255) [20, 30, 100, 77, 5, 6]) = some ([2, 3, 32, 77], 1) := by decide +kernel

theorem test_batchLin2srgb :
    pixelAfter 3 (walking .batchLin2srgb 3 18 (scale255, scale255) [20, 30, 100, 77, 0, 128, 255, 200, 255, 255, 255, 0, 1, 2, 3, 4, 9, 9]) = some ([13, 22, 28, 4], 4) := by decide +kernel

theorem test_batchSrgb2lab :
    pixelAfter 0 (walking .batchSrgb2lab 0 8 (scale255, labScale) [255, 0, 0, 7]) = some ([136, 80, 67, 7], 1) := by decide +kernel

theorem test_batchLab2srgb :
    pixelAfter 1 (walking .batchLab2srgb 1 8 (labScale, scale255) [255, 0, 0, 7, 100, 0, 0, 3]) = some ([92, 92, 92, 3], 2) := by decide +kernel

theorem test_batchXyz2lab :
    pixelAfter 0 (walking .batchXyz2lab 0 8 (scale255, labScale) [113, 72, 36, 9]) = some ([153, 60, 30, 9], 1) := by decide +kernel

theorem test_batchLab2xyz :
    pixelAfter 0 (walking .batchLab2xyz 0 4 (labScale, scale255) [153, 60, 30, 9]) = some ([113, 72, 36, 9], 1) := by decide +kernel

theorem test_batchXyz2luv :
    pixelAfter 2 (walking .batchXyz2luv 2 12 (scale255, labScale) [41, 74, 41, 5, 0, 0, 0, 1, 255, 255, 255, 2]) = some ([255, 16, 7, 2], 3) := by decide +kernel

theorem test_batchLuv2xyz :
    pixelAfter 0 (walking .batchLuv2xyz 0 8 (labScale, scale255) [155, 0, 42, 5]) = some ([63, 74, 35, 5], 1) := by decide +kernel

/-! Whole-machine rows of V7, V9 and Part 3, one step each. -/

/-- P7: the range reaches past MEM_BYTES. -/
theorem test_bounds :
    (after (engineStep { walking .batchSrgb2lin 0 4 (scale255, scale255) [] with phase := .run, bufAddr := 0xFE })).map
      (fun t => (statusWord t, t.errInfo, t.batchIdx)) = some (0x00000506, 0x00000000, 0x00000000) := by decide +kernel

/-- V7, exact fit. -/
theorem test_exact_fit :
    (after (engineStep { walking .batchSrgb2lin 0 4 (scale255, scale255) [] with phase := .run, bufAddr := 0xFC })).map
      (·.phase) = some (.walk 0) := by decide +kernel

/-- V7, the address sum past 2^32 does not wrap. -/
theorem test_no_wrap :
    (after (engineStep { walking .batchSrgb2lin 0 4 (scale255, scale255) [] with
      phase := .run, bufAddr := 0xFFFFFFFF, bufOff := 1 })).map statusWord = some 0x00000506 := by decide +kernel

/-- P6: pixel 1 faults in the root; its bytes stay. -/
theorem test_pixel_fault :
    (after (engineStep { walking .batchXyz2lab 1 12 (scale255, labScale)
      [60, 0, 2, 1, 0, 5, 5, 2, 7, 7, 7, 3] with wx := 0x80000000 })).map
      (fun t => (statusWord t, t.errInfo, t.batchIdx, t.byteAt 5)) =
        some (0x00000306, 0x00000001, 0x00000001, 5) := by decide +kernel

/-- P5: a write dropped while busy sets WLOST. -/
theorem test_wlost :
    (after (hostStep (.wr (slotOf .a0) 0x3F800000) ((colour 0x41D80000 0 0).startCommand 1))).map
      (fun t => (t.a.c0, statusWord t)) = some (0x41D80000, 0x00000009) := by decide

/-- P3: a reserved word. -/
theorem test_illegal :
    (after (engineStep (State.reset.startCommand 0x14))).map (fun t => (statusWord t, t.errInfo)) =
      some (0x00000106, 0x00000000) := by decide

/-- R23: the acknowledge. -/
theorem test_ack :
    (after (hostStep (.wr (slotOf .status) 2) (State.reset.startCommand 0x14 |>.raise ⟨.illegalCmd, 0⟩))).map statusWord =
      some 0x00000000 := by decide

/-- R23, R77: `clrlost` on an idle block clears WLOST and acknowledges nothing. -/
theorem test_clrlost :
    (after (hostStep (.wr (slotOf .status) 8) { State.reset with status := ⟨true, true, true, 3⟩ })).map statusWord =
      some 0x00000306 := by decide

/-- R24, R230: IRQ follows IRQ_EN while DONE is 1. -/
theorem test_irq :
    (after (hostStep (.wr (slotOf .ctrl) 0xFFFFFFFF) State.reset.complete)).map (fun t => (t.irq, ctrlWord t)) =
      some (true, 0x00000001) := by decide

/-- The end of a BATCH of the bytes 0 to 3 whose DONE the host has not seen. -/
def unseen : State := { walking .batchSrgb2lin 0 4 (scale255, scale255) [] with phase := .idle, handed := [⟨0, 4⟩] }.complete

/-- R262: the CMD write hands the range over, the end step does not give it back, and a read of STATUS with DONE = 1
does; so does IRQ (R62, P4). -/
theorem test_ownership :
    (after (hostStep (.wr (slotOf .cmd) 0x00000213)
      { walking .batchSrgb2lin 0 4 (scale255, scale255) [] with phase := .idle })).map (·.handed) = some [⟨0, 4⟩] ∧
    refusalOf (hostStep (.rb 3) unseen) = some (.hostInBatchRange 3) ∧
    (after (hostStep (.rd (slotOf .status)) unseen)).map (·.handed) = some [] ∧
    (after (hostStep (.rd (slotOf .batchIdx)) unseen)).map (·.handed) = some [⟨0, 4⟩] ∧
    (after (hostStep (.rb 3) { unseen with irqEn := true })).isSome = true := by decide +kernel

/-- R12: the results at the edges: 1 + 2^-24 ties to even, the largest number plus itself overflows, ∞ − ∞ and 0 · ∞ are
NaN, 1 − 1 is +0 and (−0) + (−0) is −0. -/
theorem test_binary32_edges :
    fadd 0x3F800000 0x33800000 = 0x3F800000 ∧ fadd 0x7F7FFFFF 0x7F7FFFFF = 0x7F800000 ∧
    isNaN (fsub 0x7F800000 0x7F800000) = true ∧ isNaN (fmul 0x00000000 0x7F800000) = true ∧
    fsub 0x3F800000 0x3F800000 = 0x00000000 ∧ fadd 0x80000000 0x80000000 = 0x80000000 ∧
    fdiv 0x3F800000 0x80000000 = 0xFF800000 := by decide +kernel

/-- V6: the quantizer's ties and clamps with scale 1: 0.5, 1.5, 254.5, 255.49. -/
theorem test_quantize :
    [0x3F000000, 0x3FC00000, 0x437E8000, 0x437F7D71].map (fun v => (clampByte .tiesEven (fmul v 0x3F800000)).toNat) =
      [0, 2, 254, 255] ∧ clampByte .tiesAway (fmul 0x437E8000 0x3F800000) = 255 := by decide +kernel

/-- The canonical form: writing the byte an unlisted address reads as removes the entry. -/
theorem test_memSet_canonical :
    memSet (memSet (memSet [] 7 1) 3 2) 7 0 = [(3, 2)] ∧ memSet [] 5 0 = [] := by decide

/-! ## Witnesses: states and operands that meet the hypotheses of each obligation -/

/-- A BATCH.SRGB2LIN of one pixel, at its first pixel. -/
def oneLin : State := walking .batchSrgb2lin 0 4 (scale255, scale255) [20, 30, 100, 77]

/-- A BATCH.XYZ2LAB whose second pixel of three faults (P6), at its first pixel. -/
def faultyLab : State :=
  { walking .batchXyz2lab 0 12 (scale255, labScale) [10, 10, 10, 1, 0, 5, 5, 2, 7, 7, 7, 3] with wx := 0x80000000 }

/-- ROOT.3 of (8, −1, 8), started (P3). -/
def badRoot : State := (colour 0x41000000 0xBF800000 0x41000000).startCommand 0x00000001

theorem wit_DecodeAndEncodeAgree :
    Instr.wf .batchLuv2xyz = true ∧ decode 0x00000913 = .ok .batchLuv2xyz ∧ decode 0x0000100A = .ok .luv2xyzPw := by
  decide

/-- Each class of reserved words at the ends of its range, and the words just outside. -/
theorem wit_ReservedWordEndsIllegalCmd :
    State.reset.busy = false ∧
    ([0x00000014, 0x000000FF, 0x00002000, 0x80000000, 0x00000100, 0x00000F12, 0x00000301, 0x00000F01, 0x00000A13,
      0x00000F13, 0x00001000, 0x00001008, 0x0000100B, 0x00001013].all fun w => decide (ReservedWord w)) = true ∧
    ([0x00000000, 0x00000201, 0x00000913, 0x00001009, 0x0000100A].any fun w => decide (ReservedWord w)) = false := by
  decide +kernel

theorem wit_CommandWriteStartsOrIsDropped : State.reset.busy = false ∧ badRoot.busy = true := by decide

theorem wit_AcknowledgeClears :
    (0x00000008 : Word).getLsbD 1 = false ∧ (0x00000002 : Word).getLsbD 1 = true ∧ State.reset.complete.busy = false ∧
    State.reset.complete.status.done = true ∧ badRoot.busy = true ∧ State.reset.status.done = false := by decide

/-- A busy state; a register of each class; and steps that keep and that clear WLOST. -/
theorem wit_WritesWhileBusy :
    badRoot.busy = true ∧ Reg.cmd ∈ idleOnlyRegs ∧ Reg.bufLen ∈ idleOnlyRegs ∧ Reg.errInfo ∈ roRegs ∧
    Reg.batchIdx ∈ roRegs ∧ ReservedSlot 7 ∧ ReservedSlot 63 ∧
    let lost := { State.reset with status := ⟨false, false, true, 0⟩ }
    lost.status.wlost = true ∧ after (step lost) = some lost ∧
      (after (step { lost with script := [.host (.wr (slotOf .status) 0x00000008)] })).map (·.status.wlost) =
        some false := by
  decide

/-- The last row of the map, and the reserved offsets' ends and their neighbours. -/
theorem wit_WindowReadsAndIgnoredWrites :
    (after (hostStep (.rd (BitVec.ofNat 6 (0x6C / 4))) { State.reset with batchIdx := 5 })).map (·.replies) =
      some [.word 5] ∧
    ReservedSlot 7 ∧ ReservedSlot 11 ∧ ReservedSlot 23 ∧ ReservedSlot 28 ∧ ReservedSlot 63 ∧ ¬ReservedSlot 27 ∧
    ¬ReservedSlot 0 ∧ ¬ReservedSlot 22 ∧ ¬ReservedSlot 24 ∧ Reg.r2 ∈ roRegs := by decide

theorem wit_RegisterWriteReadsBack :
    State.reset.busy = false ∧ Reg.a0 ∈ idleOnlyRegs ∧ Reg.bufLen ∈ idleOnlyRegs ∧ Reg.bufLen ≠ .cmd := by decide

theorem wit_IrqFollowsDone :
    badRoot.busy = true ∧ (after (engineStep badRoot)).map (·.phase) = some .idle ∧ badRoot.status.done = false ∧
    (after (step badRoot)).map (·.status.done) = some true ∧ State.reset.busy = false ∧
    (after (hostStep (.wr (slotOf .cmd) 0) State.reset)).isSome = true ∧ (0x00000002 : Word).getLsbD 1 = true ∧
    (after (hostStep (.wr (slotOf .status) 2) State.reset)).isSome = true ∧
    State.reset.complete.status.done = true ∧ (0x00000001 : Word).getLsbD 0 = true ∧
    (after (hostStep (.wr (slotOf .ctrl) 1) State.reset.complete)).isSome = true := by decide +kernel

/-- The ends of the running range (0 to 3), the byte after it, the last byte of the memory and the first past it; then
a range whose BATCH has ended unseen, and each host action that adds to the ranges, clears them or leaves them. -/
theorem wit_HostByteAccess :
    oneLin.MemLegal ∧ oneLin.busy = true ∧ oneLin.operation = .ok (Pid.srgb2lin).instr ∧ oneLin.batchStart = 0 ∧
    oneLin.batchStart + 4 * oneLin.npix = 4 ∧ oneLin.cfg.memBytes = 256 ∧
    refusalOf (hostStep (.rb 0) oneLin) = some (.hostInBatchRange 0) ∧
    refusalOf (hostStep (.wb 3 1) oneLin) = some (.hostInBatchRange 3) ∧
    (after (hostStep (.wb 4 1) oneLin)).map (·.byteAt 4) = some 1 ∧
    (after (hostStep (.wb 255 1) oneLin)).map (·.byteAt 255) = some 1 ∧
    faultOf (hostStep (.rb 256) oneLin) = some (.noSuchByte 256) ∧
    (unseen.MemLegal ∧ unseen.seeIrq.handed = [⟨0, 4⟩] ∧ refusalOf (hostStep (.wb 0 1) unseen) = some (.hostInBatchRange 0)) ∧
    ((after (hostStep (.wr (slotOf .cmd) 0x00000213) unseen)).isSome = true ∧ unseen.phase = .idle ∧
      decode 0x00000213 = .ok (Pid.srgb2lin).instr) ∧
    ((after (hostStep (.rd (slotOf .status)) unseen)).isSome = true ∧ unseen.status.done = true) ∧
    { unseen with irqEn := true }.seeIrq.handed = [] ∧ (after (hostStep .reset unseen)).isSome = true ∧
    (after (hostStep (.wr (slotOf .status) 2) unseen)).map (·.handed) = some [⟨0, 4⟩] ∧
    (after (engineStep oneLin)).isSome = true := by decide +kernel

theorem wit_ResetSignal : ReservedSlot 7 ∧ ReservedSlot 28 ∧ Reg.batchIdx ∈ [Reg.cmd, .batchIdx] := by decide

theorem wit_StepRunsDecodedOperation :
    badRoot.phase ≠ .idle ∧ decode badRoot.cmd = .ok .root3 ∧ { badRoot with script := [.engine] }.script = [.engine] ∧
    { badRoot with script := [.wait] }.script = [.wait] ∧ badRoot.script = [] ∧ State.reset.phase = .idle ∧
    { State.reset with script := [.wait] }.script = [.wait] ∧
    { badRoot with script := [.host .reset, .engine] }.script = .host .reset :: [.engine] := by decide

/-- A reserved word; the operand check, a root and WSET; a BATCH's entry and a pixel, from a legal state. -/
theorem wit_FaultRecording :
    (let ends := fun s => (after (engineStep s)).map fun t => (t.phase, t.status.err)
     let operand := (colour 0x3F800000 0x7FC00000 0x7F800000).startCommand 0x00000002
     let white := (colour 0x3F800000 0x80000000 0x3F800000).startCommand 0x0000000B
     let entry := { oneLin with phase := .run, bufAddr := 0xFE }
     let pixel := { faultyLab with phase := .walk 1, batchIdx := 1 }
     (State.reset.startCommand 0x14).busy = true ∧ ends (State.reset.startCommand 0x14) = some (.idle, true) ∧
       (State.reset.startCommand 0x14).operation.toOption = none ∧
     badRoot.busy = true ∧ ends badRoot = some (.idle, true) ∧ badRoot.operation = .ok .root3 ∧
     operand.busy = true ∧ ends operand = some (.idle, true) ∧ operand.operation = .ok .srgbDec ∧
     white.busy = true ∧ ends white = some (.idle, true) ∧ white.operation = .ok .wset ∧
     entry.busy = true ∧ ends entry = some (.idle, true) ∧ entry.operation = .ok (Pid.srgb2lin).instr ∧
       entry.phase = .run ∧
     pixel.busy = true ∧ ends pixel = some (.idle, true) ∧ pixel.operation = .ok (Pid.xyz2lab).instr ∧
       pixel.phase = .walk 1) := by decide +kernel

/-- NaN in A1 of ROOT.3 behind a finite A0; NaN in WVP, the last register a BATCH checks. -/
theorem wit_OperandCheckReportsFirst :
    (let s := colour 0x3F800000 0x7FC00000 0x7F800000
     checkedRegs .root3 = [.a0] ++ .a1 :: [.a2] ∧ Instr.pid? .root3 = none ∧ s.FiniteRegs [.a0] ∧
       ((s.get .a1).extractLsb' 23 8).toNat = 255) ∧
    (let s := { oneLin with phase := .run, wvp := 0x7FC00000 }
     batchCheckedRegs .xyz2luv =
         [.inScale0, .inScale1, .inScale2, .outScale0, .outScale1, .outScale2, .wy, .wup] ++ .wvp :: [] ∧
       s.phase = .run ∧ s.batchStart + 4 * s.npix ≤ s.cfg.memBytes ∧
       s.FiniteRegs [.inScale0, .inScale1, .inScale2, .outScale0, .outScale1, .outScale2, .wy, .wup] ∧
       ((s.get .wvp).extractLsb' 23 8).toNat = 255) := by decide

theorem wit_EndStepWritesResults : isNaN 0xFF800000#32 = false ∧ isNaN 0x7F800001#32 = true := by decide

theorem wit_NopOnlySetsDone : State.reset.phase = .idle := by decide

/-- 1 + 2^-24 is a tie between two finite numbers; the quotient's divisor is not zero. -/
theorem wit_ArithmeticRoundsToNearest :
    isFinite 0x3F800000#32 = true ∧ isFinite 0x33800000#32 = true ∧ isFinite (fadd 0x3F800000 0x33800000) = true ∧
    isFinite (fsub 0x3F800000 0x33800000) = true ∧ isFinite (fmul 0x3F800000 0x33800000) = true ∧
    isZero 0x33800000#32 = false ∧ isFinite (fdiv 0x3F800000 0x33800000) = true := by decide +kernel

/-- A sum, a product and a quotient that overflow, the sum just below the bound, and a product that underflows; a NaN;
zero sums; each pair of infinities; 0·∞, 0/0, x/0 and x/∞. -/
theorem wit_ArithmeticOverflow :
    (isFinite 0x7F7FFFFF#32 = true ∧ isFinite 0x73000000#32 = true ∧ isInf (fadd 0x7F7FFFFF 0x73000000) = true ∧
      isInf (fadd 0x7F7FFFFF 0x72FFFFFF) = false ∧ isInf (fmul 0xFF7FFFFF 0x7F7FFFFF) = true ∧
      isZero 0x00000001#32 = false ∧ isInf (fdiv 0x7F7FFFFF 0x00000001) = true ∧
      fmul 0x80000001 0x00000001 = 0x80000000) ∧
    isNaN 0x7FC00000#32 = true ∧
    (units 0x80000000#32 + units 0x80000000#32 = 0 ∧ units 0x3F800000#32 + units 0xBF800000#32 = 0 ∧
      isFinite 0x80000000#32 = true ∧ isFinite 0xBF800000#32 = true) ∧
    (isInf 0x7F800000#32 = true ∧ isInf 0xFF800000#32 = true ∧ isNaN 0x7F800000#32 = false ∧
      signBit 0x7F800000#32 ≠ signBit 0xFF800000#32) ∧
    isZero 0x80000000#32 = true ∧ isNaN (fmul 0x7F800000 0xBF800000) = false ∧
    isNaN (fdiv 0x7F800000 0x80000000) = false ∧ isNaN (fdiv 0x3F800000 0x80000000) = false := by decide +kernel

/-- A NaN, the two zeros, a finite number against an infinity, and the two infinities. -/
theorem wit_ComparisonsAreOrdered :
    isNaN 0x7FC00000#32 = true ∧ isFinite 0x80000000#32 = true ∧ isFinite 0x00000000#32 = true ∧
    feq 0x80000000 0x00000000 = true ∧ isInf 0x7F800000#32 = true ∧ fle 0x7F7FFFFF 0x7F800000 = true ∧
    isInf 0xFF800000#32 = true ∧ fle 0xFF800000 0x7F800000 = true := by decide +kernel

/-- Each way out of the domain, and the smallest numbers inside it under either choice of `SUBNORMAL_ROOT`. -/
theorem wit_RootEngineDomain :
    (RootIndex.n12 = .n12 ∧ (12 : Int) = 12 ∧ refPoly12 = refConfig.poly12) ∧
    (0x80000000 : F32).getLsbD 31 = true ∧ ((0x7F800000 : F32).extractLsb' 23 8).toNat = 255 ∧
    ((0x00000001 : F32).extractLsb' 23 8).toNat = 0 ∧
    { refConfig with subnormalRoot := .fault }.subnormalRoot = .fault ∧ refConfig.subnormalRoot ≠ .fault ∧
    rootAdmits refConfig 0x00000001 = true ∧ rootAdmits { refConfig with subnormalRoot := .fault } 0x00800000 = true ∧
    rootAdmits { refConfig with subnormalRoot := .fault } 0x007FFFFF = false ∧
    rootAdmits refConfig 0x7F7FFFFF = true := by decide +kernel

/-- The ends of the exponent's range: a subnormal, the smallest and the largest normal number. -/
theorem wit_RootRanges :
    rootAdmits refConfig 0x00000001 = true ∧ expField 0x00000001#32 = 0 ∧ rootAdmits refConfig 0x00800000 = true ∧
    expField 0x00800000#32 ≠ 0 ∧ rootAdmits refConfig 0x7F7FFFFF = true ∧
    rootQuotient .n3 (rootExponent 0x7F7FFFFF) = 42 ∧ rootQuotient .n5 (rootExponent 0x7F7FFFFF) = 25 ∧
    rootQuotient .n12 (rootExponent 0x7F7FFFFF) = 10 ∧ rootQuotient .n3 (rootExponent 0x00000001) = -42 ∧
    rootQuotient .n5 (rootExponent 0x00000001) = -25 ∧ rootQuotient .n12 (rootExponent 0x00000001) = -10 := by
  decide +kernel

/-- The smallest subnormal, the smallest normal and the largest number. -/
theorem wit_RootOperationsComplete :
    let s := colour 0x00000001 0x00800000 0x7F7FFFFF
    ∀ x ∈ [s.a.c0, s.a.c1, s.a.c2], isFinite x = true ∧ signBit x = false ∧ isZero x = false ∧
      (expField x ≠ 0 ∨ s.cfg.subnormalRoot = .compute) := by
  intro s x hx
  simp only [List.mem_cons, List.not_mem_nil, or_false] at hx
  rcases hx with rfl | rfl | rfl <;> decide +kernel

/-- Each lane as the first that fails: a zero, a negative number, an excluded subnormal. -/
theorem wit_RootOperationsFault :
    let ok := fun (c : Config) x => !signBit x && !isZero x && !(expField x == 0 && c.subnormalRoot == .fault)
    let cfg := { refConfig with subnormalRoot := .fault }
    (colour 0 0x3F800000 0x3F800000).a.Finite ∧ FirstFail (ok refConfig) (colour 0 0x3F800000 0x3F800000).a 0 ∧
    (colour 0x3F800000 0xBF800000 0).a.Finite ∧ FirstFail (ok refConfig) (colour 0x3F800000 0xBF800000 0).a 1 ∧
    (colour 0x3F800000 0x3F800000 1).a.Finite ∧ FirstFail (ok cfg) (colour 0x3F800000 0x3F800000 1).a 2 := by decide

/-- The largest finite number in each lane, either sign. -/
theorem wit_SrgbDecodeCompletes : (colour 0x7F7FFFFF 0xFF7FFFFF 0x3D25AEE7).a.Finite := by decide +kernel

theorem wit_SrgbEncodeCompletes : (colour 0x7F7FFFFF 0xFF7FFFFF 0x3B4D2E1D).a.Finite := by decide

theorem wit_LabForwardCompletes : (colour 0x7F7FFFFF 0xFF7FFFFF 0x3C111AA8).a.Finite := by decide

theorem wit_LabInverseCompletes : (colour 0x7F7FFFFF 0xFF7FFFFF 0x3E53DCB2).a.Finite := by decide

/-- A quotient on either side of the threshold, and one that is −∞. -/
theorem wit_XyzToLabCompletes :
    let s := { colour 0xBF800000 0x3F800000 0x3A83126F with wx := 0x00000000 }
    s.FiniteRegs (checkedRegs .xyz2lab) ∧ AllPass rootStageOk (divLanes s.a s.white) ∧
      isInf (divLanes s.a s.white).c0 = true := by decide +kernel

theorem wit_LabToXyzCompletes : (colour 0x42700000 0x42700000 0x41F00000).FiniteRegs (checkedRegs .lab2xyz) := by decide

/-- A denominator that is exactly zero, and one that is not. -/
theorem wit_UvPrimeCompletes :
    let d := fun (s : State) => fadd (fadd s.a.c0 (fmul f15 s.a.c1)) (fmul f3 s.a.c2)
    (colour 0xC1700000 0x3F800000 0).a.Finite ∧ isZero (d (colour 0xC1700000 0x3F800000 0)) = true ∧
    (colour 0x3F735200 0x3F800000 0x3F8B5EC8).a.Finite ∧
      isZero (d (colour 0x3F735200 0x3F800000 0x3F8B5EC8)) = false := by decide +kernel

theorem wit_XyzToLuvCompletes :
    let s := colour 0x3F735200 0x3F800000 0x3F8B5EC8
    s.FiniteRegs (checkedRegs .xyz2luv) ∧ s.FiniteRegs (checkedRegs .xyz2luvPw) ∧
      rootStageOk (fdiv s.a.c1 s.wy) = true := by decide +kernel

/-- L = −0, and an L that is not zero. -/
theorem wit_LuvToXyzCompletes :
    let z := colour 0x80000000 0x41200000 0x41200000
    let s := colour 0x41000000 0x3F800000 0x3F800000
    z.FiniteRegs (checkedRegs .luv2xyz) ∧ z.FiniteRegs (checkedRegs .luv2xyzPw) ∧ isZero z.a.c0 = true ∧
    s.FiniteRegs (checkedRegs .luv2xyz) ∧ s.FiniteRegs (checkedRegs .luv2xyzPw) ∧ isZero s.a.c0 = false := by decide

/-- white_y = −0; a white whose results are numbers; one whose chromaticity overflows to NaN. -/
theorem wit_WhiteSetFromChromaticity :
    (colour 0x3E99999A 0x80000000 0x3F800000).a.Finite ∧ isZero (colour 0x3E99999A 0x80000000 0x3F800000).a.c1 = true ∧
    (colour 0x3EA01A37 0x3EA872B0 0x3F800000).a.Finite ∧
      isZero (colour 0x3EA01A37 0x3EA872B0 0x3F800000).a.c1 = false ∧
    (let s := colour 0x7F7FFFFF 0x00000001 0x00000000
     s.a.Finite ∧ isZero s.a.c1 = false ∧ isNaN (fmul (fdiv s.a.c0 s.a.c1) s.a.c2) = true) := by decide +kernel

theorem wit_MatrixMultiplyCompletes : (colour 0x7F7FFFFF 0xFF7FFFFF 0x00000001).a.Finite := by decide

theorem wit_SrgbForwardPipelinesComplete :
    let s := colour 0x3F800000 0x3F800000 0x3F800000
    s.a.Finite ∧ s.white.Finite ∧
      AllPass rootStageOk (divLanes (matmul s.cfg.matFwd (s.a.map (decodeValue s.cfg))) s.white) := by decide +kernel

theorem wit_SrgbInversePipelinesComplete :
    let x := colour 0x3F735200 0x3F800000 0x3F8B5EC8
    let l := colour 0x42C80000 0x00000000 0x00000000
    x.a.Finite ∧ AllPass rootStageOk (matmul x.cfg.matInv x.a) ∧ l.a.Finite ∧ l.white.Finite ∧
      AllPass rootStageOk (matmul l.cfg.matInv (labToXyz l.white l.a)) := by decide +kernel

/-- A quotient that is +∞ in lane 0, one that is NaN in lane 1 behind one that passes, and the matrix overflowing. -/
theorem wit_RootStageFaults :
    let x := { colour 0x3F800000 0x3F800000 0x3F800000 with wx := 0 }
    let y := { colour 0x3F800000 0x00000000 0x3F800000 with wy := 0 }
    let m := colour 0x7F7FFFFF 0 0
    let w := colour 0x7F7FFFFF 0x7F7FFFFF 0x7F7FFFFF
    let lab := colour 0x7F7FFFFF 0 0
    x.FiniteRegs (checkedRegs .xyz2lab) ∧ FirstFail rootStageOk (divLanes x.a x.white) 0 ∧
    y.FiniteRegs (checkedRegs .xyz2lab) ∧ FirstFail rootStageOk (divLanes y.a y.white) 1 ∧
    y.FiniteRegs (checkedRegs .xyz2luv) ∧ y.FiniteRegs (checkedRegs .xyz2luvPw) ∧
      rootStageOk (fdiv y.a.c1 y.wy) = false ∧
    m.a.Finite ∧ FirstFail rootStageOk (matmul m.cfg.matInv m.a) 0 ∧
    w.FiniteRegs (checkedRegs .srgb2lab) ∧
      FirstFail rootStageOk (divLanes (matmul w.cfg.matFwd (w.a.map (decodeValue w.cfg))) w.white) 0 ∧
    lab.FiniteRegs (checkedRegs .lab2srgb) ∧
      FirstFail rootStageOk (matmul lab.cfg.matInv (labToXyz lab.white lab.a)) 0 := by decide +kernel

/-- A NaN product, the two clamps at their bounds, a tie, and a number just above 0. -/
theorem wit_QuantizeRoundsAndClamps :
    isNaN (fmul 0x7F800000 0x00000000) = true ∧ fle (fmul 0x80000000 f255) zero32 = true ∧
    fle f255 (fmul 0x3F800000 f255) = true ∧ fle (fmul 0x3F000000 f255) zero32 = false ∧
    fle f255 (fmul 0x3F000000 f255) = false ∧ fle (fmul 0x00000001 f1) zero32 = false ∧
    |((clampByte .tiesEven (fmul 0x3F000000 f255)).toNat : ℚ) - 255 / 2| = 1 / 2 := by
  refine ⟨by decide +kernel, by decide +kernel, by decide +kernel, by decide +kernel, by decide +kernel,
    by decide +kernel, ?_⟩
  rw [show (clampByte .tiesEven (fmul 0x3F000000 f255)).toNat = 128 by decide +kernel]
  norm_num

theorem wit_QuantCompletes : (colour 0x3F000000 0xFF7FFFFF 0x7F7FFFFF).FiniteRegs (checkedRegs .quant) := by decide

/-- A range that passes the end by one byte, one that ends with the memory, and the end of a walk. -/
theorem wit_BatchEntryAndEndSteps :
    let bad := { oneLin with phase := .run, bufAddr := 0xFD }
    let fit := { oneLin with phase := .run, bufAddr := 0xFC }
    let last := { oneLin with phase := .walk 1 }
    bad.phase = .run ∧ bad.cfg.memBytes < bad.bufAddr.toNat + bad.bufOff.toNat + 4 * (bad.bufLen.toNat / 4) ∧
    fit.phase = .run ∧ fit.bufAddr.toNat + fit.bufOff.toNat + 4 * (fit.bufLen.toNat / 4) ≤ fit.cfg.memBytes ∧
    fit.FiniteRegs (batchCheckedRegs .luv2xyz) ∧ last.phase = .walk (last.bufLen.toNat / 4) := by decide

/-- A pipeline that gives a triple, and one that faults. -/
theorem wit_BatchPipelineIsTheOperation :
    (let s := oneLin
     let c := channelsOf s.inScale (s.pixelBytes 0)
     { s with a := c }.FiniteRegs (checkedRegs (pidOperation .srgb2lin)) ∧
       pipe .srgb2lin s c = .ok ⟨0x3BE53D45, 0x3C54BBD8, 0x3E027CBE⟩) ∧
    (let s := faultyLab
     let c := channelsOf s.inScale (s.pixelBytes 1)
     { s with a := c }.FiniteRegs (checkedRegs (pidOperation .xyz2lab)) ∧
       pipe .xyz2lab s c = .error ⟨.domainRoot, 0⟩) := by decide +kernel

/-- The last pixel of the memory. -/
theorem wit_BatchPixelStep :
    let s := { oneLin with bufAddr := 0xFC, mem := [(252, 20), (253, 30), (254, 100)] }
    ∃ o, s.phase = .walk 0 ∧ 0 < s.npix ∧ s.pixelAddr 0 + 2 < s.cfg.memBytes ∧ Memory.wf s.mem ∧
      (channelsOf s.inScale (s.pixelBytes 0)).Finite ∧
      pipe .srgb2lin s (channelsOf s.inScale (s.pixelBytes 0)) = .ok o ∧
      AllPass (fun x => !isNaN x) (mulLanes o s.outScale) := by
  refine ⟨⟨0x3BE53D45, 0x3C54BBD8, 0x3E027CBE⟩, ?_⟩
  decide +kernel

/-- A decoded channel that is +∞; a NaN that reaches the root; a product ∞ · 0. -/
theorem wit_BatchPixelFaults :
    (let s := { oneLin with inScale := ⟨0, 0x3F800000, 0x3F800000⟩ }
     s.phase = .walk 0 ∧ 0 < s.npix ∧ s.pixelAddr 0 + 2 < s.cfg.memBytes ∧
       ¬(channelsOf s.inScale (s.pixelBytes 0)).Finite) ∧
    (let s := { faultyLab with phase := .walk 1 }
     s.phase = .walk 1 ∧ 1 < s.npix ∧ s.pixelAddr 1 + 2 < s.cfg.memBytes ∧
       (channelsOf s.inScale (s.pixelBytes 1)).Finite ∧
       pipe .xyz2lab s (channelsOf s.inScale (s.pixelBytes 1)) = .error ⟨.domainRoot, 0⟩) ∧
    (let s := { oneLin with inScale := ⟨0x03800000, 0x3F800000, 0x3F800000⟩, outScale := ⟨0, 0, 0⟩ }
     let c := channelsOf s.inScale (s.pixelBytes 0)
     s.phase = .walk 0 ∧ 0 < s.npix ∧ s.pixelAddr 0 + 2 < s.cfg.memBytes ∧ c.Finite ∧
       pipe .lab2xyz s c = .ok (labToXyz s.white c) ∧
       ¬AllPass (fun x => !isNaN x) (mulLanes (labToXyz s.white c) s.outScale)) := by
  decide +kernel

/-- A pixel step, and an address that is no channel byte: the passthrough byte. -/
theorem wit_EngineTouchesOnlyChannelBytes :
    (after (engineStep oneLin)).isSome = true ∧ oneLin.npix = 1 ∧
    ∀ k < oneLin.npix, 3 ≠ oneLin.pixelAddr k ∧ 3 ≠ oneLin.pixelAddr k + 1 ∧ 3 ≠ oneLin.pixelAddr k + 2 := by
  decide +kernel

theorem oneLin_inv : oneLin.Inv := by
  refine ⟨by decide, by decide, by decide, ?_⟩
  intro k hk
  have h : k = 0 := by simpa [oneLin, walking, eq_comm] using hk
  subst h
  exact ⟨by decide, by decide, .srgb2lin, by decide, by decide⟩

theorem faultyLab_inv : faultyLab.Inv := by
  refine ⟨by decide, by decide, by decide, ?_⟩
  intro k hk
  have h : k = 0 := by simpa [faultyLab, walking, eq_comm] using hk
  subst h
  exact ⟨by decide, by decide, .xyz2lab, by decide, by decide⟩

/-- The state of `wit_FaultRecording` that faults at its pixel 1 is legal. -/
theorem faultyPixel_inv : { faultyLab with phase := .walk 1, batchIdx := 1 }.Inv := by
  refine ⟨by decide, by decide, by decide, ?_⟩
  intro k hk
  have h : k = 1 := by simpa [eq_comm] using hk
  subst h
  exact ⟨by decide, by decide, .xyz2lab, by decide, by decide⟩

theorem wit_FaultFreeBatchConvertsEveryPixel :
    oneLin.Inv ∧ oneLin.phase = .walk 0 ∧ oneLin.operation = .ok (Pid.srgb2lin).instr ∧ 0 < oneLin.npix ∧
    ∀ k < oneLin.npix, convertPixel .srgb2lin oneLin k (oneLin.pixelBytes k) = .ok ⟨2, 3, 32⟩ :=
  ⟨oneLin_inv, by decide, by decide, by decide, by decide +kernel⟩

theorem wit_BatchFaultIsPrecise :
    faultyLab.Inv ∧ faultyLab.phase = .walk 0 ∧ faultyLab.operation = .ok (Pid.xyz2lab).instr ∧ 1 < faultyLab.npix ∧
    (∀ j < 1, convertPixel .xyz2lab faultyLab j (faultyLab.pixelBytes j) = .ok ⟨60, 0, 2⟩) ∧
    convertPixel .xyz2lab faultyLab 1 (faultyLab.pixelBytes 1) = .error ⟨.domainRoot, 1⟩ :=
  ⟨faultyLab_inv, by decide, by decide, by decide, by decide +kernel, by decide +kernel⟩

theorem badRoot_inv : badRoot.Inv :=
  ⟨by decide, by decide, by decide, fun k hk => by simp [badRoot, State.startCommand] at hk⟩

/-- A BATCH that walks, and an operation that is no BATCH. -/
theorem wit_EveryOperationEnds :
    (faultyLab.Inv ∧ faultyLab.busy = true) ∧ badRoot.Inv ∧ badRoot.busy = true ∧
    ∀ p : Pid, badRoot.operation ≠ .ok p.instr :=
  ⟨⟨faultyLab_inv, by decide⟩, badRoot_inv, by decide, by intro p; cases p <;> decide⟩

/-- An operation that ends with a fault, one that writes R0 to R2, WSET and NOP. -/
theorem wit_NonBatchFrame :
    Instr.pid? .root3 = none ∧ (after (exec .root3 badRoot)).map (·.status.err) = some true ∧
    Instr.pid? .matInv = none ∧ (after (exec .matInv badRoot)).map (·.status.err) = some false ∧
    (after (exec .wset (colour 0x3EA01A37 0x3EA872B0 0x3F800000))).map (·.status.err) = some false ∧
    (after (exec .nop badRoot)).map (·.status.err) = some false := by decide +kernel

/-- A pixel step and an end step. -/
theorem wit_BatchFrame :
    (after (exec (Pid.srgb2lin).instr oneLin)).isSome = true ∧ oneLin.phase = .walk 0 ∧ 0 < oneLin.npix ∧
    (after (exec (Pid.srgb2lin).instr { oneLin with phase := .walk 1 })).isSome = true ∧ oneLin.npix ≤ 1 := by
  decide +kernel

theorem wit_EngineNeverWritesOperands :
    (after (engineStep badRoot)).isSome = true ∧ (after (step badRoot)).isSome = true := by decide +kernel

/-- Steps that change ERR_INFO and R0 to R2. -/
theorem wit_ResultsChangeOnlyAtTheEnd :
    badRoot.script = [] ∧ (after (step badRoot)).map (fun t => decide (t.errInfo ≠ badRoot.errInfo)) = some true ∧
    let s := (colour 0x3F800000 0x3F800000 0x3F800000).startCommand 0x0000000C
    s.script = [] ∧ (after (step s)).map (fun t => decide (t.r ≠ s.r)) = some true := by decide +kernel

/-- Two states that differ in the memory, a white register and STATUS, and agree on what ROOT.3 reads; WSET and a fault
likewise. -/
theorem wit_OutcomeDependsOnOperandsOnly :
    (let s := colour 0x41000000 0x3F000000 0x41D80000
     let s' := { s with mem := [(0, 1)], wx := 0, status := ⟨true, true, true, 3⟩ }
     s.cfg = s'.cfg ∧ s.nanDraws = s'.nanDraws ∧ (∀ g ∈ checkedRegs .root3, s.get g = s'.get g) ∧
       (after (exec .root3 s)).map (·.status.err) = some false) ∧
    (let s := colour 0x3EA01A37 0x3EA872B0 0x3F800000
     let s' := { s with wx := 0 }
     (∀ g ∈ checkedRegs .wset, s.get g = s'.get g) ∧ (after (exec .wset s)).map (·.status.err) = some false) ∧
    (let s' := { badRoot with r := ⟨1, 2, 3⟩ }
     (∀ g ∈ checkedRegs .root3, badRoot.get g = s'.get g) ∧
       (after (exec .root3 badRoot)).map (·.status.err) = some true) := by decide +kernel

theorem wit_EveryStepKeepsTheStateLegal : oneLin.Inv ∧ (after (step oneLin)).isSome = true :=
  ⟨oneLin_inv, by decide +kernel⟩

theorem wit_EngineNeverStops : faultyLab.Inv := faultyLab_inv

end Sys2Proof.Tests
end

/-! ## Operand check, end step and binary32 arithmetic (spec/00_scope.md)

Arithmetic on finite numbers is one notion, `IsRounding`: a fraction of units of 2^-149, rounded under a sign. The claims
about nearness, overflow and signs are proved of it once. -/

namespace Sys2Proof.Machine

/-! ### Rounding to the nearest whole number -/

/-- A rounding to an odd whole number was no tie: it is off by less than half. -/
theorem nearestEven_bounds_of_odd {n d : Nat} (hd : 0 < d) (ho : nearestEven n d % 2 = 1) :
    2 * n < 2 * (nearestEven n d * d) + d ∧ 2 * (nearestEven n d * d) < 2 * n + d := by
  have hne : 2 * (n % d) ≠ d := fun h => by have := nearestEven_even_of_tie h; omega
  have h := Nat.div_add_mod n d
  have hlt := Nat.mod_lt n hd
  have e : (n / d + 1) * d = d * (n / d) + d := by ring
  have e' : n / d * d = d * (n / d) := by ring
  unfold nearestEven
  split_ifs <;> simp only [e, e'] <;> omega

/-- No multiple of `d` is nearer to `n` than the one `nearestEven` picks, and none is as near where that one is odd. -/
theorem nearestEven_nearest (n : Nat) {d : Nat} (hd : 0 < d) (k : Int) :
    |(nearestEven n d * d : Int) - n| ≤ |k * d - n| ∧
    (|(nearestEven n d * d : Int) - n| = |k * d - n| → k ≠ nearestEven n d → nearestEven n d % 2 = 0) := by
  obtain ⟨h1, h2⟩ := nearestEven_bounds n hd
  have hodd := @nearestEven_bounds_of_odd n d hd
  generalize nearestEven n d = q at *
  rw [← Nat.cast_mul]
  rcases lt_trichotomy k q with hk | rfl | hk
  · have : k * d + d ≤ (q * d : Nat) := by push_cast; nlinarith
    grind
  · simp
  · have : (q * d : Nat) + d ≤ k * d := by push_cast; nlinarith
    grind

/-- A fraction at least half a step below an even whole number is rounded up to it. -/
theorem le_nearestEven_of_half {n d b : Nat} (hd : 0 < d) (hb : b % 2 = 0) (h : 2 * (b * d) ≤ 2 * n + d) :
    b ≤ nearestEven n d := by
  by_contra hlt
  have h1 := (nearestEven_bounds n hd).1
  have hodd := @nearestEven_bounds_of_odd n d hd
  generalize nearestEven n d = q at *
  have h2 : (q + 1) * d ≤ b * d := Nat.mul_le_mul_right _ (by omega)
  have h3 : q + 1 < b → (q + 2) * d ≤ b * d := fun h => Nat.mul_le_mul_right _ h
  rw [Nat.add_mul, Nat.one_mul] at h2
  rw [Nat.add_mul] at h3
  by_cases hq : q % 2 = 1
  · have := (hodd hq).1; omega
  · have := h3 (by omega); omega

/-! ### Rounding a magnitude to binary32 -/

/-- The finite magnitudes from 2^23 steps of 2^t up are whole numbers of those steps. -/
theorem dvd_mag_of_le {f : F32} {t : Nat} (h : 2 ^ 23 * 2 ^ t ≤ mag f) : 2 ^ t ∣ mag f := by
  have hF := fracField_lt f
  unfold mag at h ⊢
  split at h <;> rename_i hE
  · have : 2 ^ t ≠ 0 := by positivity
    have : 1 ≤ 2 ^ t := by omega
    omega
  · rw [if_neg hE]
    have h1 : 2 ^ 23 * 2 ^ t < 2 ^ 23 * 2 ^ (expField f - 1 + 1) := by
      calc 2 ^ 23 * 2 ^ t ≤ (2 ^ 23 + fracField f) * 2 ^ (expField f - 1) := h
        _ < 2 ^ 24 * 2 ^ (expField f - 1) := Nat.mul_lt_mul_of_pos_right (by omega) (by positivity)
        _ = 2 ^ 23 * 2 ^ (expField f - 1 + 1) := by ring
    have h2 := (Nat.pow_lt_pow_iff_right (by norm_num)).1 (Nat.lt_of_mul_lt_mul_left h1)
    exact Dvd.dvd.mul_left (Nat.pow_dvd_pow 2 (by omega)) _

/-- No finite binary32, of either sign, is nearer to the fraction `n / d` than the rounded significand at its scale,
and none is as near where that significand is odd. Distances are multiplied by `d`. -/
theorem roundedSig_nearest (n : Nat) {d : Nat} (hd : 0 < d) (f : F32) {v : Int} (hv : v.natAbs = mag f) :
    |((roundedSig n d * 2 ^ excessBits n d : Nat) * d : Int) - n| ≤ |v * d - n| ∧
    (|((roundedSig n d * 2 ^ excessBits n d : Nat) * d : Int) - n| = |v * d - n| →
      v ≠ (roundedSig n d * 2 ^ excessBits n d : Nat) → roundedSig n d % 2 = 0) := by
  have hw : 0 < d * 2 ^ excessBits n d := by positivity
  have hgrid (k : Int) :
      |(roundedSig n d * (d * 2 ^ excessBits n d : Nat) : Int) - n| ≤ |k * (d * 2 ^ excessBits n d : Nat) - n| ∧
      (|(roundedSig n d * (d * 2 ^ excessBits n d : Nat) : Int) - n| = |k * (d * 2 ^ excessBits n d : Nat) - n| →
        k ≠ roundedSig n d → roundedSig n d % 2 = 0) := nearestEven_nearest n hw k
  have hlow := @le_excessBits n d hd
  generalize roundedSig n d = q at *
  generalize excessBits n d = t at *
  have hq : ((q * 2 ^ t : Nat) * d : Int) = q * (d * 2 ^ t : Nat) := by push_cast; ring
  rw [hq]
  by_cases hsmall : t ≠ 0 ∧ v < 2 ^ 23 * 2 ^ t
  · -- below the scale's range: even its lower end is nearer than `v`
    have h1 := (hgrid (2 ^ 23)).1
    have h2 : ((2 ^ 23 : Int)) * (d * 2 ^ t : Nat) ≤ n := by exact_mod_cast hlow hsmall.1
    have h3 : v * d < 2 ^ 23 * (d * 2 ^ t : Nat) := by
      push_cast
      calc v * d < 2 ^ 23 * 2 ^ t * d := by
            exact mul_lt_mul_of_pos_right hsmall.2 (by exact_mod_cast hd)
        _ = _ := by ring
    rw [abs_of_nonpos (by omega : (2 : Int) ^ 23 * (d * 2 ^ t : Nat) - n ≤ 0)] at h1
    rw [abs_of_nonpos (by omega : v * d - n ≤ 0)]
    constructor
    · omega
    · intro h; omega
  · -- a multiple of the scale
    have hdvd : (2 : Int) ^ t ∣ v := by
      by_cases ht : t = 0
      · simp [ht]
      · have hle : (2 : Int) ^ 23 * 2 ^ t ≤ v := by
          by_contra hc
          exact hsmall ⟨ht, by omega⟩
        have hpos : (0 : Int) < 2 ^ 23 * 2 ^ t := by positivity
        have hvm : v = mag f := by omega
        rw [hvm] at hle ⊢
        exact_mod_cast dvd_mag_of_le (f := f) (t := t) (by exact_mod_cast hle)
    obtain ⟨k, rfl⟩ := hdvd
    have hk : (2 ^ t * k * d : Int) = k * (d * 2 ^ t : Nat) := by push_cast; ring
    rw [hk]
    refine ⟨(hgrid k).1, fun h hne => (hgrid k).2 h ?_⟩
    rintro rfl
    exact hne (by push_cast; ring)

/-- A fraction at least half a last place above the largest finite magnitude rounds to infinity. -/
theorem roundMag_eq_inf_of_le {n d : Nat} (hd : 0 < d) (h : (2 ^ 25 - 1) * (2 ^ 252 * d) ≤ n) :
    roundMag n d = infPattern := by
  have e : roundMag n d = min infPattern (2 ^ 23 * excessBits n d + roundedSig n d) := rfl
  have hi : infPattern = 255 * 2 ^ 23 := by decide
  have ht : 253 ≤ excessBits n d := by
    by_contra hc
    have h1 := lt_excessBits n hd
    have h2 : d * 2 ^ excessBits n d ≤ 2 ^ 252 * d := by
      rw [mul_comm]; exact Nat.mul_le_mul_right _ (Nat.pow_le_pow_right (by norm_num) (by omega))
    generalize 2 ^ 252 * d = c at *
    omega
  have hq := le_roundedSig hd (n := n) (by omega : excessBits n d ≠ 0)
  by_cases h253 : excessBits n d = 253
  · have : 2 ^ 24 ≤ roundedSig n d := by
      refine le_nearestEven_of_half (by positivity) (by norm_num) ?_
      rw [h253, show (2 : Nat) ^ 253 = 2 * 2 ^ 252 by norm_num, show d * (2 * 2 ^ 252) = 2 * (2 ^ 252 * d) by ring]
      generalize 2 ^ 252 * d = c at *
      omega
    omega
  · omega

theorem roundMag_lt_iff (n : Nat) {d : Nat} (hd : 0 < d) :
    roundMag n d < infPattern ↔ n < (2 ^ 25 - 1) * (2 ^ 252 * d) := by
  refine ⟨fun h => ?_, roundMag_lt_of_lt hd⟩
  by_contra hc
  exact absurd (roundMag_eq_inf_of_le hd (not_lt.1 hc)) h.ne

end Sys2Proof.Machine

namespace Sys2Proof.Machine

/-! ### Values -/

/-- A sign as a factor. -/
def signQ (sg : Bool) : ℚ := if sg then -1 else 1

@[simp] theorem signQ_true : signQ true = -1 := rfl

@[simp] theorem signQ_false : signQ false = 1 := rfl

theorem signQ_mul (a b : Bool) : signQ a * signQ b = signQ (a != b) := by cases a <;> cases b <;> norm_num

theorem signQ_div (a b : Bool) : signQ a / signQ b = signQ (a != b) := by cases a <;> cases b <;> norm_num

theorem abs_signQ_mul (sg : Bool) (q : ℚ) : |signQ sg * q| = |q| := by cases sg <;> simp

theorem units_eq_signQ (x : F32) : (units x : ℚ) = signQ (signBit x) * mag x := by
  unfold units; cases signBit x <;> simp

theorem valueQ_eq (x : F32) : valueQ x = signQ (signBit x) * (mag x / 2 ^ 149) := by
  rw [valueQ, units_eq_signQ, mul_div_assoc]

/-- Finite numbers are ordered as their whole numbers of units. -/
theorem valueQ_le_iff (x y : F32) : valueQ x ≤ valueQ y ↔ units x ≤ units y := by
  unfold valueQ; rw [div_le_div_iff_of_pos_right (by positivity)]; exact Int.cast_le

theorem valueQ_eq_iff (x y : F32) : valueQ x = valueQ y ↔ units x = units y := by
  unfold valueQ; rw [div_left_inj' (by positivity)]; exact Int.cast_inj

/-! ### A result as the rounding of an exact one -/

/-- `r` is what binary32 makes of the exact number `z`: a fraction `n / d` of units, rounded, under a sign. -/
def IsRounding (r : F32) (z : ℚ) : Prop :=
  ∃ (sg : Bool) (n d : Nat), 0 < d ∧ r = pack sg (roundMag n d) ∧ z = signQ sg * ((n / d : ℚ) / 2 ^ 149)

theorem roundMag_lt_two_pow (n d : Nat) : roundMag n d < 2 ^ 31 :=
  lt_of_le_of_lt (roundMag_le n d) (by decide)

section
variable {r : F32} {z : ℚ}

theorem IsRounding.isNaN_eq_false (h : IsRounding r z) : isNaN r = false := by
  obtain ⟨sg, n, d, -, rfl, -⟩ := h
  exact isNaN_pack _ (roundMag_le _ _)

/-- A rounding is infinite exactly from half a last place above the largest finite number. -/
theorem IsRounding.isInf_iff (h : IsRounding r z) : isInf r = true ↔ 2 ^ 128 - 2 ^ 103 ≤ |z| := by
  obtain ⟨sg, n, d, hd, rfl, rfl⟩ := h
  have hd' : (0 : ℚ) < d := by exact_mod_cast hd
  have hbound : (2 : ℚ) ^ 128 - 2 ^ 103 ≤ |signQ sg * ((n / d : ℚ) / 2 ^ 149)| ↔ infPattern ≤ roundMag n d := by
    rw [← not_lt (a := roundMag n d), roundMag_lt_iff n hd, not_lt, abs_signQ_mul, abs_of_nonneg (by positivity),
      le_div_iff₀ (by positivity), le_div_iff₀ hd', ← Nat.cast_le (α := ℚ)]
    push_cast
    rw [show ((2 : ℚ) ^ 128 - 2 ^ 103) * 2 ^ 149 * d = (2 ^ 25 - 1) * (2 ^ 252 * d) by ring]
    norm_num
  rw [hbound]
  constructor
  · intro hi
    by_contra hlt
    rw [isInf_eq_false_of_isFinite (isFinite_pack sg (not_le.1 hlt))] at hi
    cases hi
  · intro hge
    rw [le_antisymm (roundMag_le n d) hge]
    cases sg <;> decide

theorem IsRounding.signBit_iff (h : IsRounding r z) (hz : z ≠ 0) : signBit r = true ↔ z < 0 := by
  obtain ⟨sg, n, d, hd, rfl, rfl⟩ := h
  have hpos : 0 < (n / d : ℚ) / 2 ^ 149 :=
    lt_of_le_of_ne (by positivity) fun h0 => hz (by rw [← h0, mul_zero])
  rw [signBit_pack sg (roundMag_lt_two_pow n d)]
  cases sg
  · simpa using hpos.le
  · simpa using hpos

/-- The value of a finite rounding. -/
theorem valueQ_pack_roundMag (sg : Bool) {n d : Nat} (hd : 0 < d) (h : roundMag n d < infPattern) :
    valueQ (pack sg (roundMag n d)) = signQ sg * ((roundedSig n d * 2 ^ excessBits n d : Nat) / 2 ^ 149) := by
  rw [valueQ_eq, signBit_pack sg (roundMag_lt_two_pow n d), mag_pack_roundMag sg hd h]

theorem getLsbD_zero_pack_roundMag (sg : Bool) {n d : Nat} (h : roundMag n d < infPattern)
    (he : roundedSig n d % 2 = 0) : (pack sg (roundMag n d)).getLsbD 0 = false := by
  have hr := roundMag_eq_of_lt h
  rw [BitVec.getLsbD, toNat_pack sg (roundMag_lt_two_pow n d), Nat.testBit_zero, decide_eq_false]
  cases sg <;> simp <;> omega

theorem isFinite_pack_iff (sg : Bool) {p : Nat} (hp : p ≤ infPattern) :
    isFinite (pack sg p) = true ↔ p < infPattern := by
  refine ⟨fun h => lt_of_le_of_ne hp ?_, isFinite_pack sg⟩
  rintro rfl
  cases sg <;> exact absurd h (by decide)

/-- The sign of `f` relative to `sg` and its magnitude, as a whole number of units. -/
theorem exists_relative_units (sg : Bool) (f : F32) :
    ∃ v : Int, v.natAbs = mag f ∧ valueQ f = signQ sg * (v / 2 ^ 149) := by
  refine ⟨if sg = signBit f then mag f else -mag f, by split <;> simp, ?_⟩
  rw [valueQ_eq]
  cases sg <;> cases signBit f <;> simp [neg_div]

/-- Distances to the exact number, in units and multiplied by the denominator. -/
theorem abs_sub_signQ (sg : Bool) (v n d : ℚ) (hd : 0 < d) :
    |signQ sg * (v / 2 ^ 149) - signQ sg * (n / d / 2 ^ 149)| = |v * d - n| / (d * 2 ^ 149) := by
  have hdist : v / 2 ^ 149 - n / d / 2 ^ 149 = (v * d - n) / (d * 2 ^ 149) := by field_simp
  rw [← mul_sub, abs_signQ_mul, hdist, abs_div, abs_of_pos (by positivity : 0 < d * 2 ^ 149)]

/-- No finite binary32 is nearer to the exact number than its rounding, and of two equally near ones the rounding is the
one whose last bit is 0. -/
theorem IsRounding.nearest (h : IsRounding r z) (hr : isFinite r = true) (f : F32) :
    |valueQ r - z| ≤ |valueQ f - z| ∧
    (|valueQ r - z| = |valueQ f - z| → valueQ r ≠ valueQ f → r.getLsbD 0 = false) := by
  obtain ⟨sg, n, d, hd, rfl, rfl⟩ := h
  have hlt := (isFinite_pack_iff sg (roundMag_le n d)).1 hr
  obtain ⟨v, hv, hf⟩ := exists_relative_units sg f
  obtain ⟨hle, htie⟩ := roundedSig_nearest n hd f hv
  have hd' : (0 : ℚ) < d := by exact_mod_cast hd
  rw [valueQ_pack_roundMag sg hd hlt, hf, abs_sub_signQ sg _ _ _ hd', abs_sub_signQ sg _ _ _ hd',
    div_le_div_iff_of_pos_right (by positivity), div_left_inj' (by positivity)]
  refine ⟨by exact_mod_cast hle, fun heq hne => getLsbD_zero_pack_roundMag sg hlt (htie (by exact_mod_cast heq) ?_)⟩
  rintro rfl
  exact hne (by push_cast; rfl)

end

/-! ### Each operation on finite numbers is a rounding -/

theorem signBit_fneg (x : F32) : signBit (fneg x) = !signBit x := by
  rw [signBit, fneg, BitVec.msb_xor, show negZero32.msb = true from by decide, Bool.xor_true, signBit]

theorem expField_fneg (x : F32) : expField (fneg x) = expField x := by
  have : (fneg x).extractLsb' 23 8 = x.extractLsb' 23 8 := by
    simp [fneg, negZero32, BitVec.extractLsb'_xor]
  simp [expField, this]

theorem fracField_fneg (x : F32) : fracField (fneg x) = fracField x := by
  have : (fneg x).extractLsb' 0 23 = x.extractLsb' 0 23 := by
    simp [fneg, negZero32, BitVec.extractLsb'_xor]
  simp [fracField, this]

theorem isFinite_fneg (x : F32) : isFinite (fneg x) = isFinite x := by rw [isFinite, expField_fneg]; rfl

theorem isNaN_fneg (x : F32) : isNaN (fneg x) = isNaN x := by rw [isNaN, expField_fneg, fracField_fneg]; rfl

theorem valueQ_fneg (x : F32) : valueQ (fneg x) = -valueQ x := by
  rw [valueQ_eq, valueQ_eq, signBit_fneg, mag, mag, expField_fneg, fracField_fneg]
  cases signBit x <;> simp

theorem fadd_of_finite {x y : F32} (hx : isFinite x = true) (hy : isFinite y = true) :
    fadd x y = faddFinite x y := by
  simp [fadd, isNaN_eq_false_of_isFinite hx, isNaN_eq_false_of_isFinite hy, isInf_eq_false_of_isFinite hx,
    isInf_eq_false_of_isFinite hy]

theorem isRounding_fadd {x y : F32} (hx : isFinite x = true) (hy : isFinite y = true) :
    IsRounding (fadd x y) (valueQ x + valueQ y) := by
  have hz : valueQ x + valueQ y = (units x + units y : Int) / 2 ^ 149 := by
    simp only [valueQ]; push_cast; ring
  rw [fadd_of_finite hx hy, hz]
  unfold faddFinite
  generalize units x + units y = u
  split <;> rename_i h0
  · refine ⟨signBit x && signBit y, 0, 1, one_pos, ?_, by simp [h0]⟩
    cases signBit x && signBit y <;> decide
  · refine ⟨decide (u < 0), u.natAbs, 1, one_pos, rfl, ?_⟩
    rw [Nat.cast_natAbs]
    by_cases hneg : u < 0
    · simp [hneg, abs_of_neg hneg]; ring
    · simp [hneg, abs_of_nonneg (not_lt.1 hneg)]

theorem isRounding_fsub {x y : F32} (hx : isFinite x = true) (hy : isFinite y = true) :
    IsRounding (fsub x y) (valueQ x - valueQ y) := by
  rw [sub_eq_add_neg, ← valueQ_fneg]
  exact isRounding_fadd hx (by rwa [isFinite_fneg])

theorem isRounding_fmul {x y : F32} (hx : isFinite x = true) (hy : isFinite y = true) :
    IsRounding (fmul x y) (valueQ x * valueQ y) := by
  refine ⟨_, _, unitsPerOne, by decide, fmul_of_finite hx hy, ?_⟩
  rw [valueQ_eq, valueQ_eq, ← signQ_mul, unitsPerOne]
  push_cast
  ring

theorem isRounding_fdiv {x y : F32} (hx : isFinite x = true) (hy : isFinite y = true) (h0 : isZero y = false) :
    IsRounding (fdiv x y) (valueQ x / valueQ y) := by
  have hm : mag y ≠ 0 := by rw [Ne, mag_eq_zero_iff, h0]; simp
  refine ⟨_, _, mag y, Nat.pos_of_ne_zero hm, fdiv_of_finite hx hy h0, ?_⟩
  have : (mag y : ℚ) ≠ 0 := by exact_mod_cast hm
  rw [valueQ_eq, valueQ_eq, ← signQ_div, Nat.cast_mul,
    show (unitsPerOne : ℚ) = 2 ^ 149 from by norm_num [unitsPerOne], mul_div_mul_comm]
  field_simp

/-- The four operations as the statements list them. -/
theorem isRounding_of_arith {x y r : F32} {z : ℚ} (hx : isFinite x = true) (hy : isFinite y = true)
    (h : r = fadd x y ∧ z = valueQ x + valueQ y ∨ r = fsub x y ∧ z = valueQ x - valueQ y ∨
      r = fmul x y ∧ z = valueQ x * valueQ y ∨ r = fdiv x y ∧ isZero y = false ∧ z = valueQ x / valueQ y) :
    IsRounding r z := by
  rcases h with ⟨rfl, rfl⟩ | ⟨rfl, rfl⟩ | ⟨rfl, rfl⟩ | ⟨rfl, h0, rfl⟩
  · exact isRounding_fadd hx hy
  · exact isRounding_fsub hx hy
  · exact isRounding_fmul hx hy
  · exact isRounding_fdiv hx hy h0

/-- Settles O20: every operation is a rounding of its exact result, and a rounding is nearest. -/
theorem arithmeticRoundsToNearest : Obligations.ArithmeticRoundsToNearest := by
  intro x y hx hy r z h hr f _
  exact (isRounding_of_arith hx hy h).nearest hr f

end Sys2Proof.Machine

namespace Sys2Proof.Machine

/-! ### The classes of patterns -/

theorem isNaN_iff (x : F32) : isNaN x = true ↔ expField x = 255 ∧ fracField x ≠ 0 := by simp [isNaN]

theorem isInf_iff (x : F32) : isInf x = true ↔ expField x = 255 ∧ fracField x = 0 := by simp [isInf]

theorem isZero_iff (x : F32) : isZero x = true ↔ expField x = 0 ∧ fracField x = 0 := by simp [isZero]

theorem isFinite_iff (x : F32) : isFinite x = true ↔ expField x ≠ 255 := by simp [isFinite]

theorem isFinite_eq_false_iff (x : F32) : isFinite x = false ↔ expField x = 255 := by simp [isFinite]

theorem isNaN_eq_false_of_isInf {x : F32} (h : isInf x = true) : isNaN x = false := by
  rw [isInf_iff] at h; simp [isNaN, h.2]

theorem isFinite_of_isZero {x : F32} (h : isZero x = true) : isFinite x = true := by
  rw [isZero_iff] at h; simp [isFinite, h.1]

theorem isZero_eq_false_of_isInf {x : F32} (h : isInf x = true) : isZero x = false := by
  rw [isInf_iff] at h; simp [isZero, h.1]

@[simp] theorem isNaN_nan32 : isNaN nan32 = true := by decide

@[simp] theorem isInf_inf32 (sg : Bool) : isInf (inf32 sg) = true := by cases sg <;> decide

@[simp] theorem isNaN_inf32 (sg : Bool) : isNaN (inf32 sg) = false := by cases sg <;> decide

@[simp] theorem signBit_inf32 (sg : Bool) : signBit (inf32 sg) = sg := by cases sg <;> decide

theorem inf32_true : inf32 true = 0xFF800000#32 := by decide

theorem inf32_false : inf32 false = 0x7F800000#32 := by decide

/-- A pattern is its sign, exponent and fraction fields put together. -/
theorem eq_pack (x : F32) : x = pack (signBit x) (2 ^ 23 * expField x + fracField x) := by
  have h1 := expField_le x
  have h2 := fracField_lt x
  have h3 := x.isLt
  apply BitVec.eq_of_toNat_eq
  rw [toNat_pack _ (by omega), signBit_eq, expField_eq, fracField_eq]
  by_cases h : 2 ^ 31 ≤ x.toNat
  · simp only [h, decide_true, if_true]; omega
  · simp only [h, decide_false, if_false, Bool.false_eq_true]; omega

/-- There are two infinities, one of each sign. -/
theorem eq_inf32_of_isInf {x : F32} (h : isInf x = true) : x = inf32 (signBit x) := by
  obtain ⟨hE, hF⟩ := (isInf_iff x).1 h
  conv_lhs => rw [eq_pack x, hE, hF]
  rfl

theorem isInf_iff_eq (x : F32) : isInf x = true ↔ x = 0x7F800000#32 ∨ x = 0xFF800000#32 := by
  refine ⟨fun h => ?_, by rintro (rfl | rfl) <;> decide⟩
  rw [eq_inf32_of_isInf h]
  cases signBit x
  · exact .inl inf32_false
  · exact .inr inf32_true

/-- The value as the fields give it: a subnormal has the exponent of the smallest normal and no leading one. -/
theorem valueQ_eq_fields (x : F32) :
    valueQ x = signQ (signBit x) * (if expField x = 0 then (fracField x : ℚ) else 2 ^ 23 + fracField x) *
      (2 : ℚ) ^ (max (expField x : ℤ) 1 - 150) := by
  rw [valueQ_eq, mag, mul_assoc]
  split <;> rename_i hE
  · simp [hE, zpow_neg]; left; norm_num [div_eq_mul_inv]
  · have hmax : max (expField x : ℤ) 1 - 150 = ((expField x - 1 : ℕ) : ℤ) - (149 : ℕ) := by omega
    rw [hmax, zpow_sub₀ (by norm_num), zpow_natCast, zpow_natCast]
    rw [Nat.cast_mul, Nat.cast_add, Nat.cast_pow, Nat.cast_pow, Nat.cast_ofNat, mul_div_assoc]

/-! ### Operands that are NaN, infinite or zero -/

theorem fadd_of_isNaN {x y : F32} (h : isNaN x = true ∨ isNaN y = true) : fadd x y = nan32 := by
  rw [fadd, if_pos (by simpa using h)]

theorem fsub_of_isNaN {x y : F32} (h : isNaN x = true ∨ isNaN y = true) : fsub x y = nan32 :=
  fadd_of_isNaN (by rwa [isNaN_fneg])

theorem fmul_of_isNaN {x y : F32} (h : isNaN x = true ∨ isNaN y = true) : fmul x y = nan32 := by
  rw [fmul, if_pos (by simpa using h)]

theorem fdiv_of_isNaN {x y : F32} (h : isNaN x = true ∨ isNaN y = true) : fdiv x y = nan32 := by
  rw [fdiv, if_pos (by simpa using h)]

/-- A sum with an infinity on the left. -/
theorem fadd_of_isInf_left {x y : F32} (hx : isInf x = true) (hy : isNaN y = false) :
    fadd x y = if isInf y && signBit x != signBit y then nan32 else x := by
  simp [fadd, isNaN_eq_false_of_isInf hx, hx, hy]

theorem fadd_of_isInf_right {x y : F32} (hx : isFinite x = true) (hy : isInf y = true) : fadd x y = y := by
  simp [fadd, isNaN_eq_false_of_isFinite hx, isInf_eq_false_of_isFinite hx, isNaN_eq_false_of_isInf hy, hy]

/-- An exact zero sum is −0 only where both numbers are −0. -/
theorem fadd_of_sum_zero {x y : F32} (hx : isFinite x = true) (hy : isFinite y = true)
    (h : valueQ x + valueQ y = 0) : fadd x y = if signBit x && signBit y then negZero32 else zero32 := by
  have hu : units x + units y = 0 := by
    have : valueQ x = valueQ (fneg y) := by rw [valueQ_fneg]; linarith
    rw [valueQ_eq_iff] at this
    have hn : units (fneg y) = -units y := by
      unfold units mag; rw [signBit_fneg, expField_fneg, fracField_fneg]; cases signBit y <;> simp
    omega
  rw [fadd_of_finite hx hy, faddFinite, if_pos hu]

/-- A product with an infinity. -/
theorem fmul_of_isInf {x y : F32} (hx : isNaN x = false) (hy : isNaN y = false)
    (h : isInf x = true ∨ isInf y = true) :
    fmul x y = if isZero x || isZero y then nan32 else inf32 (signBit x != signBit y) := by
  rw [fmul, if_neg (by simp [hx, hy]), if_pos (by simpa using h)]

theorem fdiv_of_isInf_left {x y : F32} (hx : isInf x = true) (hy : isNaN y = false) :
    fdiv x y = if isInf y then nan32 else inf32 (signBit x != signBit y) := by
  simp [fdiv, isNaN_eq_false_of_isInf hx, hx, hy]

theorem fdiv_of_isInf_right {x y : F32} (hx : isFinite x = true) (hy : isInf y = true) :
    fdiv x y = pack (signBit x != signBit y) 0 := by
  simp [fdiv, isNaN_eq_false_of_isFinite hx, isInf_eq_false_of_isFinite hx, isNaN_eq_false_of_isInf hy, hy]

theorem fdiv_of_isZero_right {x y : F32} (hx : isFinite x = true) (hy : isZero y = true) :
    fdiv x y = if isZero x then nan32 else inf32 (signBit x != signBit y) := by
  have hfin := isFinite_of_isZero hy
  simp [fdiv, isNaN_eq_false_of_isFinite hx, isInf_eq_false_of_isFinite hx, isNaN_eq_false_of_isFinite hfin,
    isInf_eq_false_of_isFinite hfin, hy]

/-! ### The class and the sign of a product and a quotient -/

/-- The result is NaN under the condition `C`, and otherwise a sign and a magnitude that is no NaN. -/
def NaNOrSigned (C : Prop) (sg : Bool) (r : F32) : Prop :=
  C ∧ r = nan32 ∨ ¬C ∧ ∃ p ≤ infPattern, r = pack sg p

theorem NaNOrSigned.isNaN_iff {C : Prop} {sg : Bool} {r : F32} (h : NaNOrSigned C sg r) : isNaN r = true ↔ C := by
  rcases h with ⟨hC, rfl⟩ | ⟨hC, p, hp, rfl⟩
  · simp [hC]
  · simp [hC, isNaN_pack sg hp]

theorem NaNOrSigned.signBit_eq {C : Prop} {sg : Bool} {r : F32} (h : NaNOrSigned C sg r) (hn : isNaN r = false) :
    signBit r = sg := by
  rcases h with ⟨-, rfl⟩ | ⟨-, p, hp, rfl⟩
  · simp at hn
  · exact signBit_pack sg (lt_of_le_of_lt hp (by decide))

section
variable {x y : F32} (hx : isNaN x = false) (hy : isNaN y = false)
include hx hy

/-- A product is NaN exactly for 0·∞. -/
theorem fmul_nanOrSigned :
    NaNOrSigned (isZero x = true ∧ isInf y = true ∨ isInf x = true ∧ isZero y = true) (signBit x != signBit y)
      (fmul x y) := by
  by_cases hi : isInf x = true ∨ isInf y = true
  · rw [fmul_of_isInf hx hy hi]
    by_cases hz : isZero x = true ∨ isZero y = true
    · refine .inl ⟨?_, if_pos (by simpa using hz)⟩
      rcases hi with h | h
      · exact .inr ⟨h, hz.resolve_left (by simp [isZero_eq_false_of_isInf h])⟩
      · exact .inl ⟨hz.resolve_right (by simp [isZero_eq_false_of_isInf h]), h⟩
    · exact .inr ⟨by tauto, infPattern, le_rfl, if_neg (by simpa using hz)⟩
  · have hfx : isFinite x = true := isFinite_of_not hx (by simp_all)
    have hfy : isFinite y = true := isFinite_of_not hy (by simp_all)
    exact .inr ⟨by tauto, _, roundMag_le _ _, fmul_of_finite hfx hfy⟩

/-- A quotient is NaN exactly for 0/0 and ∞/∞. -/
theorem fdiv_nanOrSigned :
    NaNOrSigned (isZero x = true ∧ isZero y = true ∨ isInf x = true ∧ isInf y = true) (signBit x != signBit y)
      (fdiv x y) := by
  cases hix : isInf x
  · have hfx := isFinite_of_not hx hix
    cases hiy : isInf y
    · cases hzy : isZero y
      · exact .inr ⟨by simp, _, roundMag_le _ _, fdiv_of_finite hfx (isFinite_of_not hy hiy) hzy⟩
      · rw [fdiv_of_isZero_right hfx hzy]
        cases hzx : isZero x
        · exact .inr ⟨by simp, infPattern, le_rfl, rfl⟩
        · exact .inl ⟨by simp, rfl⟩
    · rw [fdiv_of_isInf_right hfx hiy]
      exact .inr ⟨by simp [isZero_eq_false_of_isInf hiy], 0, by decide, rfl⟩
  · rw [fdiv_of_isInf_left hix hy]
    cases hiy : isInf y
    · exact .inr ⟨by simp [isZero_eq_false_of_isInf hix], infPattern, le_rfl, rfl⟩
    · exact .inl ⟨by simp, rfl⟩

/-- A product with an infinity is an infinity or NaN. -/
theorem isInf_fmul_of_isInf (hi : isInf x = true ∨ isInf y = true) (hn : isNaN (fmul x y) = false) :
    isInf (fmul x y) = true := by
  rw [fmul_of_isInf hx hy hi] at hn ⊢
  split at hn
  · simp at hn
  · simp [*]

/-- An infinity divided, and a number divided by a zero, is an infinity or NaN. -/
theorem isInf_fdiv (h : isInf x = true ∨ isZero y = true) (hn : isNaN (fdiv x y) = false) :
    isInf (fdiv x y) = true := by
  cases hix : isInf x
  · rw [fdiv_of_isZero_right (isFinite_of_not hx hix) (by simpa [hix] using h)] at hn ⊢
    split at hn
    · simp at hn
    · simp [*]
  · rw [fdiv_of_isInf_left hix hy] at hn ⊢
    split at hn
    · simp at hn
    · simp [*]

end

theorem isZero_fdiv_of_isInf_right {x y : F32} (hx : isFinite x = true) (hy : isInf y = true) :
    isZero (fdiv x y) = true := by
  rw [fdiv_of_isInf_right hx hy]
  cases signBit x != signBit y <;> decide

/-! ### The statement about the edges -/

/-- Settles O21: finite operands by `IsRounding`, the others by the class of a product and a quotient. -/
theorem arithmeticOverflow : Obligations.ArithmeticOverflow := by
  refine ⟨fun x => ⟨isNaN_iff x, isInf_iff x, isZero_iff x, isFinite_iff x, BitVec.msb_eq_getLsbD_last x,
    valueQ_eq_fields x⟩, ?_, ?_, fun x y => rfl, ?_⟩
  · intro x y hx hy r z h
    have hr := isRounding_of_arith hx hy h
    exact ⟨hr.isNaN_eq_false, hr.isInf_iff, hr.signBit_iff⟩
  · intro x y h
    rw [fadd_of_isNaN h, fsub_of_isNaN h, fmul_of_isNaN h, fdiv_of_isNaN h]
    simp
  · intro x y hx hy
    have hmul := fmul_nanOrSigned hx hy
    have hdiv := fdiv_nanOrSigned hx hy
    refine ⟨⟨?_, ?_, fun h1 h2 => fadd_of_isInf_right h1 h2, ?_, ?_⟩,
      ⟨hmul.isNaN_iff, hmul.signBit_eq, isInf_fmul_of_isInf hx hy⟩,
      hdiv.isNaN_iff, hdiv.signBit_eq, isInf_fdiv hx hy, isZero_fdiv_of_isInf_right⟩
    · intro h1 h2 h0
      rw [fadd_of_sum_zero h1 h2 h0]
      simp [negZero32, zero32]
    · intro h1 h2
      rw [fadd_of_isInf_left h1 hy, isInf_eq_false_of_isFinite h2]
      rfl
    · intro h1 h2 hs
      simp [fadd_of_isInf_left h1 hy, hs]
    · intro h1 h2 hs
      simp [fadd_of_isInf_left h1 hy, h2, hs]

/-! ### Comparisons -/

theorem mag_of_isInf {x : F32} (h : isInf x = true) : mag x = 2 ^ 24 * 2 ^ 253 := by
  obtain ⟨hE, hF⟩ := (isInf_iff x).1 h
  rw [mag, if_neg (by omega), hE, hF]; norm_num

/-- Every finite magnitude is below that of an infinity. -/
theorem mag_lt_of_isFinite {x : F32} (h : isFinite x = true) : mag x < 2 ^ 24 * 2 ^ 253 :=
  lt_of_le_of_lt (mag_le_of_isFinite h) (by norm_num)

theorem fle_eq {x y : F32} (hx : isNaN x = false) (hy : isNaN y = false) :
    fle x y = decide (units x ≤ units y) := by
  simp [fle, hx, hy]

theorem feq_eq {x y : F32} (hx : isNaN x = false) (hy : isNaN y = false) :
    feq x y = decide (units x = units y) := by
  simp [feq, hx, hy]

/-- A finite number against an infinity: the infinity's sign decides. -/
theorem compare_finite_inf {x y : F32} (hx : isFinite x = true) (hy : isInf y = true) :
    fle x y = !signBit y ∧ fle y x = signBit y ∧ feq x y = false ∧ feq y x = false := by
  have hnx := isNaN_eq_false_of_isFinite hx
  have hny := isNaN_eq_false_of_isInf hy
  have hlt := mag_lt_of_isFinite hx
  rw [← mag_of_isInf hy] at hlt
  have hux : -(mag x : Int) ≤ units x ∧ units x ≤ mag x := by unfold units; split <;> omega
  have huy : units y = if signBit y then -(mag y : Int) else mag y := rfl
  rw [fle_eq hnx hny, fle_eq hny hnx, feq_eq hnx hny, feq_eq hny hnx]
  cases hs : signBit y
  · rw [hs, if_neg Bool.false_ne_true] at huy
    simp; omega
  · rw [hs, if_pos rfl] at huy
    simp; omega

/-- Two infinities compare as their signs do. -/
theorem compare_inf_inf {x y : F32} (hx : isInf x = true) (hy : isInf y = true) :
    fle x y = (signBit x || !signBit y) ∧ feq x y = (signBit x == signBit y) := by
  rw [eq_inf32_of_isInf hx, eq_inf32_of_isInf hy]
  cases signBit x <;> cases signBit y <;> decide +kernel

/-- Settles O22: a comparison without a NaN is one of whole numbers of units, where an infinity's is above every finite
one. -/
theorem comparisonsAreOrdered : Obligations.ComparisonsAreOrdered := by
  intro x y
  refine ⟨?_, ?_, compare_finite_inf, compare_inf_inf, isInf_iff_eq x⟩
  · rintro (h | h) <;> simp [fle, feq, h]
  · intro hx hy
    have hnx := isNaN_eq_false_of_isFinite hx
    have hny := isNaN_eq_false_of_isFinite hy
    rw [fle_eq hnx hny, feq_eq hnx hny, valueQ_le_iff, valueQ_eq_iff, decide_eq_true_iff, decide_eq_true_iff]
    exact ⟨Iff.rfl, Iff.rfl⟩

end Sys2Proof.Machine

namespace Sys2Proof.Machine

/-! ### Constants and small whole numbers -/

theorem nearestEven_mul_of_dvd {n d : Nat} (h : d ∣ n) : nearestEven n d * d = n := by
  obtain ⟨k, rfl⟩ := h
  rcases Nat.eq_zero_or_pos d with rfl | hd
  · simp
  · rw [nearestEven, Nat.mul_mod_right, Nat.mul_div_cancel_left k hd, if_pos (by omega), mul_comm]

/-- A whole number below 2^24 fits a significand, so its conversion is exact (R12). -/
theorem i2f_exact {k : Nat} (hk : k < 2 ^ 24) :
    isFinite (i2f k) = true ∧ signBit (i2f k) = false ∧ mag (i2f k) = 2 ^ 149 * k := by
  have hn : unitsPerOne * k < (2 ^ 25 - 1) * (2 ^ 252 * 1) := by
    calc unitsPerOne * k ≤ 2 ^ 149 * 2 ^ 24 := Nat.mul_le_mul le_rfl hk.le
      _ < _ := by norm_num
  have hlt := roundMag_lt_of_lt one_pos hn
  refine ⟨isFinite_pack false hlt, signBit_pack false (roundMag_lt_two_pow _ _), ?_⟩
  rw [i2f, nearestF32, mag_pack_roundMag false one_pos hlt]
  have hdvd : 2 ^ excessBits (unitsPerOne * k) 1 ∣ unitsPerOne * k := by
    refine Dvd.dvd.mul_right (Nat.pow_dvd_pow 2 ?_) k
    by_contra ht
    have h1 := le_excessBits (n := unitsPerOne * k) one_pos (by omega)
    have h2 : 2 ^ 150 ≤ 2 ^ excessBits (unitsPerOne * k) 1 := Nat.pow_le_pow_right (by norm_num) (by omega)
    rw [show unitsPerOne = 2 ^ 149 from rfl] at h1 h2
    norm_num at h1 h2 hk
    omega
  rw [roundedSig, one_mul]
  exact nearestEven_mul_of_dvd hdvd

theorem valueQ_i2f {k : Nat} (hk : k < 2 ^ 24) : valueQ (i2f k) = k := by
  obtain ⟨-, hs, hm⟩ := i2f_exact hk
  rw [valueQ_eq, hs, hm, signQ_false, one_mul, Nat.cast_mul, Nat.cast_pow, Nat.cast_ofNat,
    mul_div_cancel_left₀ _ (by positivity)]

/-- The whole numbers of R100 and R180 are the conversions of themselves. -/
theorem integers_eq_i2f :
    lT = i2f 8 ∧ f116 = i2f 116 ∧ f16 = i2f 16 ∧ f500 = i2f 500 ∧ f200 = i2f 200 ∧ f13 = i2f 13 ∧ f15 = i2f 15 ∧
    f3 = i2f 3 ∧ f4 = i2f 4 ∧ f9 = i2f 9 ∧ f1 = i2f 1 ∧ f12 = i2f 12 ∧ f20 = i2f 20 ∧ f255 = i2f 255 ∧
    zero32 = i2f 0 := by decide +kernel

/-- The decimal literals and fractions of R100, rounded to the nearest binary32. -/
theorem literals_eq_nearestF32 :
    kDecT = nearestF32 false 4045 100000 ∧ k1292 = nearestF32 false 1292 100 ∧ k055 = nearestF32 false 55 1000 ∧
    k1055 = nearestF32 false 1055 1000 ∧ kEncT = nearestF32 false 31308 10000000 ∧
    labT = nearestF32 false 8856451679035631 1000000000000000000 ∧
    labK = nearestF32 false 12841854934601665 100000000000000000 ∧ f4over29 = nearestF32 false 4 29 ∧
    f6over29 = nearestF32 false 20689655172413793 100000000000000000 ∧
    kappa = nearestF32 false 9032962962962963 10000000000000 := by decide +kernel

/-- Settles O23: the literals are evaluated, the whole numbers are exact conversions. -/
theorem constantsAreNearest : Obligations.ConstantsAreNearest := by
  refine ⟨by decide, literals_eq_nearestF32, ?_, fun k hk => ?_⟩
  · simp [integers_eq_i2f, valueQ_i2f]
  · have hk' : k < 2 ^ 24 := by omega
    obtain ⟨hf, hs, -⟩ := i2f_exact hk'
    exact ⟨hf, hs, valueQ_i2f hk'⟩

/-! ### The operand check comes first (R17, R191, R224) -/

theorem checkFinite_append (s : State) (l m : List Reg) :
    checkFinite s (l ++ m) = (do checkFinite s l; checkFinite s m) := by
  induction l with
  | nil => rfl
  | cons g rest ih =>
    rw [List.cons_append, checkFinite, checkFinite, ih]
    split <;> rfl

theorem runTriple_of_check_error {s : State} {regs : List Reg} {f : OpFault} (h : checkFinite s regs = .error f)
    (e : Eval (Triple F32)) : runTriple s regs e = .next (s.raise f) := by
  rw [runTriple, h]; rfl

/-- An operation that is no BATCH ends with the fault of its operand check, whatever it would compute. -/
theorem exec_of_check_error {i : Instr} {s : State} {f : OpFault} (hp : i.pid? = none)
    (h : checkFinite s (checkedRegs i) = .error f) : exec i s = .next (s.raise f) := by
  cases i
  case nop => cases h
  case wset => rw [exec, execWset, show checkFinite s aRegs = .error f from h]; rfl
  case quant => rw [exec, execQuant, show checkFinite s quantRegs = .error f from h]; rfl
  case root3 | root5 | root12 | srgbDec | srgbEnc | labFwd | labInv | xyz2lab | lab2xyz | uvp | xyz2luv | xyz2luvPw |
      luv2xyz | luv2xyzPw | matFwd | matInv | srgb2xyz | xyz2srgb | srgb2lab | lab2srgb =>
    exact runTriple_of_check_error h _
  all_goals cases hp

theorem batchCheckedRegs_eq (p : Pid) : batchCheckedRegs p = scaleRegs ++ pidWhiteRegs p := by cases p <;> rfl

/-- Past the bounds, a BATCH's entry check is the check of the scales and the white registers (R191). -/
theorem batchEntryCheck_of_bounds {p : Pid} {s : State} (h : s.batchStart + 4 * s.npix ≤ s.cfg.memBytes) :
    batchEntryCheck p s = checkFinite s (batchCheckedRegs p) := by
  rw [batchEntryCheck, if_neg (not_lt.2 h), batchCheckedRegs_eq, checkFinite_append]

/-- Settles O17: the check reports the first register that is not finite, and nothing comes before it but a BATCH's
bounds. -/
theorem operandCheckReportsFirst : Obligations.OperandCheckReportsFirst := by
  refine ⟨?_, ?_, isFinite_iff⟩
  · intro i s pre post g hp hregs hpre hg
    refine exec_of_check_error hp ?_
    rw [hregs]
    exact checkFinite_first s pre g post hpre ((isFinite_eq_false_iff _).2 hg)
  · intro p s pre post g hw hb hregs hpre hg
    have hcheck : batchEntryCheck p s = .error ⟨.domainOperand, regOffset g⟩ := by
      rw [batchEntryCheck_of_bounds hb, hregs]
      exact checkFinite_first s pre g post hpre ((isFinite_eq_false_iff _).2 hg)
    rw [exec_pid, batchStep_of_not_walk p hw, batchEntry, hcheck]

/-! ### The end step (R223) -/

theorem isNaN_nanPattern (n : Nat) : isNaN (nanPattern n) = true := by
  unfold nanPattern
  split
  · assumption
  · exact isNaN_nan32

theorem settleWord_of_not_isNaN (n : Nat) {x : F32} (h : isNaN x = false) : settleWord n x = x := by
  rw [settleWord, if_neg (by simp [h])]

theorem isNaN_settleWord (n : Nat) {x : F32} (h : isNaN x = true) : isNaN (settleWord n x) = true := by
  rw [settleWord, if_pos h, isNaN_nanPattern]

/-- Settles O18: each lane by what `settleWord` gives it, the frame by `writeResult` and `complete`. -/
theorem endStepWritesResults : Obligations.EndStepWritesResults := by
  intro s v
  exact ⟨settleWord_of_not_isNaN _, isNaN_settleWord _, settleWord_of_not_isNaN _, isNaN_settleWord _,
    settleWord_of_not_isNaN _, isNaN_settleWord _, rfl⟩

end Sys2Proof.Machine

/-! ## The state, its moves and the invariant (spec/10_state.md) -/

namespace Sys2Proof.Machine

/-! ### What one step can do (R265) -/

/-- A step is the engine's or the host's, on the state as it is or with its turn taken. -/
theorem step_cases {s t : State} (h : step s = .next t) :
    ∃ u, (u = s ∨ u = s.dropTurn) ∧
      (engineStep u = .next t ∨
       ∃ act, hostStep act u = .next t ∧ (act = .reset → ∃ rest, s.script = .host .reset :: rest)) := by
  unfold step takeTurn at h
  split at h
  case h_1 => exact ⟨s, .inl rfl, .inl h⟩
  case h_2 => exact ⟨s.dropTurn, .inr rfl, .inl h⟩
  case h_3 act rest hs => exact ⟨s.dropTurn, .inr rfl, .inr ⟨act, h, fun ha => ⟨rest, ha ▸ hs⟩⟩⟩
  case h_4 =>
    split at h
    · exact ⟨s, .inl rfl, .inl h⟩
    · exact ⟨s.dropTurn, .inr rfl, .inr ⟨_, h, nofun⟩⟩

/-- The engine's step: none in IDLE, the fault of a word that decodes to nothing, or the decoded operation's. -/
theorem engineStep_cases {s t : State} (h : engineStep s = .next t) :
    (s.phase = .idle ∧ t = s) ∨
    (s.phase ≠ .idle ∧ t = s.raise ⟨.illegalCmd, 0⟩) ∨
    (s.phase ≠ .idle ∧ ∃ i, s.operation = .ok i ∧ exec i s = .next t) := by
  by_cases hp : s.phase = .idle
  · rw [engineStep_of_idle hp] at h
    injection h with h
    exact .inl ⟨hp, h.symm⟩
  · cases ho : s.operation with
    | ok i => exact .inr (.inr ⟨hp, i, rfl, engineStep_of_ok hp ho ▸ h⟩)
    | error e =>
      rw [engineStep_of_error hp ho] at h
      injection h with h
      exact .inr (.inl ⟨hp, h.symm⟩)

/-- A host access to a byte goes through only where the byte exists. -/
theorem hostByteAccess_cases {s t u : State} {x : Nat} (h : hostByteAccess s x t = .next u) :
    x < s.cfg.memBytes ∧ u = t := by
  unfold hostByteAccess at h
  split at h
  · cases h
  · split at h
    · injection h with h
      exact ⟨‹_›, h.symm⟩
    · cases h

/-! ### What a host write does to a register (R21, R260) -/

theorem guarded_of_idle {s : State} (hb : s.busy = false) (t : State) : guarded s t = t := by simp [guarded, hb]

theorem guarded_of_busy {s : State} (hb : s.busy = true) (t : State) :
    guarded s t = { s with status := { s.status with wlost := true } } := by simp [guarded, hb]

theorem hostStep_wr_slotOf (s : State) (g : Reg) (w : Word) :
    hostStep (.wr (slotOf g) w) s = .next (writeReg s.seeIrq g w) := by
  simp [hostStep, hostMove, hostWrite, regOfSlot_slotOf]

theorem writeReg_of_ro (s : State) (w : Word) {g : Reg} (hg : g ∈ roRegs) : writeReg s g w = s := by
  fin_cases hg <;> rfl

theorem writeReg_of_busy {s : State} (hb : s.busy = true) (w : Word) {g : Reg} (hg : g ∈ idleOnlyRegs) :
    writeReg s g w = { s with status := { s.status with wlost := true } } := by
  fin_cases hg <;> exact guarded_of_busy hb _

/-- A write to an operand, white, scale or buffer register of an idle block changes nothing but these. -/
theorem writeReg_frame_of_idle {s : State} (hb : s.busy = false) (w : Word) {g : Reg} (hg : g ∈ idleOnlyRegs)
    (hc : g ≠ .cmd) {t : State} (h : writeReg s g w = t) :
    t = { s with
      a := t.a, wx := t.wx, wy := t.wy, wz := t.wz, wup := t.wup, wvp := t.wvp, inScale := t.inScale
      outScale := t.outScale, bufAddr := t.bufAddr, bufOff := t.bufOff, bufLen := t.bufLen } := by
  fin_cases hg
  · exact absurd rfl hc
  all_goals
    rw [writeReg, guarded_of_idle hb] at h
    subst h
    rfl

theorem get_writeReg_self {s : State} (hb : s.busy = false) (w : Word) {g : Reg} (hg : g ∈ idleOnlyRegs) :
    (writeReg s g w).get g = w := by
  fin_cases hg <;> exact congrArg (State.get · _) (guarded_of_idle hb _)

theorem get_writeReg_of_ne {s : State} (hb : s.busy = false) (w : Word) {g h : Reg} (hg : g ∈ idleOnlyRegs)
    (hc : g ≠ .cmd) (hne : h ≠ g) : (writeReg s g w).get h = s.get h := by
  fin_cases hg
  · exact absurd rfl hc
  all_goals
    rw [writeReg, guarded_of_idle hb]
    cases h
  all_goals first | exact absurd rfl hne | rfl

/-- What a host write to a register can do: nothing, WLOST, a start, the rules of STATUS and CTRL, or a new word in a
register that takes one. -/
theorem writeReg_cases {s t : State} {g : Reg} {w : Word} (h : writeReg s g w = t) :
    t = s ∨
    (s.busy = true ∧ t = { s with status := { s.status with wlost := true } }) ∨
    (s.busy = false ∧ t = s.startCommand w) ∨
    t = writeStatus s w ∨
    t = { s with irqEn := w.getLsbD 0 } ∨
    (s.busy = false ∧ t = { s with
      a := t.a, wx := t.wx, wy := t.wy, wz := t.wz, wup := t.wup, wvp := t.wvp, inScale := t.inScale
      outScale := t.outScale, bufAddr := t.bufAddr, bufOff := t.bufOff, bufLen := t.bufLen }) := by
  by_cases hro : g ∈ roRegs
  · exact .inl (h.symm.trans (writeReg_of_ro s w hro))
  by_cases hid : g ∈ idleOnlyRegs
  · cases hb : s.busy with
    | true => exact .inr (.inl ⟨rfl, h.symm.trans (writeReg_of_busy hb w hid)⟩)
    | false =>
      by_cases hc : g = .cmd
      · subst hc
        exact .inr (.inr (.inl ⟨rfl, h.symm.trans (guarded_of_idle hb _)⟩))
      · exact .inr (.inr (.inr (.inr (.inr ⟨rfl, writeReg_frame_of_idle hb w hid hc h⟩))))
  · cases g
    case status => exact .inr (.inr (.inr (.inl h.symm)))
    case ctrl => exact .inr (.inr (.inr (.inr (.inl h.symm))))
    all_goals simp [roRegs, idleOnlyRegs] at hro hid

theorem acknowledge_frame (s : State) : s.acknowledge = { s with status := s.acknowledge.status } := by
  unfold State.acknowledge; split <;> rfl

theorem writeStatus_frame (s : State) (w : Word) : writeStatus s w = { s with status := (writeStatus s w).status } := by
  unfold writeStatus
  rw [acknowledge_frame]
  dsimp only
  split_ifs <;> rfl

/-! ### Frames (R28, R30, R268) -/

/-- A host step, the reset signal apart, writes no result, no ERR_INFO, no BATCH_IDX and no parameter. -/
theorem hostStep_frame {act : HostAction} {s t : State} (h : hostStep act s = .next t) (hr : act ≠ .reset) :
    t = { s with
      cmd := t.cmd, status := t.status, irqEn := t.irqEn, a := t.a, wx := t.wx, wy := t.wy, wz := t.wz, wup := t.wup
      wvp := t.wvp, inScale := t.inScale, outScale := t.outScale, bufAddr := t.bufAddr, bufOff := t.bufOff
      bufLen := t.bufLen, phase := t.phase, mem := t.mem, handed := t.handed, replies := t.replies } := by
  unfold hostStep hostMove at h
  rw [seeIrq_eq] at h
  cases act with
  | reset => exact absurd rfl hr
  | rd slot => injection h with h; rw [← h, readSlot_eq]
  | wb addr b => obtain ⟨-, rfl⟩ := hostByteAccess_cases h; rfl
  | rb addr => obtain ⟨-, rfl⟩ := hostByteAccess_cases h; rfl
  | wr slot w =>
    injection h with h
    subst h
    unfold hostWrite
    split
    · generalize hx : writeReg _ _ w = x
      rcases writeReg_cases hx with rfl | ⟨-, rfl⟩ | ⟨-, rfl⟩ | rfl | rfl | ⟨-, hf⟩
      · rfl
      · rfl
      · rfl
      · rw [writeStatus_frame]
      · rfl
      · rw [hf]
    · rfl

/-- An operation writes STATUS, ERR_INFO, results, white, BATCH_IDX and bytes; no operand, scale, buffer or control
register and no parameter. -/
theorem exec_frame {i : Instr} {s t : State} (h : exec i s = .next t) :
    t = { s with
      status := t.status, errInfo := t.errInfo, r := t.r, wx := t.wx, wy := t.wy, wz := t.wz, wup := t.wup
      wvp := t.wvp, batchIdx := t.batchIdx, phase := t.phase, mem := t.mem, nanDraws := t.nanDraws } := by
  cases hp : i.pid? with
  | none =>
    rcases exec_nonbatch_cases hp h with ⟨-, f, rfl⟩ | ⟨-, rfl⟩ | ⟨-, w, u, v, rfl⟩ | ⟨-, q, rfl⟩ | ⟨-, -, -, v, rfl⟩ <;>
      rfl
  | some p =>
    rw [eq_instr_of_pid? hp, exec_pid] at h
    rcases batchStep_cases h with ⟨-, f, -, rfl⟩ | ⟨-, -, rfl⟩ | ⟨k, b, f, -, -, -, -, rfl⟩ |
      ⟨k, b, q, -, -, -, -, rfl⟩ | ⟨k, -, -, rfl⟩ <;> rfl

/-- The engine writes what its operation may write. -/
theorem engineStep_frame {s t : State} (h : engineStep s = .next t) :
    t = { s with
      status := t.status, errInfo := t.errInfo, r := t.r, wx := t.wx, wy := t.wy, wz := t.wz, wup := t.wup
      wvp := t.wvp, batchIdx := t.batchIdx, phase := t.phase, mem := t.mem, nanDraws := t.nanDraws } := by
  rcases engineStep_cases h with ⟨-, rfl⟩ | ⟨-, rfl⟩ | ⟨-, i, -, h⟩
  · rfl
  · rfl
  · exact exec_frame h

/-- Settles O55: the engine's frame; and the host's, where the reset signal keeps the parameters too. -/
theorem engineNeverWritesOperands : Obligations.EngineNeverWritesOperands := by
  refine ⟨fun s t h => ?_, fun s t h => ?_⟩
  · rw [engineStep_frame h]
    exact ⟨rfl, rfl, rfl, rfl, rfl, rfl, rfl, rfl, rfl⟩
  · obtain ⟨u, hu, h | ⟨act, h, -⟩⟩ := step_cases h
    all_goals have hcfg : u.cfg = s.cfg := by rcases hu with rfl | rfl <;> rfl
    · rw [engineStep_frame h, hcfg]
    · by_cases hr : act = .reset
      · subst hr
        injection h with h
        rw [← h, ← hcfg]
        exact seeIrq_cfg u
      · rw [hostStep_frame h hr, hcfg]

/-- Settles O53: each end of an operation that is no BATCH, with its own frame. -/
theorem nonBatchFrame : Obligations.NonBatchFrame := by
  intro i s t hp h
  rcases exec_nonbatch_cases hp h with ⟨hn, f, rfl⟩ | ⟨rfl, rfl⟩ | ⟨rfl, w, u, v, rfl⟩ | ⟨rfl, q, rfl⟩ |
    ⟨hn, hw, -, v, rfl⟩
  · exact ⟨rfl, rfl, rfl, fun _ => rfl, nofun, nofun, nofun, fun _ => rfl⟩
  · exact ⟨rfl, rfl, rfl, nofun, fun _ _ h => absurd rfl h, nofun, fun _ _ => rfl, fun _ => rfl⟩
  · exact ⟨rfl, rfl, rfl, nofun, fun _ h => absurd rfl h, fun _ _ => rfl, nofun, fun _ => rfl⟩
  · exact ⟨rfl, rfl, rfl, nofun, fun _ _ _ => rfl, nofun, nofun, fun _ => rfl⟩
  · exact ⟨rfl, rfl, rfl, nofun, fun _ _ _ => rfl, fun _ h => absurd h hw, fun _ h => absurd h hn, fun _ => rfl⟩

/-- Settles O54: each end of a BATCH's step; only a pixel written without a fault touches the memory. -/
theorem batchFrame : Obligations.BatchFrame := by
  intro p s t h
  rw [exec_pid] at h
  rcases batchStep_cases h with ⟨-, f, -, rfl⟩ | ⟨-, -, rfl⟩ | ⟨k, b, f, -, -, -, -, rfl⟩ |
    ⟨k, b, q, hw, hk, -, -, rfl⟩ | ⟨k, -, -, rfl⟩
  case inr.inr.inr.inl =>
    refine ⟨rfl, rfl, fun j hj _ y => ?_, fun hend => absurd (hend k hw) (not_le.2 hk)⟩
    obtain rfl : k = j := by rw [hw] at hj; injection hj
    exact byteAt_writePixel_of_ne s (s.pixelAddr k) y q
  all_goals exact ⟨rfl, rfl, fun _ _ _ _ _ _ _ => rfl, fun _ _ => rfl⟩

/-! ### When ERR_INFO and the results change (R26, R28) -/

/-- An operation that changes ERR_INFO ended with a fault; one that changes R0 to R2 ended without, and is none of
BATCH, NOP and WSET. -/
theorem exec_results {i : Instr} {s t : State} (h : exec i s = .next t) :
    (t.errInfo ≠ s.errInfo → t.phase = .idle ∧ t.status.done = true ∧ t.status.err = true) ∧
    (t.r ≠ s.r → t.phase = .idle ∧ t.status.done = true ∧ t.status.err = false ∧
      i.pid? = none ∧ i ≠ .nop ∧ i ≠ .wset) := by
  cases hp : i.pid? with
  | none =>
    rcases exec_nonbatch_cases hp h with ⟨-, f, rfl⟩ | ⟨-, rfl⟩ | ⟨-, w, u, v, rfl⟩ | ⟨hq, q, rfl⟩ | ⟨hn, hw, -, v, rfl⟩
    · exact ⟨fun _ => ⟨rfl, rfl, rfl⟩, fun h => absurd rfl h⟩
    · exact ⟨fun h => absurd rfl h, fun h => absurd rfl h⟩
    · exact ⟨fun h => absurd rfl h, fun h => absurd rfl h⟩
    · exact ⟨fun h => absurd rfl h, fun _ => ⟨rfl, rfl, rfl, rfl, by simp [hq], by simp [hq]⟩⟩
    · exact ⟨fun h => absurd rfl h, fun _ => ⟨rfl, rfl, rfl, rfl, hn, hw⟩⟩
  | some p =>
    rw [eq_instr_of_pid? hp, exec_pid] at h
    rcases batchStep_cases h with ⟨-, f, -, rfl⟩ | ⟨-, -, rfl⟩ | ⟨k, b, f, -, -, -, -, rfl⟩ |
      ⟨k, b, q, -, -, -, -, rfl⟩ | ⟨k, -, -, rfl⟩
    case inl | inr.inr.inl => exact ⟨fun _ => ⟨rfl, rfl, rfl⟩, fun h => absurd rfl h⟩
    all_goals exact ⟨fun h => absurd rfl h, fun h => absurd rfl h⟩

theorem engineStep_results {s t : State} (h : engineStep s = .next t) :
    (t.errInfo ≠ s.errInfo → s.busy = true ∧ t.phase = .idle ∧ t.status.done = true ∧ t.status.err = true) ∧
    (t.r ≠ s.r → s.busy = true ∧ t.phase = .idle ∧ t.status.done = true ∧ t.status.err = false ∧
      ∃ i, s.operation = .ok i ∧ i.pid? = none ∧ i ≠ .nop ∧ i ≠ .wset) := by
  rcases engineStep_cases h with ⟨-, rfl⟩ | ⟨hb, rfl⟩ | ⟨hb, i, hi, h⟩
  · exact ⟨fun h => absurd rfl h, fun h => absurd rfl h⟩
  · exact ⟨fun _ => ⟨(busy_eq_true_iff s).2 hb, rfl, rfl, rfl⟩, fun h => absurd rfl h⟩
  · obtain ⟨he, hr⟩ := exec_results h
    refine ⟨fun hne => ⟨(busy_eq_true_iff s).2 hb, he hne⟩, fun hne => ?_⟩
    obtain ⟨hph, hd, herr, hop⟩ := hr hne
    exact ⟨(busy_eq_true_iff s).2 hb, hph, hd, herr, i, hi, hop⟩

/-- Settles O56: the engine's end steps, and a host step but the reset signal touches neither. -/
theorem resultsChangeOnlyAtTheEnd : Obligations.ResultsChangeOnlyAtTheEnd := by
  intro s t h hnr
  obtain ⟨u, hu, he | ⟨act, hh, hreset⟩⟩ := step_cases h
  · have hres := engineStep_results he
    rcases hu with rfl | rfl <;> exact hres
  · have hf := hostStep_frame hh fun ha => (hreset ha).elim hnr
    rcases hu with rfl | rfl <;> rw [hf] <;> exact ⟨fun h => absurd rfl h, fun h => absurd rfl h⟩

end Sys2Proof.Machine

namespace Sys2Proof.Machine

/-! ### The invariant (R23, R32, R36, R50, R191) -/

theorem faultByte_ne_zero (c : FaultCode) : faultByte c ≠ 0#8 := by cases c <;> decide

theorem faultByte_le_six (c : FaultCode) : (faultByte c).toNat ≤ 6 := by cases c <;> decide

/-- The entry checks do not see STATUS, the phase, BATCH_IDX, the memory and the host's fields (R191). -/
theorem batchEntryCheck_of_frame (p : Pid) {s t : State}
    (ht : t = { s with
      status := t.status, irqEn := t.irqEn, batchIdx := t.batchIdx, phase := t.phase, mem := t.mem
      handed := t.handed, script := t.script, replies := t.replies }) :
    batchEntryCheck p t = batchEntryCheck p s := by
  rw [ht]
  exact batchEntryCheck_congr p rfl rfl rfl rfl rfl rfl rfl rfl rfl rfl rfl

/-- A walk stays legal where only fields change that its clause does not speak of. -/
theorem walkLegal_of_frame {s t : State} (h : s.WalkLegal)
    (ht : t = { s with
      status := t.status, irqEn := t.irqEn, mem := t.mem, handed := t.handed, script := t.script
      replies := t.replies }) : t.WalkLegal := by
  intro k hk
  rw [ht] at hk ⊢
  obtain ⟨hle, hidx, p, hop, hcheck⟩ := h k hk
  exact ⟨hle, hidx, p, hop, (batchEntryCheck_of_frame p rfl).trans hcheck⟩

/-- Legality passes to a state that differs only in fields the walk's clause does not speak of, with STATUS and the
memory legal. -/
theorem inv_of_frame {s t : State} (h : s.Inv)
    (ht : t = { s with
      status := t.status, irqEn := t.irqEn, mem := t.mem, handed := t.handed, script := t.script
      replies := t.replies })
    (hst : t.StatusLegal) (hm : t.MemLegal) : t.Inv := by
  obtain ⟨hadm, -, -, hwalk⟩ := h
  refine ⟨?_, hst, hm, walkLegal_of_frame hwalk ht⟩
  rw [ht]
  exact hadm

/-- Outside a walk, legality is that of the parameters, STATUS and the memory. -/
theorem inv_of_not_walk {t : State} (hw : ∀ k, t.phase ≠ .walk k) (hadm : t.cfg.Admitted) (hst : t.StatusLegal)
    (hm : t.MemLegal) : t.Inv := ⟨hadm, hst, hm, fun k hk => absurd hk (hw k)⟩

/-- Settles O58: STATUS is 0, nothing is listed and the phase is IDLE. -/
theorem resetIsLegal : Obligations.ResetIsLegal :=
  inv_of_not_walk nofun (by decide) (by decide) ⟨reset_mem_wf, nofun⟩

/-! The ends and the start of an operation -/

theorem raise_inv {s : State} (hadm : s.cfg.Admitted) (hm : s.MemLegal) (f : OpFault) : (s.raise f).Inv :=
  inv_of_not_walk nofun hadm ⟨nofun, fun _ => ⟨rfl, faultByte_ne_zero _⟩, nofun, faultByte_le_six _⟩ hm

theorem complete_inv {s : State} (hadm : s.cfg.Admitted) (hm : s.MemLegal) : s.complete.Inv :=
  inv_of_not_walk nofun hadm ⟨nofun, nofun, fun _ => rfl, Nat.zero_le 6⟩ hm

theorem startCommand_inv {s : State} (hadm : s.cfg.Admitted) (hm : s.MemLegal) (w : Word) : (s.startCommand w).Inv :=
  inv_of_not_walk nofun hadm ⟨fun _ => ⟨rfl, rfl, rfl⟩, nofun, fun _ => rfl, Nat.zero_le 6⟩ hm

/-- The step to pixel `j` of a BATCH that passed its entry checks. -/
theorem advanceTo_inv {s : State} (hadm : s.cfg.Admitted) (hst : s.StatusLegal) (hm : s.MemLegal) (hb : s.busy = true)
    {j : Nat} (hj : j ≤ s.npix) {p : Pid} (hop : s.operation = .ok p.instr) (hcheck : batchEntryCheck p s = .ok ()) :
    (s.advanceTo j).Inv := by
  obtain ⟨hbusy, herr, hnerr, hcode⟩ := hst
  refine ⟨hadm, ⟨fun _ => hbusy hb, herr, hnerr, hcode⟩, hm, fun k hk => ?_⟩
  obtain rfl : j = k := by injection hk
  exact ⟨hj, rfl, p, hop, (batchEntryCheck_of_frame p rfl).trans hcheck⟩

/-! The steps of the engine -/

/-- One step of a BATCH from a legal busy state. -/
theorem batchStep_inv {p : Pid} {s t : State} (h : s.Inv) (hb : s.busy = true) (hop : s.operation = .ok p.instr)
    (hstep : batchStep p s = .next t) : t.Inv := by
  obtain ⟨hadm, hst, hm, hwalk⟩ := h
  rcases batchStep_cases hstep with ⟨-, f, -, rfl⟩ | ⟨-, hcheck, rfl⟩ | ⟨k, b, f, -, -, -, -, rfl⟩ |
    ⟨k, b, q, hw, hk, hread, -, rfl⟩ | ⟨k, -, -, rfl⟩
  · exact raise_inv (s := { s with batchIdx := 0#32 }) hadm hm f
  · exact advanceTo_inv hadm hst hm hb (Nat.zero_le _) hop hcheck
  · exact raise_inv hadm hm f
  · obtain ⟨-, -, p', hop', hcheck⟩ := hwalk k hw
    have hmem : s.pixelAddr k + 2 < s.cfg.memBytes := by
      by_contra hge
      rw [readPixel_eq, if_neg hge] at hread
      cases hread
    exact advanceTo_inv (s := writePixel s _ q) hadm hst (writePixel_memLegal hm _ q hmem) hb hk hop'
      ((batchEntryCheck_of_frame p' rfl).trans hcheck)
  · exact complete_inv hadm hm

/-- An operation's step from a legal busy state. -/
theorem exec_inv {i : Instr} {s t : State} (h : s.Inv) (hb : s.busy = true) (hop : s.operation = .ok i)
    (hstep : exec i s = .next t) : t.Inv := by
  cases hp : i.pid? with
  | some p =>
    obtain rfl := eq_instr_of_pid? hp
    exact batchStep_inv h hb hop (exec_pid p s ▸ hstep)
  | none =>
    obtain ⟨hadm, -, hm, -⟩ := h
    rcases exec_nonbatch_cases hp hstep with ⟨-, f, rfl⟩ | ⟨-, rfl⟩ | ⟨-, w, u, v, rfl⟩ | ⟨-, q, rfl⟩ | ⟨-, -, -, v, rfl⟩
    case inl => exact raise_inv hadm hm f
    all_goals exact complete_inv hadm hm

theorem engineStep_inv {s t : State} (h : s.Inv) (hstep : engineStep s = .next t) : t.Inv := by
  rcases engineStep_cases hstep with ⟨-, rfl⟩ | ⟨-, rfl⟩ | ⟨hph, i, hop, hexec⟩
  · exact h
  · obtain ⟨hadm, -, hm, -⟩ := h
    exact raise_inv hadm hm _
  · exact exec_inv h ((busy_eq_true_iff s).2 hph) hop hexec

/-! The steps of the host -/

theorem acknowledge_inv {s : State} (h : s.Inv) : s.acknowledge.Inv := by
  obtain ⟨-, -, hm, -⟩ := id h
  unfold State.acknowledge
  split
  · exact inv_of_frame h rfl ⟨fun _ => ⟨rfl, rfl, rfl⟩, nofun, fun _ => rfl, Nat.zero_le 6⟩ hm
  · exact h

theorem writeStatus_inv {s : State} (h : s.Inv) (w : Word) : (writeStatus s w).Inv := by
  have hack : (if w.getLsbD 1 then s.acknowledge else s).Inv := by
    split
    · exact acknowledge_inv h
    · exact h
  obtain ⟨-, hst, hm, -⟩ := id hack
  unfold writeStatus
  dsimp only
  split
  · exact inv_of_frame hack rfl hst hm
  · exact hack

theorem writeReg_inv {s : State} (h : s.Inv) (g : Reg) (w : Word) : (writeReg s g w).Inv := by
  obtain ⟨hadm, hst, hm, -⟩ := id h
  generalize hx : writeReg s g w = t
  rcases writeReg_cases hx with rfl | ⟨-, rfl⟩ | ⟨-, rfl⟩ | rfl | rfl | ⟨hb, hf⟩
  · exact h
  · exact inv_of_frame h rfl hst hm
  · exact startCommand_inv hadm hm w
  · exact writeStatus_inv h w
  · exact inv_of_frame h rfl hst hm
  · have hidle := (busy_eq_false_iff s).1 hb
    rw [hf]
    exact inv_of_not_walk (fun k hk => by simp [hidle] at hk) hadm hst hm

theorem hostWrite_inv {s : State} (h : s.Inv) (slot : BitVec 6) (w : Word) : (hostWrite s slot w).Inv := by
  unfold hostWrite
  split
  · exact writeReg_inv h _ w
  · exact h

theorem hostMove_inv {act : HostAction} {s t : State} (h : s.Inv) (hmove : hostMove act s = .next t) : t.Inv := by
  obtain ⟨hadm, hst, hm, -⟩ := id h
  cases act with
  | wr slot w => injection hmove with ht; subst ht; exact hostWrite_inv h slot w
  | rd slot =>
    injection hmove with ht
    subst ht
    rw [readSlot_eq]
    exact inv_of_frame h rfl hst hm
  | wb addr b =>
    obtain ⟨hx, rfl⟩ := hostByteAccess_cases hmove
    exact inv_of_frame h rfl hst (memWrite_memLegal hm _ b hx)
  | rb addr =>
    obtain ⟨-, rfl⟩ := hostByteAccess_cases hmove
    exact inv_of_frame h rfl hst hm
  | reset =>
    injection hmove with ht
    subst ht
    obtain ⟨-, hst0, -, -⟩ := resetIsLegal
    exact inv_of_not_walk nofun hadm hst0 hm

theorem hostStep_inv {act : HostAction} {s t : State} (h : s.Inv) (hstep : hostStep act s = .next t) : t.Inv := by
  refine hostMove_inv ?_ hstep
  obtain ⟨-, hst, hm, -⟩ := id h
  rw [seeIrq_eq]
  exact inv_of_frame h rfl hst hm

/-- Settles O59: the engine's step and the host's each keep legality, and so does taking a turn. -/
theorem everyStepKeepsTheStateLegal : Obligations.EveryStepKeepsTheStateLegal := by
  intro s t h hstep
  obtain ⟨hadm, hst, hm, -⟩ := id h
  obtain ⟨u, hu, hcase⟩ := step_cases hstep
  have hui : u.Inv := by
    rcases hu with rfl | rfl
    · exact h
    · exact inv_of_frame h rfl hst hm
  rcases hcase with he | ⟨act, hh, -⟩
  · exact engineStep_inv hui he
  · exact hostStep_inv hui hh

end Sys2Proof.Machine

namespace Sys2Proof.Machine

/-! ### The registers as the host sees them (R21 to R25) -/

/-- Settles O10: the idle write of the register, on a state whose IRQ line the host has seen. -/
theorem registerWriteReadsBack : Obligations.RegisterWriteReadsBack := by
  intro s w g hb hg hc
  have hb' : s.seeIrq.busy = false := (seeIrq_busy s).trans hb
  refine ⟨_, hostStep_wr_slotOf s g w, get_writeReg_self hb' w hg, fun h hne => ?_, ?_⟩
  · rw [get_writeReg_of_ne hb' w hg hc hne, seeIrq_get]
  · rw [writeReg_frame_of_idle hb' w hg hc rfl]
    exact ⟨seeIrq_phase s, seeIrq_mem s, seeIrq_cfg s⟩

/-- Settles O4: the write is guarded by BUSY, and an idle block starts the command. -/
theorem commandWriteStartsOrIsDropped : Obligations.CommandWriteStartsOrIsDropped := by
  intro s w
  refine ⟨fun hb => ⟨s.seeIrq.startCommand w, ?_, rfl, rfl, ?_⟩, fun hb => ?_⟩
  · rw [hostStep_wr_slotOf, writeReg, guarded_of_idle ((seeIrq_busy s).trans hb)]
  · rw [seeIrq_eq]; rfl
  · rw [hostStep_wr_slotOf, seeIrq_of_busy s hb, writeReg_of_busy hb w (by simp [idleOnlyRegs])]

/-- The fields of a word laid out as STATUS is. -/
theorem statusLayout_fields (code : BitVec 8) (wlost err done busy : Bool) :
    let w := 0#16 ++ code ++ 0#4 ++ BitVec.ofBool wlost ++ BitVec.ofBool err ++ BitVec.ofBool done ++ BitVec.ofBool busy
    w.getLsbD 0 = busy ∧ w.getLsbD 1 = done ∧ w.getLsbD 2 = err ∧ w.getLsbD 3 = wlost ∧
    w.extractLsb' 4 4 = 0#4 ∧ w.extractLsb' 8 8 = code ∧ w.extractLsb' 16 16 = 0#16 := by
  dsimp only
  refine ⟨?_, ?_, ?_, ?_, ?_, ?_, ?_⟩
  iterate 4
    · simp only [BitVec.getLsbD_append]
      simp
  all_goals
    ext i hi
    simp only [BitVec.getElem_extractLsb', BitVec.getLsbD_append]
  · simp
    omega
  · simp [hi]
  · simp
    omega

/-- Settles O6: the fields are read off the concatenation; BUSY is the phase's. -/
theorem statusWordLayout : Obligations.StatusWordLayout := by
  intro s
  have hbusy : s.busy = decide (s.phase ≠ .idle) := by cases hp : s.phase <;> simp [State.busy, hp]
  rw [← hbusy]
  exact statusLayout_fields _ _ _ _ _

theorem ctrlWord_fields (s : State) : (ctrlWord s).getLsbD 0 = s.irqEn ∧ (ctrlWord s).extractLsb' 1 31 = 0#31 := by
  unfold ctrlWord
  cases s.irqEn <;> decide

/-- Settles O7: the write sets IRQ_EN alone, whatever the phase. -/
theorem controlHoldsIrqEnable : Obligations.ControlHoldsIrqEnable := by
  refine ⟨rfl, fun s w => ⟨{ s.seeIrq with irqEn := w.getLsbD 0 }, hostStep_wr_slotOf s .ctrl w, ?_, ?_,
    ctrlWord_fields _⟩⟩
  · rw [seeIrq_eq]
  · rw [State.irq, seeIrq_status]

theorem regOfSlot_of_reserved : ∀ slot, ReservedSlot slot → regOfSlot slot = none := by decide

theorem hostRead_slotOf (s : State) (g : Reg) : hostRead s (slotOf g) = s.get g := by
  rw [hostRead, regOfSlot_slotOf]

/-- A read of a register's slot answers what it holds and changes nothing else (R22, R57). -/
theorem hostStep_rd_slotOf (s : State) (g : Reg) :
    ∃ t, hostStep (.rd (slotOf g)) s = .next t ∧
      t = { s with replies := .word (s.get g) :: s.replies, handed := t.handed } := by
  refine ⟨_, rfl, ?_⟩
  rw [readSlot_eq, hostRead_slotOf, seeIrq_get, seeIrq_eq]

/-- Settles O9: the map row by row, each read by the rule of its register's slot. -/
theorem windowReadsAndIgnoredWrites : Obligations.WindowReadsAndIgnoredWrites := by
  intro s w
  refine ⟨fun row hrow => ?_, fun slot hslot => ⟨?_, ?_⟩, fun g hg => ?_⟩
  · have hmap : regOffset row.1 = row.2.1 ∧ s.get row.1 = row.2.2 := by
      fin_cases hrow <;> exact ⟨rfl, rfl⟩
    obtain ⟨hoff, hget⟩ := hmap
    have hs : slotOf row.1 = BitVec.ofNat 6 (row.2.1 / 4) := by rw [← hoff]; rfl
    refine ⟨hoff, hs, hget, ?_⟩
    rw [← hs, ← hget]
    exact hostStep_rd_slotOf s row.1
  · have hst : slot ≠ slotOf .status := by rintro rfl; revert hslot; decide
    simp [hostStep, hostMove, State.readSlot, hostRead, regOfSlot_of_reserved slot hslot, hst, State.answer]
  · simp [hostStep, hostMove, hostWrite, regOfSlot_of_reserved slot hslot]
  · rw [hostStep_wr_slotOf, writeReg_of_ro _ w hg]

/-! ### The outcome depends on the operands only (R20, R269) -/

/-- Two ends of an operation that agree: ERR and ERRCODE, ERR_INFO after a fault, and `P` of the states after none. -/
def EndsAlike (P : State → State → Prop) (t t' : State) : Prop :=
  t'.status.err = t.status.err ∧ t'.status.errCode = t.status.errCode ∧
  (t.status.err = true → t'.errInfo = t.errInfo) ∧ (t.status.err = false → P t t')

/-- Two end steps on one evaluation end alike, where the writes do. -/
theorem endStep_alike {α : Type} {P : State → State → Prop} {s s' t : State} {e e' : Eval α}
    {write : State → α → State} (he : e = e') (hw : ∀ v, P (write s v).complete (write s' v).complete)
    (h : endStep s e write = .next t) : ∃ t', endStep s' e' write = .next t' ∧ EndsAlike P t t' := by
  subst he
  rcases endStep_cases h with ⟨f, rfl, rfl⟩ | ⟨v, rfl, rfl⟩
  · exact ⟨s'.raise f, rfl, rfl, rfl, fun _ => rfl, nofun⟩
  · exact ⟨_, rfl, rfl, rfl, nofun, fun _ => hw v⟩

/-- The same for an operation that checks registers and computes a triple: the lists agree, and R0 to R2 depend on the
draws alone. -/
theorem runTriple_alike {s s' t : State} {regs : List Reg} {e e' : Eval (Triple F32)} (hn : s.nanDraws = s'.nanDraws)
    (hregs : ∀ g ∈ regs, s.get g = s'.get g) (he : e = e') (h : runTriple s regs e = .next t) :
    ∃ t', runTriple s' regs e' = .next t' ∧ EndsAlike (fun t t' => t'.r = t.r) t t' := by
  refine endStep_alike ?_ (fun v => ?_) h
  · rw [checkFinite_congr hregs, he]
  · simp only [complete_r, State.writeResult, hn]

theorem triple_eq {α : Type} {x y : Triple α} (h0 : x.c0 = y.c0) (h1 : x.c1 = y.c1) (h2 : x.c2 = y.c2) : x = y := by
  cases x
  cases y
  simp_all

/-! What an operation reads, from the registers of its list -/

theorem a_congr {s s' : State} (h : ∀ g ∈ aRegs, s.get g = s'.get g) : s.a = s'.a :=
  triple_eq (h .a0 (by simp [aRegs])) (h .a1 (by simp [aRegs])) (h .a2 (by simp [aRegs]))

theorem aWhite_congr {s s' : State} (h : ∀ g ∈ aWhiteRegs, s.get g = s'.get g) : s.a = s'.a ∧ s.white = s'.white := by
  obtain ⟨hx, hy, hz⟩ : s.wx = s'.wx ∧ s.wy = s'.wy ∧ s.wz = s'.wz :=
    ⟨h .wx (by simp [aWhiteRegs]), h .wy (by simp [aWhiteRegs]), h .wz (by simp [aWhiteRegs])⟩
  refine ⟨a_congr fun g hg => h g ?_, by simp only [State.white, hx, hy, hz]⟩
  exact List.mem_append_left [.wx, .wy, .wz] hg

theorem aPw_congr {s s' : State} (h : ∀ g ∈ aPwRegs, s.get g = s'.get g) :
    s.a = s'.a ∧ s.wy = s'.wy ∧ s.wup = s'.wup ∧ s.wvp = s'.wvp := by
  refine ⟨a_congr fun g hg => h g ?_, h .wy ?_, h .wup ?_, h .wvp ?_⟩
  · exact List.mem_append_left [.wy, .wup, .wvp] hg
  all_goals simp [aPwRegs]

theorem quant_congr {s s' : State} (h : ∀ g ∈ quantRegs, s.get g = s'.get g) :
    s.a = s'.a ∧ s.outScale = s'.outScale := by
  refine ⟨a_congr fun g hg => h g (List.mem_append_left ([.outScale0, .outScale1, .outScale2] : List Reg) hg), ?_⟩
  exact triple_eq (h .outScale0 (by simp [quantRegs])) (h .outScale1 (by simp [quantRegs]))
    (h .outScale2 (by simp [quantRegs]))

/-- Equal values of the fields an operation may write at its fault-free end: WX to WVP for WSET, none for NOP, R0 to R2
for every other. -/
def SameResults (i : Instr) (t t' : State) : Prop :=
  match i with
  | .nop => True
  | .wset => t'.wx = t.wx ∧ t'.wy = t.wy ∧ t'.wz = t.wz ∧ t'.wup = t.wup ∧ t'.wvp = t.wvp
  | _ => t'.r = t.r

/-- An operation that is no BATCH evaluates its registers, its parameters and its draws alone. -/
theorem exec_alike {i : Instr} {s s' t : State} (hp : i.pid? = none) (hcfg : s.cfg = s'.cfg)
    (hn : s.nanDraws = s'.nanDraws) (hregs : ∀ g ∈ checkedRegs i, s.get g = s'.get g) (h : exec i s = .next t) :
    ∃ t', exec i s' = .next t' ∧ EndsAlike (SameResults i) t t' := by
  cases i
  case nop =>
    injection h with h
    subst h
    exact ⟨s'.complete, rfl, rfl, rfl, nofun, fun _ => trivial⟩
  case wset =>
    have ha := a_congr hregs
    have hcheck : checkFinite s aRegs = checkFinite s' aRegs := checkFinite_congr hregs
    simp only [exec, execWset] at h ⊢
    refine endStep_alike ?_ (fun v => ?_) h
    · rw [hcheck, ha]
    · simp only [SameResults, State.complete, State.writeWhite, hn, and_self]
  case quant =>
    obtain ⟨ha, ho⟩ := quant_congr hregs
    have hcheck : checkFinite s quantRegs = checkFinite s' quantRegs := checkFinite_congr hregs
    simp only [exec, execQuant] at h ⊢
    refine endStep_alike ?_ (fun v => ?_) h
    · rw [hcheck, ha, ho, hcfg]
    · rfl
  case root3 | root5 | root12 | srgbDec | srgbEnc | labFwd | labInv | uvp | matFwd | matInv | srgb2xyz | xyz2srgb =>
    have ha := a_congr hregs
    exact runTriple_alike hn hregs (by simp only [ha, hcfg]) h
  case xyz2lab | lab2xyz | xyz2luv | luv2xyz | srgb2lab | lab2srgb =>
    obtain ⟨ha, hw⟩ := aWhite_congr hregs
    exact runTriple_alike hn hregs (by simp only [ha, hw, hcfg]) h
  case xyz2luvPw | luv2xyzPw =>
    obtain ⟨ha, hy, hu, hv⟩ := aPw_congr hregs
    exact runTriple_alike hn hregs (by simp only [ha, hy, hu, hv, hcfg]) h
  all_goals cases hp

/-- Settles O57: the results that must agree are those the operation writes. -/
theorem outcomeDependsOnOperandsOnly : Obligations.OutcomeDependsOnOperandsOnly := by
  intro i s s' t hp hcfg hn hregs h
  obtain ⟨t', ht', herr, hcode, hinfo, hres⟩ := exec_alike hp hcfg hn hregs h
  refine ⟨t', ht', herr, hcode, hinfo, fun he hnop hwset => ?_, fun he hi => ?_⟩
  · have := hres he
    unfold SameResults at this
    split at this
    · exact absurd rfl hnop
    · exact absurd rfl hwset
    · exact this
  · subst hi
    exact hres he

end Sys2Proof.Machine

/-! ## The byte memory (spec/20_memory.md) -/

namespace Sys2Proof.Machine

/-! ### Which bytes are the engine's (R63, R262) -/

theorem pid?_isSome_iff (i : Instr) : i.pid?.isSome = true ↔ ∃ p : Pid, i = p.instr := by
  refine ⟨fun h => ?_, ?_⟩
  · obtain ⟨p, hp⟩ := Option.isSome_iff_exists.1 h
    exact ⟨p, eq_instr_of_pid? hp⟩
  · rintro ⟨p, rfl⟩
    rw [pid?_instr]
    rfl

theorem batching_iff (s : State) : s.batching = true ↔ s.busy = true ∧ ∃ p : Pid, s.operation = .ok p.instr := by
  unfold State.batching
  cases s.operation with
  | error e => simp
  | ok i => simp [pid?_isSome_iff]

theorem ByteRange.has_iff (g : ByteRange) (x : Nat) : g.has x = true ↔ g.first ≤ x ∧ x < g.past := by
  simp [ByteRange.has]

theorem inBatchRange_iff (s : State) (x : Nat) :
    inBatchRange s x = true ↔
      (s.busy = true ∧ (∃ p : Pid, s.operation = .ok p.instr) ∧
        s.batchStart ≤ x ∧ x < s.batchStart + 4 * s.npix) ∨
      ∃ g ∈ s.handed, g.first ≤ x ∧ x < g.past := by
  simp only [inBatchRange, Bool.or_eq_true, Bool.and_eq_true, List.any_eq_true, batching_iff, ByteRange.has_iff,
    State.batchRange, and_assoc]

/-! ### The three answers to a host access of a byte (R50, R63, R268) -/

theorem hostByteAccess_of_inBatchRange {s : State} {x : Nat} (h : inBatchRange s x = true) (t : State) :
    hostByteAccess s x t = .refused (.hostInBatchRange x) := by
  rw [hostByteAccess, if_pos h]

theorem hostByteAccess_of_lt {s : State} {x : Nat} (h : ¬inBatchRange s x = true) (hx : x < s.cfg.memBytes)
    (t : State) : hostByteAccess s x t = .next t := by
  rw [hostByteAccess, if_neg h, if_pos hx]

theorem hostByteAccess_of_le {s : State} {x : Nat} (h : ¬inBatchRange s x = true) (hx : s.cfg.memBytes ≤ x)
    (t : State) : hostByteAccess s x t = .fault (.noSuchByte x) := by
  rw [hostByteAccess, if_neg h, if_neg (not_lt.2 hx)]

/-! ### How a range is handed over and got back (R62, R262) -/

theorem ended_iff (s : State) : s.ended = true ↔ s.phase = .idle ∧ s.status.done = true := by
  rw [State.ended, Bool.and_eq_true, Bool.not_eq_true', busy_eq_false_iff]

theorem seeIrq_of_irq {s : State} (h : s.phase = .idle ∧ s.irqEn = true ∧ s.status.done = true) :
    s.seeIrq = { s with handed := [] } := by
  obtain ⟨hph, hen, hd⟩ := h
  rw [State.seeIrq, if_pos (by rw [hen, (ended_iff s).2 ⟨hph, hd⟩]; rfl)]
  rfl

theorem seeIrq_of_no_irq {s : State} (h : ¬(s.phase = .idle ∧ s.irqEn = true ∧ s.status.done = true)) :
    s.seeIrq = s := by
  rw [State.seeIrq, if_neg]
  rw [Bool.and_eq_true, ended_iff]
  tauto

theorem handOver_of_batch {s : State} {w : Word} {p : Pid} (h : decode w = .ok p.instr) :
    s.handOver w = s.batchRange :: s.handed := by
  rw [State.handOver, h]
  simp [pid?_instr]

theorem handOver_of_not_batch {s : State} {w : Word} (h : ∀ p : Pid, decode w ≠ .ok p.instr) :
    s.handOver w = s.handed := by
  unfold State.handOver
  split
  · rename_i i hi
    rw [if_neg]
    rw [pid?_isSome_iff]
    rintro ⟨p, rfl⟩
    exact h p hi
  · rfl

theorem readSlot_handed (s : State) (slot : BitVec 6) :
    (s.readSlot slot).handed =
      if slot = slotOf .status ∧ s.phase = .idle ∧ s.status.done = true then [] else s.handed := by
  simp only [State.readSlot, Bool.and_eq_true, beq_iff_eq, ended_iff]
  split <;> rfl

/-- The ranges handed over after a host step: what the IRQ line leaves, but for a CMD write of an idle block, a read of
STATUS that shows DONE = 1, and the reset signal. -/
def State.handedAfter (s : State) : HostAction → List ByteRange
  | .wr slot w => if slot = slotOf .cmd ∧ s.busy = false then s.seeIrq.handOver w else s.seeIrq.handed
  | .rd slot => if slot = slotOf .status ∧ s.phase = .idle ∧ s.status.done = true then [] else s.seeIrq.handed
  | .wb _ _ => s.seeIrq.handed
  | .rb _ => s.seeIrq.handed
  | .reset => []

theorem hostStep_handed {act : HostAction} {s t : State} (h : hostStep act s = .next t) :
    t.handed = s.handedAfter act := by
  unfold hostStep hostMove at h
  cases act with
  | wr slot w => injection h with h; rw [← h, hostWrite_handed, seeIrq_busy]; rfl
  | rd slot => injection h with h; rw [← h, readSlot_handed, seeIrq_phase, seeIrq_status]; rfl
  | wb addr b => obtain ⟨-, rfl⟩ := hostByteAccess_cases h; rfl
  | rb addr => obtain ⟨-, rfl⟩ := hostByteAccess_cases h; rfl
  | reset => injection h with h; rw [← h]; rfl

/-- The CMD write that starts a BATCH hands its range over. -/
theorem handedAfter_of_start {s : State} {w : Word} {p : Pid} (hi : s.phase = .idle) (hd : decode w = .ok p.instr) :
    s.handedAfter (.wr (slotOf .cmd) w) = s.batchRange :: s.seeIrq.handed := by
  rw [State.handedAfter, if_pos ⟨rfl, (busy_eq_false_iff s).2 hi⟩, handOver_of_batch hd]
  simp only [State.batchRange, seeIrq_batchStart, seeIrq_npix]

/-- No other host action but the reading of DONE and the reset signal changes what the IRQ line leaves. -/
theorem handedAfter_of_other {s : State} {act : HostAction}
    (hstart : ¬∃ (w : Word) (p : Pid), act = .wr (slotOf .cmd) w ∧ s.phase = .idle ∧ decode w = .ok p.instr)
    (hsees : ¬(act = .rd (slotOf .status) ∧ s.phase = .idle ∧ s.status.done = true)) (hreset : act ≠ .reset) :
    s.handedAfter act = s.seeIrq.handed := by
  cases act with
  | wr slot w =>
    rw [State.handedAfter]
    split
    · rename_i hcmd
      obtain ⟨rfl, hb⟩ := hcmd
      exact handOver_of_not_batch fun p hp => hstart ⟨w, p, rfl, (busy_eq_false_iff s).1 hb, hp⟩
    · rfl
  | rd slot =>
    refine if_neg ?_
    rintro ⟨rfl, hdone⟩
    exact hsees ⟨rfl, hdone⟩
  | wb addr b => rfl
  | rb addr => rfl
  | reset => exact absurd rfl hreset

theorem engineStep_handed {s t : State} (h : engineStep s = .next t) : t.handed = s.handed := by
  rw [engineStep_frame h]

/-- Settles O12: the bytes by who has them, the ranges by the host action. (`hostByteAccess` is the model's own.) -/
theorem hostByteAccess_spec : Obligations.HostByteAccess := by
  refine ⟨fun s x b ⟨hwf, _⟩ => ?_, fun s => ⟨seeIrq_of_irq, seeIrq_of_no_irq⟩, fun s t act h => ?_,
    fun s t h => engineStep_handed h⟩
  · have howned := inBatchRange_iff s.seeIrq x.toNat
    simp only [seeIrq_busy, seeIrq_operation, seeIrq_batchStart, seeIrq_npix] at howned
    refine ⟨fun ho => ?_, fun ho hx => ?_, fun ho hx => ?_⟩
    · have hr := howned.2 ho
      exact ⟨hostByteAccess_of_inBatchRange hr _, hostByteAccess_of_inBatchRange hr _⟩
    · have hgo := hostByteAccess_of_lt (mt howned.1 ho) ((seeIrq_cfg s).symm ▸ hx)
      have hbyte := byteAt_memWrite (s := s.seeIrq) ((seeIrq_mem s).symm ▸ hwf) x.toNat
      refine ⟨⟨_, hgo _, rfl, ?_, fun y hy => ?_⟩, ?_⟩
      · rw [hbyte, if_pos rfl]
      · rw [hbyte, if_neg hy, seeIrq_byteAt]
      · rw [hostStep, hostMove, hgo, State.answer, seeIrq_byteAt, seeIrq_replies]
    · have hstop := hostByteAccess_of_le (mt howned.1 ho) ((seeIrq_cfg s).symm ▸ hx)
      exact ⟨hstop _, hstop _⟩
  · rw [hostStep_handed h]
    refine ⟨?_, ?_, handedAfter_of_other⟩
    · rintro ⟨w, p, rfl, hi, hd⟩
      exact handedAfter_of_start hi hd
    · rintro (⟨rfl, hdone⟩ | rfl)
      · exact if_pos ⟨rfl, hdone⟩
      · rfl

/-! ### A pixel step (R192) -/

theorem Eval.ok_bind {α β : Type} (v : α) (g : α → Eval β) : ((.ok v : Eval α) >>= g) = g v := rfl

/-- A pixel whose channels are finite, whose pipeline answers and whose products are not NaN converts to the clamped
products. -/
theorem convertPixel_of_ok {p : Pid} {s : State} (k : Nat) {b : Triple Byte} {o : Triple F32}
    (hc : (channelsOf s.inScale b).Finite) (ho : pipe p s (channelsOf s.inScale b) = .ok o)
    (hq : AllPass (fun x => !isNaN x) (mulLanes o s.outScale)) :
    convertPixel p s k b = .ok ((mulLanes o s.outScale).map (clampByte s.cfg.qround)) := by
  rw [convertPixel, decodePixel_of_finite hc, Eval.ok_bind, ho, Eval.ok_bind, quantizeTriple_of_not_nan _ hq]
  rfl

theorem writePixel_wf {s : State} (hm : Memory.wf s.mem) (x : Nat) (q : Triple Byte) :
    Memory.wf (writePixel s x q).mem :=
  memSet_wf (memSet_wf (memSet_wf hm _ _) _ _) _ _

/-- Settles O47: the pixel converts, and the step writes what it gives. -/
theorem batchPixelStep : Obligations.BatchPixelStep := by
  intro p s k o hw hk hb hm hc ho hq
  exact ⟨_, (exec_pid p s).trans (batchStep_of_walk_ok p hw hk hb (convertPixel_of_ok k hc ho hq)), rfl,
    pixelBytes_writePixel hm k _, fun y => byteAt_writePixel_of_ne s _ y _, writePixel_wf hm _ _⟩

/-! ### The bytes an engine step may change (R53, R190, R192) -/

/-- Settles O49: only a BATCH's pixel step writes the memory, and it writes the channel bytes of its pixel. -/
theorem engineTouchesOnlyChannelBytes : Obligations.EngineTouchesOnlyChannelBytes := by
  intro s t h y hy
  rcases engineStep_cases h with ⟨-, rfl⟩ | ⟨-, rfl⟩ | ⟨-, i, -, h⟩
  · rfl
  · rfl
  · cases hp : i.pid? with
    | none =>
      obtain ⟨-, -, -, -, -, -, -, hmem⟩ := nonBatchFrame i s t hp h
      exact hmem y
    | some p =>
      rw [eq_instr_of_pid? hp] at h
      obtain ⟨-, -, hpixel, hother⟩ := batchFrame p s t h
      by_cases hw : ∃ k, s.phase = .walk k ∧ k < s.npix
      · obtain ⟨k, hph, hk⟩ := hw
        obtain ⟨h0, h1, h2⟩ := hy k hk
        exact hpixel k hph hk y h0 h1 h2
      · exact hother (fun k hph => not_lt.1 fun hk => hw ⟨k, hph, hk⟩) y

end Sys2Proof.Machine

/-! ## The command words (spec/30_encoding.md) -/

namespace Sys2Proof

/-! ### A word and its fields (R70) -/

theorem CmdFields.toWord_ofWord (w : Word) : (CmdFields.ofWord w).toWord = w := by
  simp only [CmdFields.toWord, CmdFields.ofWord]
  have hres : w.extractLsb' 13 19 ++ w.extractLsb' 12 1 = w.extractLsb' 12 20 :=
    BitVec.extractLsb'_append_extractLsb'_eq_extractLsb' rfl
  have hsub : w.extractLsb' 12 20 ++ w.extractLsb' 8 4 = w.extractLsb' 8 24 :=
    BitVec.extractLsb'_append_extractLsb'_eq_extractLsb' rfl
  rw [hres, hsub]
  exact BitVec.extractLsb'_append_extractLsb' (w := 24) (len := 8)

open Laws.EncodingFields in
/-- The model's law of each operation's word, for every operation. -/
theorem encodingFields (i : Instr) : Statement i := by
  cases i
  exacts [nop, root3, root5, root12, srgbDec, srgbEnc, labFwd, labInv, xyz2lab, lab2xyz, uvp, xyz2luv, xyz2luvPw,
    luv2xyz, luv2xyzPw, wset, matFwd, matInv, srgb2xyz, xyz2srgb, srgb2lab, lab2srgb, quant, batchSrgb2xyz,
    batchXyz2srgb, batchSrgb2lin, batchLin2srgb, batchSrgb2lab, batchLab2srgb, batchXyz2lab, batchLab2xyz,
    batchXyz2luv, batchLuv2xyz]

theorem fields_wf (i : Instr) : i.fields.wf = true := by
  obtain ⟨-, hwf, -, -⟩ := encodingFields i
  exact hwf

theorem decode_encode (i : Instr) : decode (encode i) = .ok i := by
  obtain ⟨-, -, -, hdecode⟩ := encodingFields i
  exact hdecode

/-! ### The decoder answers by the fields (R72 to R75) -/

/-- The answer is right for the fields `f`: the operation that has them, or a refusal where they are not legal. -/
def CmdFields.answeredBy (f : CmdFields) : Except DecodeReject Instr → Bool
  | .ok i => decide (i.fields = f)
  | .error _ => !f.wf

theorem CmdFields.answeredBy_ok_iff (f : CmdFields) (i : Instr) : f.answeredBy (.ok i) = true ↔ i.fields = f :=
  decide_eq_true_iff

theorem CmdFields.answeredBy_error_iff (f : CmdFields) (e : DecodeReject) :
    f.answeredBy (.error e) = true ↔ f.wf = false := by
  simp [CmdFields.answeredBy]

/-- The fields that are not legal, as R75 lists them. -/
theorem CmdFields.wf_eq_false_iff (f : CmdFields) :
    f.wf = false ↔
      0x14 ≤ f.op.toNat ∨ f.res ≠ 0#19 ∨ (f.op.toNat ≠ 0x01 ∧ f.op.toNat ≠ 0x13 ∧ f.sub.toNat ≠ 0) ∨
      (f.op.toNat = 0x01 ∧ 3 ≤ f.sub.toNat) ∨ (f.op.toNat = 0x13 ∧ 10 ≤ f.sub.toNat) ∨
      (f.w ≠ 0#1 ∧ f.op.toNat ≠ 0x09 ∧ f.op.toNat ≠ 0x0A) := by
  rw [Bool.eq_false_iff]
  simp only [wf, resOk, opOk, subOk, wOk, Bool.and_eq_true, Bool.or_eq_true, beq_iff_eq, decide_eq_true_eq,
    Bool.ite_eq_true_distrib, BitVec.toNat_eq, BitVec.ofNat_eq_ofNat, BitVec.toNat_ofNat, Nat.reducePow,
    Nat.reduceMod, ne_eq]
  split_ifs <;> omega

theorem CmdFields.wf_eq_false_of_sub {f : CmdFields} (hop : f.op.toNat ≠ 0x01 ∧ f.op.toNat ≠ 0x13)
    (hsub : f.sub ≠ 0#4) : f.wf = false := by
  have : f.sub.toNat ≠ 0 := fun h => hsub (BitVec.eq_of_toNat_eq h)
  rw [wf_eq_false_iff]
  tauto

/-- An operation code with one form takes SUB = 0 and W = 0 alone (R72). -/
theorem decodePlain_answers {op : BitVec 8} (sub : BitVec 4) (w : BitVec 1) {i : Instr}
    (hsub : op.toNat ≠ 0x01 ∧ op.toNat ≠ 0x13) (hw : op.toNat ≠ 0x09 ∧ op.toNat ≠ 0x0A) (hi : i.fields = ⟨op, 0, 0, 0⟩) :
    CmdFields.answeredBy ⟨op, sub, w, 0⟩ (decodePlain sub w i) = true := by
  unfold decodePlain
  split_ifs with h h'
  · rw [CmdFields.answeredBy_error_iff]
    exact CmdFields.wf_eq_false_of_sub hsub h
  · rw [CmdFields.answeredBy_error_iff, CmdFields.wf_eq_false_iff]
    tauto
  · rw [CmdFields.answeredBy_ok_iff, not_not.1 h, not_not.1 h', hi]

theorem decodeWhite_answers {op : BitVec 8} (sub : BitVec 4) (w : BitVec 1) {full pw : Instr}
    (hop : op.toNat ≠ 0x01 ∧ op.toNat ≠ 0x13) (hfull : full.fields = ⟨op, 0, 0, 0⟩) (hpw : pw.fields = ⟨op, 0, 1, 0⟩) :
    CmdFields.answeredBy ⟨op, sub, w, 0⟩ (decodeWhite sub w full pw) = true := by
  unfold decodeWhite
  split_ifs with h h'
  · rw [CmdFields.answeredBy_error_iff]
    exact CmdFields.wf_eq_false_of_sub hop h
  · rw [CmdFields.answeredBy_ok_iff, not_not.1 h, h', hfull]
  · rw [CmdFields.answeredBy_ok_iff, not_not.1 h, hpw, (BitVec.eq_zero_or_eq_one w).resolve_left h']
    rfl

/-- Every SUB and W of ROOT (R71). -/
theorem decodeRoot_answers :
    ∀ (sub : BitVec 4) (w : BitVec 1), CmdFields.answeredBy ⟨0x01, sub, w, 0⟩ (decodeRoot sub w) = true := by
  decide

/-- Every SUB and W of BATCH (R73). -/
theorem decodeBatch_answers :
    ∀ (sub : BitVec 4) (w : BitVec 1), CmdFields.answeredBy ⟨0x13, sub, w, 0⟩ (decodeBatch sub w) = true := by
  decide

theorem decodeOp_answers (op : BitVec 8) (sub : BitVec 4) (w : BitVec 1) :
    CmdFields.answeredBy ⟨op, sub, w, 0⟩ (decodeOp op sub w) = true := by
  have hop : op = BitVec.ofNat 8 op.toNat := by simp
  unfold decodeOp
  split
  case h_21 =>
    rw [CmdFields.answeredBy_error_iff, CmdFields.wf_eq_false_iff]
    simp only [imp_false] at *
    exact .inl (by omega)
  all_goals
    rename_i h
    rw [h] at hop
    subst hop
  case h_2 => exact decodeRoot_answers sub w
  case h_10 => exact decodeWhite_answers sub w (by decide) rfl rfl
  case h_11 => exact decodeWhite_answers sub w (by decide) rfl rfl
  case h_20 => exact decodeBatch_answers sub w
  all_goals exact decodePlain_answers sub w (by decide) (by decide) rfl

/-- A word decodes to the operation that has its fields, or to nothing where they are not legal (R74, R75). -/
theorem decode_answers (w : Word) : (CmdFields.ofWord w).answeredBy (decode w) = true := by
  unfold decode
  generalize CmdFields.ofWord w = f
  obtain ⟨op, sub, w, res⟩ := f
  dsimp only
  split_ifs with hres
  · rw [CmdFields.answeredBy_error_iff, CmdFields.wf_eq_false_iff]
    exact .inr (.inl hres)
  · rw [not_not.1 hres]
    exact decodeOp_answers op sub w

theorem fields_of_decode {w : Word} {i : Instr} (h : decode w = .ok i) : i.fields = CmdFields.ofWord w := by
  rw [← CmdFields.answeredBy_ok_iff, ← h]
  exact decode_answers w

/-- Settles O2: an operation's word decodes back by the model's law; a word that decodes has the operation's fields, and
a word is its fields. -/
theorem decodeAndEncodeAgree : Obligations.DecodeAndEncodeAgree := by
  refine ⟨fun i _ => decode_encode i, fun w i h => ?_⟩
  rw [encode, fields_of_decode h, CmdFields.toWord_ofWord]

/-- Settles O1, word by word. -/
theorem specWordsDecode : Obligations.SpecWordsDecode :=
  ⟨decode_nop, decode_root12, decode_srgbEnc, decode_xyz2luvPw, decode_luv2xyz, decode_matInv, decode_lab2srgb,
    decode_quant, decode_batchLuv2xyz⟩

/-- A word decodes to nothing exactly where its fields are not legal (R75). -/
theorem decode_ne_ok_iff_wf (w : Word) : (∀ i, decode w ≠ .ok i) ↔ (CmdFields.ofWord w).wf = false := by
  cases h : decode w with
  | ok i => simp [← fields_of_decode h, fields_wf]
  | error e =>
    have hwf := decode_answers w
    rw [h, CmdFields.answeredBy_error_iff] at hwf
    simp [hwf]

end Sys2Proof

namespace Sys2Proof.Machine

/-! ### The reserved words (R75) -/

theorem extractLsb'_one_eq_ofBool (w : Word) : w.extractLsb' 12 1 = BitVec.ofBool (w.getLsbD 12) := by
  ext j hj
  obtain rfl : j = 0 := by omega
  simp

/-- R75's list of reserved words is the words with a field that is not legal. -/
theorem reservedWord_iff_wf (w : Word) : ReservedWord w ↔ (CmdFields.ofWord w).wf = false := by
  have hbit : w.extractLsb' 12 1 ≠ 0#1 ↔ w.getLsbD 12 = true := by
    rw [extractLsb'_one_eq_ofBool]
    cases w.getLsbD 12 <;> decide
  rw [CmdFields.wf_eq_false_iff, ReservedWord, ← hbit]
  exact Iff.rfl

theorem error_of_reservedWord {w : Word} (h : ReservedWord w) : ∃ e, decode w = .error e := by
  have hno := (decode_ne_ok_iff_wf w).2 ((reservedWord_iff_wf w).1 h)
  cases hd : decode w with
  | ok i => exact absurd hd (hno i)
  | error e => exact ⟨e, rfl⟩

/-- Settles O3: the list is the words with a field that is not legal, and the engine raises the fault on a word that
decodes to nothing. -/
theorem reservedWordEndsIllegalCmd : Obligations.ReservedWordEndsIllegalCmd := by
  refine ⟨fun w => (reservedWord_iff_wf w).trans (decode_ne_ok_iff_wf w).symm, fun s w hb hw => ⟨?_, ?_⟩, decode_nop⟩
  · rw [hostStep_wr_slotOf, writeReg, guarded_of_idle ((seeIrq_busy s).trans hb)]
  · obtain ⟨e, he⟩ := error_of_reservedWord hw
    have hhand : s.seeIrq.handOver w = s.seeIrq.handed := handOver_of_not_batch (by simp [he])
    have hop : (s.seeIrq.startCommand w).operation = .error e := he
    have hrun : (s.seeIrq.startCommand w).phase ≠ .idle := nofun
    rw [engineStep_of_error hrun hop, State.raise, State.startCommand, hhand, seeIrq_status]
    rfl

/-! ### Whose turn it is (R265) -/

section
variable {s : State} {rest : List Turn}

theorem dropTurn_of_cons {turn : Turn} (h : s.script = turn :: rest) : s.dropTurn = { s with script := rest } := by
  rw [State.dropTurn, h]; rfl

theorem step_of_host {act : HostAction} (h : s.script = .host act :: rest) :
    step s = hostStep act { s with script := rest } := by
  rw [step, takeTurn, ← dropTurn_of_cons h, h]

theorem step_of_engine (h : s.script = .engine :: rest) : step s = engineStep { s with script := rest } := by
  rw [step, takeTurn, ← dropTurn_of_cons h, h]

theorem step_of_nil (h : s.script = []) : step s = engineStep s := by
  rw [step, takeTurn, h]

theorem step_of_wait (h : s.script = .wait :: rest) :
    step s = if s.busy then engineStep s else hostStep (.rd (slotOf .status)) { s with script := rest } := by
  rw [step, takeTurn, ← dropTurn_of_cons h, h]

theorem step_of_wait_busy (h : s.script = .wait :: rest) (hp : s.phase ≠ .idle) : step s = engineStep s := by
  rw [step_of_wait h, if_pos ((busy_eq_true_iff s).2 hp)]

theorem step_of_wait_idle (h : s.script = .wait :: rest) (hp : s.phase = .idle) :
    step s = hostStep (.rd (slotOf .status)) { s with script := rest } := by
  rw [step_of_wait h, (busy_eq_false_iff s).2 hp, if_neg Bool.false_ne_true]

end

/-- Settles O14: each kind of turn by its rule, and a busy engine's step by the decoded operation. -/
theorem stepRunsDecodedOperation : Obligations.StepRunsDecodedOperation := by
  intro s rest
  refine ⟨fun act h => step_of_host h, step_of_engine, step_of_nil,
    fun h => ⟨step_of_wait_busy h, step_of_wait_idle h⟩, engineStep_of_idle, fun i hp hd => ?_⟩
  have hexec : engineStep s = exec i s := engineStep_of_ok hp hd
  exact ⟨hexec, fun h => (step_of_engine h).trans (engineStep_of_ok hp hd),
    fun h => (step_of_wait_busy h hp).trans hexec, fun h => (step_of_nil h).trans hexec⟩

end Sys2Proof.Machine

/-! ## The root engine (spec/40_root_engine.md)

R102, R105 and R106 build patterns and an index from the exponent field. The facts about them are of three kinds: the
mantissa and the scale as a `pack` of their fields, the remainder as truncating division's own, and bounds. -/

namespace Sys2Proof.Machine

/-! ### The domain (R101) -/

theorem rootAdmits_iff (cfg : Config) (x : F32) :
    rootAdmits cfg x = true ↔ signBit x = false ∧ isZero x = false ∧ isFinite x = true ∧
      (expField x ≠ 0 ∨ cfg.subnormalRoot = .compute) := by
  cases hc : cfg.subnormalRoot <;> simp [rootAdmits, hc, and_assoc]

theorem signBit_eq_getLsbD (x : F32) : signBit x = x.getLsbD 31 := by
  rw [signBit, BitVec.msb_eq_getLsbD_last]

/-- The zero whose sign bit is clear is the pattern 0. -/
theorem isZero_iff_eq_zero {x : F32} (hs : signBit x = false) : isZero x = true ↔ x = 0x00000000#32 := by
  refine ⟨fun h => ?_, by rintro rfl; decide⟩
  obtain ⟨hE, hF⟩ := (isZero_iff x).1 h
  rw [eq_pack x, hs, hE, hF]
  rfl

/-- What the root engine does not take, as R101 lists it: by the sign bit, the pattern of +0 and the exponent field. -/
theorem rootAdmits_eq_false_iff (cfg : Config) (x : F32) :
    rootAdmits cfg x = false ↔ x.getLsbD 31 = true ∨ x = 0x00000000#32 ∨ expField x = 255 ∨
      (expField x = 0 ∧ x ≠ 0x00000000#32 ∧ cfg.subnormalRoot = .fault) := by
  have hcfg : cfg.subnormalRoot = .fault ↔ cfg.subnormalRoot ≠ .compute := by cases cfg.subnormalRoot <;> decide
  rw [← signBit_eq_getLsbD, ← Bool.not_eq_true, rootAdmits_iff, isFinite_iff, hcfg]
  cases hs : signBit x
  case true => simp
  case false =>
    simp only [Ne, ← isZero_iff_eq_zero hs, ← Bool.not_eq_true]
    tauto

/-! ### Mantissa and scale as patterns (R102, R105) -/

/-- The fraction bits are kept, under the exponent field of [0.5, 1). -/
theorem rootMantissa_eq_pack (x : F32) : rootMantissa x = pack false (2 ^ 23 * 126 + fracField x) := by
  have hF := fracField_lt x
  have hmask : x.toNat &&& (2 ^ 23 - 1) = fracField x := by rw [Nat.and_two_pow_sub_one_eq_mod, fracField_eq]
  apply BitVec.eq_of_toNat_eq
  rw [toNat_pack false (by omega), rootMantissa, BitVec.toNat_or, BitVec.toNat_and]
  change 2 ^ 23 * 126 ||| (x.toNat &&& (2 ^ 23 - 1)) = 0 + _
  rw [hmask, ← Nat.two_pow_add_eq_or_of_lt hF, Nat.zero_add]

theorem rootMantissa_eq_or (x : F32) :
    rootMantissa x = 0x3F000000#32 ||| (x.extractLsb' 0 23).zeroExtend 32 := by
  rw [rootMantissa]
  congr 1
  apply BitVec.eq_of_toNat_eq
  rw [BitVec.toNat_and]
  have hmask : x.toNat &&& 0x007FFFFF = x.toNat % 2 ^ 23 := Nat.and_two_pow_sub_one_eq_mod x.toNat 23
  rw [show (0x007FFFFF#32).toNat = 0x007FFFFF from rfl, hmask, BitVec.zeroExtend, BitVec.toNat_setWidth,
    BitVec.extractLsb'_toNat, Nat.shiftRight_zero]
  omega

/-- Where e′ + 127 fits the exponent field, the scale is that field alone. -/
theorem rootScale_eq_pack {q : Int} (h : -127 ≤ q ∧ q ≤ 128) : rootScale q = pack false (2 ^ 23 * (q + 127).toNat) := by
  rw [rootScale, Nat.mod_eq_of_lt (by omega), pack, if_neg Bool.false_ne_true, Nat.zero_add]

theorem rootScale_eq_append {q : Int} (h : -127 ≤ q ∧ q ≤ 128) :
    rootScale q = (0#1 ++ BitVec.ofInt 8 (q + 127) ++ 0#23 : BitVec (1 + 8 + 23)) := by
  rw [rootScale_eq_pack h]
  apply BitVec.eq_of_toNat_eq
  rw [toNat_pack false (by omega), if_neg Bool.false_ne_true, BitVec.toNat_append, BitVec.toNat_append,
    BitVec.toNat_ofInt, BitVec.toNat_zero, BitVec.toNat_zero, Nat.zero_shiftLeft, Nat.zero_or, Nat.or_zero,
    Nat.shiftLeft_eq]
  omega

/-! ### Ranges (R107) -/

/-- These bounds hold of every pattern; 129 is the exponent of infinities and NaN. -/
theorem rootExponent_bounds (x : F32) : -126 ≤ rootExponent x ∧ rootExponent x ≤ 129 := by
  have := expField_le x
  unfold rootExponent; omega

/-- R106's r is the remainder that belongs to the truncating division of R105. -/
theorem sub_rootQuotient_mul (n : RootIndex) (e : Int) : e - rootQuotient n e * rootNat n = e.tmod (rootNat n) := by
  have := Int.tdiv_mul_add_tmod e (rootNat n)
  unfold rootQuotient; omega

theorem abs_tmod_rootNat_le (n : RootIndex) (e : Int) : |e.tmod (rootNat n)| ≤ rootNat n - 1 := by
  have hn : (0 : Int) < rootNat n := by cases n <;> decide
  have h1 := Int.tmod_lt_of_pos e hn
  have h2 := Int.lt_tmod_of_pos e hn
  rw [abs_le]; omega

/-- The remainder has the sign of the exponent. -/
theorem tmod_mul_self_nonneg (e d : Int) : 0 ≤ e.tmod d * e := by
  rcases le_total 0 e with h | h
  · exact mul_nonneg (Int.tmod_nonneg d h) h
  · rw [← neg_mul_neg, ← Int.neg_tmod]
    exact mul_nonneg (Int.tmod_nonneg d (neg_nonneg.2 h)) (neg_nonneg.2 h)

theorem rootExponent_le_of_isFinite {x : F32} (h : isFinite x = true) : rootExponent x ≤ 128 := by
  have := expField_le x
  have := (isFinite_iff x).1 h
  unfold rootExponent; omega

/-- A quotient's magnitude is the quotient of the magnitudes. -/
theorem natAbs_rootQuotient_le (n : RootIndex) {e : Int} {k : Nat} (h : e.natAbs < rootNat n * (k + 1)) :
    (rootQuotient n e).natAbs ≤ k := by
  rw [rootQuotient, Int.natAbs_tdiv, Int.natAbs_natCast]
  exact Nat.le_of_lt_succ (Nat.div_lt_of_lt_mul h)

/-- For every pattern, e′ + 127 is an exponent field of a normal number. -/
theorem natAbs_rootQuotient_rootExponent_le (n : RootIndex) (x : F32) :
    (rootQuotient n (rootExponent x)).natAbs ≤ 43 := by
  obtain ⟨h1, h2⟩ := rootExponent_bounds x
  apply natAbs_rootQuotient_le
  cases n <;> simp only [rootNat] <;> omega

theorem length_corrTable (n : RootIndex) : (corrTable n).length = 2 * rootNat n - 1 := by cases n <;> rfl

theorem corrIndex_eq (n : RootIndex) (e : Int) :
    (corrIndex n e : Int) = e.tmod (rootNat n) + (rootNat n - 1) := by
  have h := abs_le.1 (abs_tmod_rootNat_le n e)
  rw [corrIndex, sub_rootQuotient_mul, Int.toNat_of_nonneg (by omega)]

theorem corrIndex_lt (n : RootIndex) (e : Int) : corrIndex n e < (corrTable n).length := by
  have h := abs_le.1 (abs_tmod_rootNat_le n e)
  have := corrIndex_eq n e
  rw [length_corrTable]
  omega

/-! ### Values (R102, R105) -/

/-- The value of a positive pattern with a nonzero exponent field. -/
theorem valueQ_pack_normal {E F : Nat} (hE : 0 < E ∧ E ≤ 255) (hF : F < 2 ^ 23) :
    valueQ (pack false (2 ^ 23 * E + F)) = (2 ^ 23 + F) * (2 : ℚ) ^ ((E : ℤ) - 150) := by
  have hp : 2 ^ 23 * E + F < 2 ^ 31 := by omega
  rw [valueQ_eq_fields, signBit_pack _ hp, expField_pack _ hp, fracField_pack _ hp,
    show (2 ^ 23 * E + F) / 2 ^ 23 = E by omega, show (2 ^ 23 * E + F) % 2 ^ 23 = F by omega,
    if_neg (by omega), max_eq_left (by omega), signQ_false, one_mul]

theorem valueQ_rootMantissa (x : F32) : valueQ (rootMantissa x) = (2 ^ 23 + fracField x) * (2 : ℚ) ^ (-24 : ℤ) := by
  rw [rootMantissa_eq_pack, valueQ_pack_normal (by omega) (fracField_lt x)]
  rfl

theorem rootMantissa_mem (x : F32) : 1 / 2 ≤ valueQ (rootMantissa x) ∧ valueQ (rootMantissa x) < 1 := by
  have hF : (fracField x : ℚ) < 8388608 := by exact_mod_cast fracField_lt x
  have h0 : (0 : ℚ) ≤ fracField x := Nat.cast_nonneg _
  rw [valueQ_rootMantissa]
  norm_num
  constructor <;> linarith

theorem valueQ_eq_rootMantissa_mul {x : F32} (hs : signBit x = false) (hE : expField x ≠ 0) :
    valueQ x = valueQ (rootMantissa x) * (2 : ℚ) ^ rootExponent x := by
  conv_lhs => rw [eq_pack x, hs, valueQ_pack_normal ⟨by omega, expField_le x⟩ (fracField_lt x)]
  rw [valueQ_rootMantissa, mul_assoc, ← zpow_add₀ two_ne_zero]
  congr 2
  unfold rootExponent; omega

theorem valueQ_rootScale {q : Int} (h : -126 ≤ q ∧ q ≤ 128) : valueQ (rootScale q) = (2 : ℚ) ^ q := by
  have hv := valueQ_pack_normal (E := (q + 127).toNat) (F := 0) (by omega) (by norm_num)
  rw [Nat.add_zero, ← rootScale_eq_pack (by omega)] at hv
  rw [hv, Nat.cast_zero, add_zero, ← zpow_natCast, ← zpow_add₀ two_ne_zero]
  congr 1; omega

/-- Settles O24: mantissa and scale as R102 and R105 spell them, and the domain by `rootAdmits_eq_false_iff`. -/
theorem rootEngineDomain : Obligations.RootEngineDomain := by
  intro cfg x lane n N c hn
  obtain ⟨rfl, rfl⟩ : N = rootNat n ∧ c = polyOf cfg n := by
    rcases hn with ⟨rfl, rfl, rfl⟩ | ⟨rfl, rfl, rfl⟩ | ⟨rfl, rfl, rfl⟩ <;> exact ⟨rfl, rfl⟩
  intro E outside e m p q scale k
  have hvalue : rootValue cfg n x = fmul (fmul p scale) k := by
    have hq := natAbs_rootQuotient_rootExponent_le n x
    rw [rootValue, rootMantissa_eq_or, rootScale_eq_append (by omega)]
    rfl
  have houtside : rootAdmits cfg x = false ↔ outside := rootAdmits_eq_false_iff cfg x
  refine ⟨hvalue, fun h => rootEngine_of_not_admits n lane (houtside.2 h), fun h => ?_⟩
  rw [← hvalue]
  exact rootEngine_of_admits n lane (by rwa [← houtside, Bool.not_eq_false] at h)

/-- Settles O25: the exponent's bounds bound its quotient, and the rest are facts about truncating division and
about the fields of m and s. -/
theorem rootRanges : Obligations.RootRanges := by
  intro cfg n x hx e q
  obtain ⟨hs, -, hfin, -⟩ := (rootAdmits_iff cfg x).1 hx
  have he : e = expField x - 126 := rfl
  have he0 : -126 ≤ e := (rootExponent_bounds x).1
  have he1 : e ≤ 128 := rootExponent_le_of_isFinite hfin
  have hq {k : Nat} (h : 128 < rootNat n * (k + 1)) : -(k : Int) ≤ q ∧ q ≤ k := by
    have : q.natAbs ≤ k := natAbs_rootQuotient_le n (by omega)
    omega
  have hscale : q.natAbs ≤ 43 := natAbs_rootQuotient_rootExponent_le n x
  rw [show e - q * rootNat n = e.tmod (rootNat n) from sub_rootQuotient_mul n e]
  refine ⟨fun hE => ⟨by omega, he1, valueQ_eq_rootMantissa_mul hs hE⟩, fun hE => by omega, rootMantissa_mem x,
    ?_, ?_, ?_, valueQ_rootScale (by omega), abs_tmod_rootNat_le n e, tmod_mul_self_nonneg e _, corrIndex_lt n e,
    corrIndex_eq n e⟩
  · rintro rfl; exact hq (k := 42) (by decide)
  · rintro rfl; exact hq (k := 25) (by decide)
  · rintro rfl; exact hq (k := 10) (by decide)

/-- Settles O26: the 5, 9 and 23 entries of R103 are compared with the powers of two on whole numbers, one by one. -/
theorem correctionTablesAreNearest : Obligations.CorrectionTablesAreNearest := by
  intro n
  refine ⟨length_corrTable n, ?_⟩
  cases n <;> decide +kernel

/-! ### ROOT.3, ROOT.5 and ROOT.12 (R109 to R112) -/

theorem finiteRegs_aRegs (s : State) : s.FiniteRegs aRegs ↔ s.a.Finite := by
  simp [State.FiniteRegs, aRegs, Triple.Finite, State.get]

/-- The three operations are one, over the root index. -/
theorem exec_root {s : State} {i : Instr} {n : RootIndex}
    (h : i = .root3 ∧ n = .n3 ∨ i = .root5 ∧ n = .n5 ∨ i = .root12 ∧ n = .n12) :
    exec i s = runTriple s aRegs (lanewise (rootEngine s.cfg n) s.a) := by
  rcases h with ⟨rfl, rfl⟩ | ⟨rfl, rfl⟩ | ⟨rfl, rfl⟩ <;> rfl

/-- A lane-wise function that faults with its lane exactly where a test fails ends with the first such lane (R109). -/
theorem lanewise_of_firstFail {f : F32 → Nat → Eval F32} {ok : F32 → Bool} {value : F32 → F32} {code : FaultCode}
    {c : Triple F32} {lane : Nat} (hok : ∀ x l, ok x = true → f x l = .ok (value x))
    (hfail : ∀ x l, ok x = false → f x l = .error ⟨code, l⟩) (h : FirstFail ok c lane) :
    lanewise f c = .error ⟨code, lane⟩ := by
  unfold lanewise
  rcases h with ⟨rfl, h0⟩ | ⟨rfl, h0, h1⟩ | ⟨rfl, h0, h1, h2⟩
  · rw [hfail _ _ h0]; rfl
  · rw [hok _ _ h0, hfail _ _ h1]; rfl
  · rw [hok _ _ h0, hok _ _ h1, hfail _ _ h2]; rfl

/-- Settles O27: every lane is one the engine takes. -/
theorem rootOperationsComplete : Obligations.RootOperationsComplete := by
  intro s i n hi hx
  have hadmits : ∀ x ∈ [s.a.c0, s.a.c1, s.a.c2], rootAdmits s.cfg x = true := fun x hmem => by
    obtain ⟨hf, hs, hz, hE⟩ := hx x hmem
    exact (rootAdmits_iff _ _).2 ⟨hs, hz, hf, hE⟩
  have hfin : s.a.Finite := ⟨(hx _ (by simp)).1, (hx _ (by simp)).1, (hx _ (by simp)).1⟩
  rw [exec_root hi]
  refine runTriple_of_ok ((finiteRegs_aRegs s).2 hfin) (lanewise_of_ok ?_ ?_ ?_) <;>
    exact rootEngine_of_admits _ _ (hadmits _ (by simp))

/-- Settles O28: on finite lanes the test is `rootAdmits`, and the lanes are tried in order. -/
theorem rootOperationsFault : Obligations.RootOperationsFault := by
  intro s i lane hi hfin hfail
  obtain ⟨n, hn⟩ : ∃ n : RootIndex, i = .root3 ∧ n = .n3 ∨ i = .root5 ∧ n = .n5 ∨ i = .root12 ∧ n = .n12 := by
    rcases hi with rfl | rfl | rfl
    exacts [⟨.n3, by simp⟩, ⟨.n5, by simp⟩, ⟨.n12, by simp⟩]
  have hfail' : FirstFail (rootAdmits s.cfg) s.a lane := by
    obtain ⟨f0, f1, f2⟩ := hfin
    simpa [FirstFail, rootAdmits, f0, f1, f2] using hfail
  rw [exec_root hn]
  exact runTriple_of_error ((finiteRegs_aRegs s).2 hfin) (lanewise_of_firstFail
    (fun _ l h => rootEngine_of_admits n l h) (fun _ l h => rootEngine_of_not_admits n l h) hfail')

end Sys2Proof.Machine

/-! ## The sRGB transfer functions (spec/41_srgb_transfer.md) -/

namespace Sys2Proof.Machine

/-- An operation whose lane function answers a value on every finite operand completes on every finite triple (R109). -/
theorem runTriple_lanewise_of_finite {s : State} {f : F32 → Nat → Eval F32} {value : F32 → F32} (hs : s.a.Finite)
    (hf : ∀ v lane, isFinite v = true → f v lane = .ok (value v)) :
    runTriple s aRegs (lanewise f s.a) = .next (s.writeResult (s.a.map value)).complete := by
  obtain ⟨h0, h1, h2⟩ := hs
  exact runTriple_of_ok ((finiteRegs_aRegs s).2 ⟨h0, h1, h2⟩)
    (lanewise_of_ok (hf _ 0 h0) (hf _ 1 h1) (hf _ 2 h2))

/-- Settles O29: above the threshold the root's argument is a positive normal number, so no lane faults; the statement's
lane is `decodeValue`. -/
theorem srgbDecodeCompletes : Obligations.SrgbDecodeCompletes := by
  intro s hs power decoded
  have hdecoded : decoded = decodeValue s.cfg := rfl
  rw [hdecoded]
  exact runTriple_lanewise_of_finite hs fun _ lane hv => srgbDecode_of_isFinite s.cfg lane hv

/-- Settles O30: a finite operand above the threshold is one the root takes, so no lane faults; the statement's lane is
`encodeValue`. -/
theorem srgbEncodeCompletes : Obligations.SrgbEncodeCompletes := by
  intro s hs power encoded
  have hencoded : encoded = encodeValue s.cfg := rfl
  rw [hencoded]
  exact runTriple_lanewise_of_finite hs fun _ lane hv =>
    srgbEncode_of_stageOk s.cfg lane (rootStageOk_of_isFinite hv)

end Sys2Proof.Machine

/-! ## The Lab/Luv transfer functions (spec/42_lab_luv_transfer.md) -/

namespace Sys2Proof.Machine

/-! ### The root stage: every lane passes, or the first that fails is reported (R109, R130) -/

/-- A lane-wise function that answers a value where a test passes answers a value on a triple that passes it (R109). -/
theorem lanewise_of_allPass {f : F32 → Nat → Eval F32} {ok : F32 → Bool} {value : F32 → F32} {c : Triple F32}
    (hok : ∀ x l, ok x = true → f x l = .ok (value x)) (h : AllPass ok c) : lanewise f c = .ok (c.map value) := by
  obtain ⟨h0, h1, h2⟩ := h
  exact lanewise_of_ok (hok _ 0 h0) (hok _ 1 h1) (hok _ 2 h2)

/-- `xyz_to_lab` is `lab_forward` on the quotients by the white, lane by lane, and then the linear part (R132). -/
theorem xyzToLab_eq (cfg : Config) (w c : Triple F32) :
    xyzToLab cfg w c = (do let f ← lanewise (labForward cfg) (divLanes c w); return labOf f) := by
  simp [xyzToLab, lanewise, divLanes, labOf]

theorem xyzToLab_of_allPass (cfg : Config) {w c : Triple F32} (h : AllPass rootStageOk (divLanes c w)) :
    xyzToLab cfg w c = .ok (labOf ((divLanes c w).map (labForwardValue cfg))) := by
  rw [xyzToLab_eq, lanewise_of_allPass (fun _ l => labForward_of_stageOk cfg l) h]
  rfl

theorem xyzToLab_of_firstFail (cfg : Config) {w c : Triple F32} {lane : Nat}
    (h : FirstFail rootStageOk (divLanes c w) lane) : xyzToLab cfg w c = .error ⟨.domainRoot, lane⟩ := by
  rw [xyzToLab_eq, lanewise_of_firstFail (fun _ l => labForward_of_stageOk cfg l)
    (fun _ l => labForward_of_not_stageOk cfg l) h]
  rfl

theorem xyzToSrgb_of_firstFail (cfg : Config) {c : Triple F32} {lane : Nat}
    (h : FirstFail rootStageOk (matmul cfg.matInv c) lane) : xyzToSrgb cfg c = .error ⟨.domainRoot, lane⟩ :=
  lanewise_of_firstFail (fun _ l => srgbEncode_of_stageOk cfg l) (fun _ l => srgbEncode_of_not_stageOk cfg l) h

/-- `srgb_to_xyz` cannot fault on finite channels (R171). -/
theorem srgbToXyz_of_finite (cfg : Config) {c : Triple F32} (h : c.Finite) :
    srgbToXyz cfg c = .ok (matmul cfg.matFwd (c.map (decodeValue cfg))) := by
  rw [srgbToXyz, lanewise_of_allPass (fun _ l => srgbDecode_of_isFinite cfg l) h]
  rfl

/-- On finite channels `srgb_to_lab` is `xyz_to_lab` of the matrix's result (R173). -/
theorem srgbToLab_of_finite (cfg : Config) (w : Triple F32) {c : Triple F32} (h : c.Finite) :
    srgbToLab cfg w c = xyzToLab cfg w (matmul cfg.matFwd (c.map (decodeValue cfg))) := by
  rw [srgbToLab, srgbToXyz_of_finite cfg h]
  rfl

theorem finite_a_of_aWhiteRegs {s : State} (h : s.FiniteRegs aWhiteRegs) : s.a.Finite :=
  (finiteRegs_aRegs s).1 fun g hg => h g (by revert g; decide)

/-! ### LAB_FWD, LAB_INV, XYZ2LAB and LAB2XYZ (R142 to R145) -/

/-- Settles O31: a finite operand passes the root stage. -/
theorem labForwardCompletes : Obligations.LabForwardCompletes := fun s hs =>
  runTriple_lanewise_of_finite hs fun _ lane hv => labForward_of_stageOk s.cfg lane (rootStageOk_of_isFinite hv)

/-- Settles O32: past the operand check there is nothing to fault; the statement's lane is `labInverse`. -/
theorem labInverseCompletes : Obligations.LabInverseCompletes := fun s hs =>
  runTriple_of_ok (e := .ok (s.a.map labInverse)) ((finiteRegs_aRegs s).2 hs) rfl

/-- Settles O33: the operand check passes, and so does the root stage on every lane. -/
theorem xyzToLabCompletes : Obligations.XyzToLabCompletes := fun s hs hpass =>
  runTriple_of_ok hs (xyzToLab_of_allPass s.cfg hpass)

/-- Settles O34: past the operand check there is nothing to fault; the statement's triple is `labToXyz`. -/
theorem labToXyzCompletes : Obligations.LabToXyzCompletes := fun s hs =>
  runTriple_of_ok (e := .ok (labToXyz s.white s.a)) hs rfl

/-! ### The chromaticity and its zero guard (R134, R146) -/

/-- The zero guard of R134, R137 and R141 lets a number that is no zero through. -/
theorem feq_zero32_ne_true {x : F32} (h : isZero x = false) : ¬feq x zero32 = true := by simp [feq_zero32, h]

/-- The denominator of `calc_uv_prime` (R134). -/
def uvDenominator (c : Triple F32) : F32 := fadd (fadd c.c0 (fmul f15 c.c1)) (fmul f3 c.c2)

theorem calcUvPrime_of_isZero {c : Triple F32} (h : isZero (uvDenominator c) = true) :
    calcUvPrime c = (zero32, zero32) :=
  if_pos ((feq_zero32 _).trans h)

theorem calcUvPrime_of_not_isZero {c : Triple F32} (h : isZero (uvDenominator c) = false) :
    calcUvPrime c = (fdiv (fmul f4 c.c0) (uvDenominator c), fdiv (fmul f9 c.c1) (uvDenominator c)) :=
  if_neg (feq_zero32_ne_true h)

theorem exec_uvp_of_finite {s : State} (hs : s.a.Finite) {u v : F32} (h : calcUvPrime s.a = (u, v)) :
    exec .uvp s = .next (s.writeResult ⟨u, v, zero32⟩).complete :=
  runTriple_of_ok ((finiteRegs_aRegs s).2 hs) (by rw [h])

/-- Settles O35: the guard is a test for a zero, and UVP writes the pair of `calc_uv_prime`. -/
theorem uvPrimeCompletes : Obligations.UvPrimeCompletes :=
  ⟨fun _ => ⟨calcUvPrime_of_isZero, calcUvPrime_of_not_isZero⟩, fun _ hs =>
    ⟨fun h => exec_uvp_of_finite hs (calcUvPrime_of_isZero h),
      fun h => exec_uvp_of_finite hs (calcUvPrime_of_not_isZero h)⟩⟩

/-! ### XYZ2LUV and LUV2XYZ, each in its two forms (R140, R147 to R150) -/

/-- Where each form of a Luv operation takes the white's chromaticity from: the full one computes it from WX, WY and
WZ, the .PW one reads WUP and WVP (R140). -/
def LuvWhite (full pw : Instr) (s : State) (i : Instr) (upw vpw : F32) : Prop :=
  i = full ∧ (upw, vpw) = calcUvPrime ⟨s.wx, s.wy, s.wz⟩ ∨ i = pw ∧ upw = s.wup ∧ vpw = s.wvp

/-- Both forms of XYZ2LUV check their own list and are the .PW evaluation with their chromaticity. -/
theorem exec_xyz2luv_eq {s : State} {i : Instr} {upw vpw : F32} (h : LuvWhite .xyz2luv .xyz2luvPw s i upw vpw) :
    exec i s = runTriple s (checkedRegs i) (xyzToLuvPw s.cfg s.wy upw vpw s.a) := by
  rcases h with ⟨rfl, hw⟩ | ⟨rfl, rfl, rfl⟩
  · obtain ⟨rfl, rfl⟩ : upw = (calcUvPrime s.white).1 ∧ vpw = (calcUvPrime s.white).2 := Prod.ext_iff.1 hw
    rfl
  · rfl

/-- Both forms of LUV2XYZ check their own list and are the .PW evaluation with their chromaticity. -/
theorem exec_luv2xyz_eq {s : State} {i : Instr} {upw vpw : F32} (h : LuvWhite .luv2xyz .luv2xyzPw s i upw vpw) :
    exec i s = runTriple s (checkedRegs i) (.ok (luvToXyzPw s.wy upw vpw s.a)) := by
  rcases h with ⟨rfl, hw⟩ | ⟨rfl, rfl, rfl⟩
  · obtain ⟨rfl, rfl⟩ : upw = (calcUvPrime s.white).1 ∧ vpw = (calcUvPrime s.white).2 := Prod.ext_iff.1 hw
    rfl
  · rfl

theorem xyzToLuvPw_of_stageOk (cfg : Config) {yw : F32} (upw vpw : F32) {c : Triple F32}
    (h : rootStageOk (fdiv c.c1 yw) = true) :
    let l := lightnessValue cfg (fdiv c.c1 yw)
    xyzToLuvPw cfg yw upw vpw c =
      .ok ⟨l, fmul (fmul f13 l) (fsub (calcUvPrime c).1 upw), fmul (fmul f13 l) (fsub (calcUvPrime c).2 vpw)⟩ := by
  rw [xyzToLuvPw, luvLightness_of_stageOk cfg h]
  rfl

theorem xyzToLuvPw_of_not_stageOk (cfg : Config) {yw : F32} (upw vpw : F32) {c : Triple F32}
    (h : rootStageOk (fdiv c.c1 yw) = false) : xyzToLuvPw cfg yw upw vpw c = .error ⟨.domainRoot, 1⟩ := by
  rw [xyzToLuvPw, luvLightness_of_not_stageOk cfg h]
  rfl

theorem luvToXyzPw_of_isZero {c : Triple F32} (yw upw vpw : F32) (h : isZero c.c0 = true) :
    luvToXyzPw yw upw vpw c = ⟨zero32, zero32, zero32⟩ :=
  if_pos ((feq_zero32 _).trans h)

theorem luvToXyzPw_of_not_isZero {c : Triple F32} (yw upw vpw : F32) (h : isZero c.c0 = false) :
    let l13 := fmul f13 c.c0
    let xz := uvToXz (luvY c.c0 yw) (fadd (fdiv c.c1 l13) upw) (fadd (fdiv c.c2 l13) vpw)
    luvToXyzPw yw upw vpw c = ⟨xz.1, luvY c.c0 yw, xz.2⟩ :=
  if_neg (feq_zero32_ne_true h)

/-- Settles O36: y/WY passes the root stage, so the lightness is a value. -/
theorem xyzToLuvCompletes : Obligations.XyzToLuvCompletes := by
  intro s i upw vpw hi hs hok
  rw [exec_xyz2luv_eq hi]
  exact runTriple_of_ok hs (xyzToLuvPw_of_stageOk s.cfg upw vpw hok)

/-- Settles O37: past the operand check there is nothing to fault, and the guard on L is a test for a zero. -/
theorem luvToXyzCompletes : Obligations.LuvToXyzCompletes := by
  intro s i upw vpw hi hs
  rw [exec_luv2xyz_eq hi]
  exact ⟨fun hz => runTriple_of_ok hs (congrArg _ (luvToXyzPw_of_isZero _ _ _ hz)),
    fun hz => runTriple_of_ok hs (congrArg _ (luvToXyzPw_of_not_isZero _ _ _ hz))⟩

/-! ### WSET (R141, R151) -/

theorem whiteFromXyY_of_isZero {wy : F32} (wx wyy : F32) (h : isZero wy = true) :
    whiteFromXyY wx wy wyy = .error ⟨.whiteZero, 0⟩ :=
  if_pos ((feq_zero32 _).trans h)

theorem whiteFromXyY_of_not_isZero {wy : F32} (wx wyy : F32) (h : isZero wy = false) :
    whiteFromXyY wx wy wyy = .ok ⟨fmul (fdiv wx wy) wyy, wyy, fmul (fdiv (fsub (fsub f1 wx) wy) wy) wyy⟩ :=
  if_neg (feq_zero32_ne_true h)

/-- Past the operand check WSET ends as `white_from_xyY` does, with the chromaticity of the white it gives (R151). -/
theorem exec_wset_of_finite {s : State} (hs : s.a.Finite) :
    exec .wset s = endStep s (whiteFromXyY s.a.c0 s.a.c1 s.a.c2)
      fun s w => s.writeWhite w (calcUvPrime w).1 (calcUvPrime w).2 := by
  rw [exec, execWset, checkFinite_ok ((finiteRegs_aRegs s).2 hs)]
  rfl

/-- Settles O38: each register by what `settleWord` gives it, and white_Y is its own bits because it is finite. -/
theorem whiteSetFromChromaticity : Obligations.WhiteSetFromChromaticity := by
  intro s hs
  rw [exec_wset_of_finite hs]
  refine ⟨fun hz => by rw [whiteFromXyY_of_isZero _ _ hz, endStep_error], fun hz => ?_⟩
  rw [whiteFromXyY_of_not_isZero _ _ hz, endStep_ok]
  have hY : isNaN s.a.c2 = false := isNaN_eq_false_of_isFinite hs.2.2
  exact ⟨_, rfl, rfl, settleWord_of_not_isNaN _ hY,
    settleWord_of_not_isNaN _, settleWord_of_not_isNaN _, settleWord_of_not_isNaN _, settleWord_of_not_isNaN _,
    isNaN_settleWord _, isNaN_settleWord _, isNaN_settleWord _, isNaN_settleWord _, rfl⟩

/-! ### What a root stage does not take (R144, R147, R148, R172 to R174) -/

/-- Both forms of XYZ2LUV report lane 1 where y/WY is NaN or +∞. -/
theorem exec_xyz2luv_of_not_stageOk {s : State} {i : Instr} {upw vpw : F32}
    (hi : LuvWhite .xyz2luv .xyz2luvPw s i upw vpw) (hs : s.FiniteRegs (checkedRegs i))
    (h : rootStageOk (fdiv s.a.c1 s.wy) = false) : exec i s = .next (s.raise ⟨.domainRoot, 1⟩) := by
  rw [exec_xyz2luv_eq hi]
  exact runTriple_of_error hs (xyzToLuvPw_of_not_stageOk s.cfg upw vpw h)

/-- Settles O42: past the operand check each operation's evaluation ends at its root stage, and nothing before that
stage faults. -/
theorem rootStageFaults : Obligations.RootStageFaults := by
  intro s lane
  refine ⟨?xyz2lab, ?xyz2luv, ?xyz2luvPw, ?xyz2srgb, ?srgb2lab, ?lab2srgb⟩ <;> intro hs h
  case xyz2lab => exact runTriple_of_error hs (xyzToLab_of_firstFail s.cfg h)
  case xyz2luv => exact exec_xyz2luv_of_not_stageOk (.inl ⟨rfl, rfl⟩) hs h
  case xyz2luvPw => exact exec_xyz2luv_of_not_stageOk (.inr ⟨rfl, rfl, rfl⟩) hs h
  case xyz2srgb => exact runTriple_of_error ((finiteRegs_aRegs s).2 hs) (xyzToSrgb_of_firstFail s.cfg h)
  case srgb2lab =>
    refine runTriple_of_error hs ?_
    rw [srgbToLab_of_finite s.cfg s.white (finite_a_of_aWhiteRegs hs)]
    exact xyzToLab_of_firstFail s.cfg h
  case lab2srgb => exact runTriple_of_error hs (xyzToSrgb_of_firstFail (c := labToXyz s.white s.a) s.cfg h)

end Sys2Proof.Machine

/-! ## The matrix multiplier (spec/43_matrix.md) -/

namespace Sys2Proof.Machine

/-- Where each matrix operation takes its matrix from: the configuration's forward or inverse one (R164, R165). -/
def MatrixOf (s : State) (i : Instr) (m : Mat3) : Prop :=
  i = .matFwd ∧ m = s.cfg.matFwd ∨ i = .matInv ∧ m = s.cfg.matInv

/-- Both matrix operations check A0 to A2 and then multiply by their matrix (R164, R165). -/
theorem exec_matrix_eq {s : State} {i : Instr} {m : Mat3} (h : MatrixOf s i m) :
    exec i s = runTriple s aRegs (.ok (matmul m s.a)) := by
  rcases h with ⟨rfl, rfl⟩ | ⟨rfl, rfl⟩
  · rfl
  · rfl

/-- `matmul` is R160's row, row by row. -/
theorem matmul_eq_map_matRow (m : Mat3) (c : Triple F32) : matmul m c = m.map (matRow · c) := rfl

/-- Settles O39: past the operand check there is nothing to fault, and the statement's row is `matRow`. -/
theorem matrixMultiplyCompletes : Obligations.MatrixMultiplyCompletes := by
  refine ⟨fun _ _ => rfl, fun s i m hi hs => ?_⟩
  rw [exec_matrix_eq hi]
  exact runTriple_of_ok ((finiteRegs_aRegs s).2 hs) (congrArg _ (matmul_eq_map_matRow m s.a))

end Sys2Proof.Machine

/-! ## NOP and the composed pipelines (spec/44_pipelines.md) -/

namespace Sys2Proof.Machine

/-! ### NOP (R170) -/

/-- A host write to CMD of an idle block starts the command, on a state whose IRQ line the host has seen (R223). -/
theorem hostStep_wr_cmd_of_idle {s : State} (h : s.phase = .idle) (w : Word) :
    hostStep (.wr (slotOf .cmd) w) s = .next (s.seeIrq.startCommand w) := by
  rw [hostStep_wr_slotOf, writeReg, guarded_of_idle ((seeIrq_busy s).trans ((busy_eq_false_iff s).2 h))]

/-- Started on an idle block, word 0 hands no range over, and its completion undoes the start but for CMD and STATUS. -/
theorem complete_startCommand_zero {s : State} (h : s.phase = .idle) :
    (s.startCommand 0x00000000#32).complete =
      { s with
        cmd := 0x00000000#32
        status := { done := true, err := false, wlost := s.status.wlost, errCode := 0x00#8 } } := by
  have hhand : s.handOver 0x00000000#32 = s.handed := handOver_of_not_batch fun p hp => by
    have hnop : Instr.nop = p.instr := Except.ok.inj (decode_nop.symm.trans hp)
    cases p <;> cases hnop
  rw [State.complete, State.startCommand, hhand, ← h]

/-- Settles O19: NOP is `complete`, and word 0, once started, decodes to it. -/
theorem nopOnlySetsDone : Obligations.NopOnlySetsDone := by
  refine ⟨fun _ => rfl, fun s h => ⟨_, hostStep_wr_cmd_of_idle h _, ?_⟩⟩
  have hrun : (s.seeIrq.startCommand 0x00000000#32).phase ≠ .idle := nofun
  have hstep : engineStep (s.seeIrq.startCommand 0x00000000#32) =
      .next (s.seeIrq.startCommand 0x00000000#32).complete := engineStep_of_ok hrun decode_nop
  rw [hstep, complete_startCommand_zero ((seeIrq_phase s).trans h), seeIrq_status]

/-! ### SRGB2XYZ, SRGB2LAB, XYZ2SRGB and LAB2SRGB (R171 to R174) -/

theorem finiteRegs_aWhiteRegs (s : State) : s.FiniteRegs aWhiteRegs ↔ s.a.Finite ∧ s.white.Finite := by
  simp [State.FiniteRegs, aWhiteRegs, Triple.Finite, State.get, State.white, and_assoc]

/-- `xyz_to_srgb` encodes the matrix's lanes where none of them is NaN or +∞ (R172). -/
theorem xyzToSrgb_of_allPass (cfg : Config) {c : Triple F32} (h : AllPass rootStageOk (matmul cfg.matInv c)) :
    xyzToSrgb cfg c = .ok ((matmul cfg.matInv c).map (encodeValue cfg)) :=
  lanewise_of_allPass (fun _ l => srgbEncode_of_stageOk cfg l) h

/-- Settles O40: the decoder and the matrix cannot fault on finite channels, and what follows them in SRGB2LAB is
`xyz_to_lab`, whose root stage takes every quotient. -/
theorem srgbForwardPipelinesComplete : Obligations.SrgbForwardPipelinesComplete := by
  intro s ha xyz
  refine ⟨?srgb2xyz, fun hw hpass => ?srgb2lab⟩
  case srgb2xyz => exact runTriple_of_ok ((finiteRegs_aRegs s).2 ha) (srgbToXyz_of_finite s.cfg ha)
  case srgb2lab =>
    refine runTriple_of_ok ((finiteRegs_aWhiteRegs s).2 ⟨ha, hw⟩) ?_
    rw [srgbToLab_of_finite s.cfg s.white ha]
    exact xyzToLab_of_allPass s.cfg hpass

/-- Settles O41: both are `xyz_to_srgb`, of the operands or of their `lab_to_xyz`, which cannot fault. -/
theorem srgbInversePipelinesComplete : Obligations.SrgbInversePipelinesComplete := by
  intro s ha
  refine ⟨fun hpass => ?xyz2srgb, fun hw hpass => ?lab2srgb⟩
  case xyz2srgb => exact runTriple_of_ok ((finiteRegs_aRegs s).2 ha) (xyzToSrgb_of_allPass s.cfg hpass)
  case lab2srgb =>
    exact runTriple_of_ok ((finiteRegs_aWhiteRegs s).2 ⟨ha, hw⟩)
      (xyzToSrgb_of_allPass (c := labToXyz s.white s.a) s.cfg hpass)

end Sys2Proof.Machine

/-! ## The quantizer (spec/45_quantizer.md) -/

namespace Sys2Proof.Machine

/-! ### A whole number's distance to a fraction, without a fraction -/

section
variable {d : Nat}

theorem abs_sub_div_eq (m n : Nat) (hd : 0 < d) :
    |(m : ℚ) - n / d| = (|2 * (m * d : ℤ) - 2 * n| : ℤ) / (d : ℤ) / 2 := by
  have hd' : (0 : ℚ) < d := by exact_mod_cast hd
  push_cast
  rw [div_div, ← abs_of_pos (by positivity : (0 : ℚ) < d * 2), ← abs_div]
  congr 1
  field_simp

theorem abs_sub_div_le_half_iff (m n : Nat) (hd : 0 < d) :
    |(m : ℚ) - n / d| ≤ 1 / 2 ↔ 2 * n ≤ 2 * (m * d) + d ∧ 2 * (m * d) ≤ 2 * n + d := by
  rw [abs_sub_div_eq m n hd, div_le_div_iff_of_pos_right two_pos, div_le_one (by exact_mod_cast hd), Int.cast_le,
    abs_le]
  omega

theorem abs_sub_div_eq_half_iff (m n : Nat) (hd : 0 < d) :
    |(m : ℚ) - n / d| = 1 / 2 ↔ 2 * n = 2 * (m * d) + d ∨ 2 * (m * d) = 2 * n + d := by
  rw [abs_sub_div_eq m n hd, div_left_inj' two_ne_zero, div_eq_one_iff_eq (by exact_mod_cast hd.ne'), Int.cast_inj,
    abs_eq (by omega)]
  omega

/-- A fraction half-way from a whole number has half its denominator as remainder. -/
theorem two_mul_mod_of_tie {m n : Nat} (hd : 0 < d) (h : 2 * n = 2 * (m * d) + d ∨ 2 * (m * d) = 2 * n + d) :
    2 * (n % d) = d := by
  obtain ⟨k, hk⟩ : ∃ k, 2 * n = d + 2 * d * k := by
    rcases h with h | h
    · exact ⟨m, by rw [h]; ring⟩
    · cases m with
      | zero => omega
      | succ k => exact ⟨k, by linarith⟩
  rw [← Nat.mul_mod_mul_left, hk, Nat.add_mul_mod_self_left, Nat.mod_eq_of_lt (by omega)]

end

/-! ### The rounding of a positive number (R180) -/

theorem unitsPerOne_pos : 0 < unitsPerOne := by rw [unitsPerOne]; positivity

theorem valueQ_of_pos {x : F32} (hs : signBit x = false) : valueQ x = mag x / unitsPerOne := by
  rw [valueQ_eq, hs, signQ_false, one_mul, unitsPerOne, Nat.cast_pow, Nat.cast_ofNat]

/-- Under either tie rule the whole number is off by at most half. -/
theorem roundToWhole_bounds (q : QRound) (x : F32) :
    2 * mag x ≤ 2 * (roundToWhole q x * unitsPerOne) + unitsPerOne ∧
    2 * (roundToWhole q x * unitsPerOne) ≤ 2 * mag x + unitsPerOne := by
  cases q with
  | tiesEven => exact nearestEven_bounds _ unitsPerOne_pos
  | tiesAway => exact (nearestAway_bounds _ unitsPerOne_pos).imp_left le_of_lt

theorem roundToWhole_le {q : QRound} {x : F32} {b : Nat} (h : mag x < b * unitsPerOne) : roundToWhole q x ≤ b := by
  have hlow := (roundToWhole_bounds q x).2
  have hlt : roundToWhole q x * unitsPerOne < (b + 1) * unitsPerOne := by rw [add_mul]; omega
  exact Nat.le_of_lt_succ (lt_of_mul_lt_mul_right hlt (Nat.zero_le _))

theorem abs_roundToWhole_sub_le (q : QRound) {x : F32} (hs : signBit x = false) :
    |(roundToWhole q x : ℚ) - valueQ x| ≤ 1 / 2 := by
  rw [valueQ_of_pos hs, abs_sub_div_le_half_iff _ _ unitsPerOne_pos]
  exact roundToWhole_bounds q x

theorem roundToWhole_tiesEven_of_tie {x : F32} (hs : signBit x = false)
    (h : |(roundToWhole .tiesEven x : ℚ) - valueQ x| = 1 / 2) : roundToWhole .tiesEven x % 2 = 0 := by
  rw [valueQ_of_pos hs, abs_sub_div_eq_half_iff _ _ unitsPerOne_pos] at h
  exact nearestEven_even_of_tie (two_mul_mod_of_tie unitsPerOne_pos h)

theorem roundToWhole_tiesAway_of_tie {x : F32} (hs : signBit x = false)
    (h : |(roundToWhole .tiesAway x : ℚ) - valueQ x| = 1 / 2) : valueQ x < roundToWhole .tiesAway x := by
  rw [valueQ_of_pos hs, abs_sub_div_eq_half_iff _ _ unitsPerOne_pos] at h
  have hbelow : 2 * mag x < 2 * (roundToWhole .tiesAway x * unitsPerOne) + unitsPerOne :=
    (nearestAway_bounds (mag x) unitsPerOne_pos).1
  have hU := unitsPerOne_pos
  rw [valueQ_of_pos hs, div_lt_iff₀ (by exact_mod_cast hU)]
  norm_cast
  omega

/-! ### The byte (R180) -/

theorem quantize_of_isNaN (cfg : Config) {v scale : F32} (info : Nat) (h : isNaN (fmul v scale) = true) :
    quantize cfg v scale info = .error ⟨.quantNan, info⟩ :=
  if_pos h

theorem quantize_of_not_isNaN (cfg : Config) {v scale : F32} (info : Nat) (h : isNaN (fmul v scale) = false) :
    quantize cfg v scale info = .ok (clampByte cfg.qround (fmul v scale)) :=
  if_neg (by rw [h]; exact Bool.false_ne_true)

/-- The bounds 0 and 255 in units. -/
theorem fle_zero32_eq {x : F32} (h : isNaN x = false) : fle x zero32 = decide (units x ≤ 0) :=
  fle_eq h (by decide)

theorem fle_f255_eq {x : F32} (h : isNaN x = false) : fle f255 x = decide ((255 * unitsPerOne : Nat) ≤ units x) := by
  rw [fle_eq (by decide) h, show units f255 = (255 * unitsPerOne : Nat) by decide +kernel]

section
variable {q : QRound} {x : F32}

theorem clampByte_of_fle_zero32 (h : fle x zero32 = true) : clampByte q x = 0x00#8 := if_pos h

/-- A number at or above 255 is not at or below 0, so the first clamp leaves it to the second. -/
theorem clampByte_of_f255_fle (hn : isNaN x = false) (h : fle f255 x = true) : clampByte q x = 0xFF#8 := by
  have hpos : fle x zero32 = false := by
    rw [fle_f255_eq hn, decide_eq_true_iff, Nat.cast_mul] at h
    have hU := unitsPerOne_pos
    rw [fle_zero32_eq hn, decide_eq_false_iff_not]
    omega
  rw [clampByte, hpos, h]
  rfl

/-- Strictly between the clamps a number is positive and below 255. -/
theorem pos_and_mag_lt_of_between (hn : isNaN x = false) (h0 : fle x zero32 = false) (h255 : fle f255 x = false) :
    signBit x = false ∧ mag x < 255 * unitsPerOne := by
  rw [fle_zero32_eq hn, decide_eq_false_iff_not, not_le] at h0
  rw [fle_f255_eq hn, decide_eq_false_iff_not, not_le] at h255
  have hs := (mag_pos_of_units_pos h0).1
  rw [units_eq_mag hs, Nat.cast_lt] at h255
  exact ⟨hs, h255⟩

/-- Strictly between the clamps the rounded number fits the byte. -/
theorem toNat_clampByte_of_between (hn : isNaN x = false) (h0 : fle x zero32 = false) (h255 : fle f255 x = false) :
    (clampByte q x).toNat = roundToWhole q x := by
  have hle : roundToWhole q x ≤ 255 := roundToWhole_le (pos_and_mag_lt_of_between hn h0 h255).2
  rw [clampByte, h0, h255]
  exact Nat.mod_eq_of_lt (by omega)

end

/-- Settles O43: the clamps are tests in whole units, and between them the byte is `roundToWhole`, off by at most half,
where a tie leaves half of `unitsPerOne` as remainder. -/
theorem quantizeRoundsAndClamps : Obligations.QuantizeRoundsAndClamps := by
  refine ⟨rfl, fun cfg v scale info => ?_⟩
  intro p
  refine ⟨quantize_of_isNaN cfg info, fun hn =>
    ⟨_, quantize_of_not_isNaN cfg info hn, clampByte_of_fle_zero32, clampByte_of_f255_fle hn, fun h0 h255 => ?_⟩⟩
  obtain ⟨hs, -⟩ := pos_and_mag_lt_of_between hn h0 h255
  rw [toNat_clampByte_of_between hn h0 h255]
  refine ⟨abs_roundToWhole_sub_le _ hs, fun htie => ⟨fun hq => ?_, fun hq => ?_⟩⟩
  · rw [hq] at htie ⊢
    exact roundToWhole_tiesEven_of_tie hs htie
  · rw [hq] at htie ⊢
    exact roundToWhole_tiesAway_of_tie hs htie

/-! ### QUANT (R181) -/

theorem finiteRegs_quantRegs (s : State) : s.FiniteRegs quantRegs ↔ s.a.Finite ∧ s.outScale.Finite := by
  simp [State.FiniteRegs, quantRegs, Triple.Finite, State.get, and_assoc]

theorem byteWord_eq_append (b : Byte) : byteWord b = 0#24 ++ b := by
  exact BitVec.setWidth_eq_append (by decide)

/-- Products of finite numbers are not NaN, so no lane can fault (R181). -/
theorem allPass_mulLanes_of_finite {c w : Triple F32} (hc : c.Finite) (hw : w.Finite) :
    AllPass (fun x => !isNaN x) (mulLanes c w) := by
  obtain ⟨c0, c1, c2⟩ := hc
  obtain ⟨w0, w1, w2⟩ := hw
  simp [AllPass, mulLanes, isNaN_fmul_of_finite, *]

theorem exec_quant_of_finite {s : State} (ha : s.a.Finite) (hw : s.outScale.Finite) :
    exec .quant s =
      .next (s.writeBytes ((mulLanes s.a s.outScale).map (clampByte s.cfg.qround))).complete := by
  rw [exec, execQuant, checkFinite_ok ((finiteRegs_quantRegs s).2 ⟨ha, hw⟩), Eval.ok_bind,
    quantizeTriple_of_not_nan id (allPass_mulLanes_of_finite ha hw), endStep_ok]

/-- Settles O44: past the operand check (R17) no product is NaN, and each register holds its lane's `clampByte`. -/
theorem quantCompletes : Obligations.QuantCompletes := by
  intro s hs
  obtain ⟨ha, hw⟩ := (finiteRegs_quantRegs s).1 hs
  have ⟨a0, a1, a2⟩ := ha
  have ⟨w0, w1, w2⟩ := hw
  refine ⟨(mulLanes s.a s.outScale).map (clampByte s.cfg.qround), fun info =>
    ⟨quantize_of_not_isNaN _ _ (isNaN_fmul_of_finite a0 w0), quantize_of_not_isNaN _ _ (isNaN_fmul_of_finite a1 w1),
      quantize_of_not_isNaN _ _ (isNaN_fmul_of_finite a2 w2)⟩, ?_⟩
  rw [exec_quant_of_finite ha hw, ← byteWord_eq_append, ← byteWord_eq_append, ← byteWord_eq_append]
  rfl

end Sys2Proof.Machine

/-! ## The batch converter (spec/46_batch.md) -/

namespace Sys2Proof.Machine

/-! ### The entry step and the end step (R190, R191, R265) -/

theorem batchEntry_of_ok {p : Pid} {s : State} (h : batchEntryCheck p s = .ok ()) :
    batchEntry p s = .next (s.advanceTo 0) := by
  rw [batchEntry, h]

theorem batchEntry_of_error {p : Pid} {s : State} {f : OpFault} (h : batchEntryCheck p s = .error f) :
    batchEntry p s = .next ({ s with batchIdx := 0#32 }.raise f) := by
  rw [batchEntry, h]

/-- Settles O45: the bounds decide before any register is read, and past them the check is that of the registers. -/
theorem batchEntryAndEndSteps : Obligations.BatchEntryAndEndSteps := by
  intro p s start npix
  rw [exec_pid]
  refine ⟨fun hw => ?_, fun hw => batchStep_of_walk_end p hw le_rfl, ?_⟩
  · rw [batchStep_of_not_walk p hw]
    refine ⟨fun hb => batchEntry_of_error (if_pos hb), fun hb hr => batchEntry_of_ok ?_⟩
    rw [batchEntryCheck_of_bounds hb]
    exact checkFinite_ok hr
  · have := s.bufLen.isLt
    omega

/-! ### The pipeline of a pixel (R194) -/

/-- The operation of a pipeline checks its registers and then takes its operands through that pipeline. -/
theorem exec_pidOperation (p : Pid) (s : State) (c : Triple F32) :
    exec (pidOperation p) { s with a := c } =
      runTriple { s with a := c } (checkedRegs (pidOperation p)) (pipe p s c) := by
  cases p <;> rfl

/-- Settles O46: past its operand check the operation ends as the pipeline does. -/
theorem batchPipelineIsTheOperation : Obligations.BatchPipelineIsTheOperation := by
  intro p s c t hr
  rw [exec_pidOperation]
  exact ⟨fun _ => runTriple_of_ok hr, fun _ => runTriple_of_error hr⟩

/-! ### The faults of a pixel step (R192, R193, R224) -/

section
variable {p : Pid} {s : State} (k : Nat) {b : Triple Byte}

theorem convertPixel_of_not_finite (hc : ¬(channelsOf s.inScale b).Finite) :
    convertPixel p s k b = .error ⟨.domainOperand, k⟩ := by
  rw [convertPixel, decodePixel_of_not_finite hc]
  rfl

theorem convertPixel_of_pipe_error {f : OpFault} (hc : (channelsOf s.inScale b).Finite)
    (hf : pipe p s (channelsOf s.inScale b) = .error f) : convertPixel p s k b = .error ⟨f.code, k⟩ := by
  rw [convertPixel, decodePixel_of_finite hc, Eval.ok_bind, hf]
  rfl

theorem convertPixel_of_product_nan {o : Triple F32} (hc : (channelsOf s.inScale b).Finite)
    (ho : pipe p s (channelsOf s.inScale b) = .ok o) (hq : ¬AllPass (fun x => !isNaN x) (mulLanes o s.outScale)) :
    convertPixel p s k b = .error ⟨.quantNan, k⟩ := by
  rw [convertPixel, decodePixel_of_finite hc, Eval.ok_bind, ho, Eval.ok_bind, quantizeTriple_of_nan k hq]
  rfl

end

/-- Settles O48: a pixel that does not convert ends the walk, and its conversion fails at the first of its three stages
that does. -/
theorem batchPixelFaults : Obligations.BatchPixelFaults := by
  intro p s k hw hk hb c
  have ends {f : OpFault} (hf : convertPixel p s k (s.pixelBytes k) = .error f) :
      exec p.instr s = .next (s.raise f) := (exec_pid p s).trans (batchStep_of_walk_error p hw hk hb hf)
  exact ⟨fun hc => ends (convertPixel_of_not_finite k hc), fun _ hc hf => ends (convertPixel_of_pipe_error k hc hf),
    fun _ hc ho hq => ends (convertPixel_of_product_nan k hc ho hq)⟩

/-! ### The engine always answers (R191, R222, R266) -/

/-- The pixels of a legal walk are inside the memory (R191). -/
theorem pixelAddr_lt_memBytes_of_walk {s : State} {k j : Nat} (h : s.Inv) (hw : s.phase = .walk k)
    (hj : j < s.npix) : s.pixelAddr j + 2 < s.cfg.memBytes := by
  obtain ⟨-, -, -, hwalk⟩ := h
  obtain ⟨-, -, p, -, hcheck⟩ := hwalk k hw
  have hrange := le_memBytes_of_batchEntryCheck hcheck
  unfold State.pixelAddr
  omega

theorem endStep_next {α : Type} (s : State) (e : Eval α) (write : State → α → State) :
    ∃ t, endStep s e write = .next t := by
  cases e with
  | error f => exact ⟨_, endStep_error s f write⟩
  | ok v => exact ⟨_, endStep_ok s v write⟩

/-- An operation that is no BATCH ends in its one step, whatever its operands. -/
theorem exec_nonbatch_next {i : Instr} (s : State) (hp : i.pid? = none) : ∃ t, exec i s = .next t := by
  cases i
  case nop => exact ⟨_, rfl⟩
  case wset => rw [exec, execWset]; exact endStep_next s _ _
  case quant => rw [exec, execQuant]; exact endStep_next s _ _
  case root3 | root5 | root12 | srgbDec | srgbEnc | labFwd | labInv | xyz2lab | lab2xyz | uvp | xyz2luv |
      xyz2luvPw | luv2xyz | luv2xyzPw | matFwd | matInv | srgb2xyz | xyz2srgb | srgb2lab | lab2srgb =>
    exact endStep_next s _ _
  all_goals cases hp

theorem batchEntry_next (p : Pid) (s : State) : ∃ t, batchEntry p s = .next t := by
  cases h : batchEntryCheck p s with
  | error f => exact ⟨_, batchEntry_of_error h⟩
  | ok u => exact ⟨_, batchEntry_of_ok h⟩

/-- A step of a BATCH from a legal state: the entry step answers always, and a walk reads no byte past the memory. -/
theorem batchStep_next {s : State} (p : Pid) (h : s.Inv) : ∃ t, batchStep p s = .next t := by
  by_cases hw : ∃ k, s.phase = .walk k
  · obtain ⟨k, hw⟩ := hw
    rcases lt_or_ge k s.npix with hk | hk
    · have hb := pixelAddr_lt_memBytes_of_walk h hw hk
      cases hc : convertPixel p s k (s.pixelBytes k) with
      | error f => exact ⟨_, batchStep_of_walk_error p hw hk hb hc⟩
      | ok q => exact ⟨_, batchStep_of_walk_ok p hw hk hb hc⟩
    · exact ⟨_, batchStep_of_walk_end p hw hk⟩
  · rw [batchStep_of_not_walk p fun k hk => hw ⟨k, hk⟩]
    exact batchEntry_next p s

/-- Settles O60: IDLE stays, a reserved word faults, and the decoded operation answers, a BATCH by legality. -/
theorem engineNeverStops : Obligations.EngineNeverStops := by
  intro s h
  by_cases hph : s.phase = .idle
  · exact ⟨_, engineStep_of_idle hph⟩
  · cases hop : s.operation with
    | error e => exact ⟨_, engineStep_of_error hph hop⟩
    | ok i =>
      rw [engineStep_of_ok hph hop]
      cases hp : i.pid? with
      | none => exact exec_nonbatch_next s hp
      | some p =>
        rw [eq_instr_of_pid? hp, exec_pid]
        exact batchStep_next p h

/-! ### A walk, pixel by pixel (R192, R265) -/

/-- One engine step more. -/
theorem engineSteps_succ_of_next {n : Nat} {s t : State} (h : engineSteps n s = .next t) :
    engineSteps (n + 1) s = engineStep t := by
  induction n generalizing s with
  | zero =>
    injection h with h
    subst h
    rw [engineSteps]
    cases engineStep s <;> rfl
  | succ n ih =>
    rw [engineSteps] at h ⊢
    cases hs : engineStep s with
    | next u => rw [hs] at h; exact ih h
    | fault f => rw [hs] at h; cases h
    | refused r => rw [hs] at h; cases h

/-- `t` holds the bytes of `s` with pixels 0 to `k`−1 replaced by those of `q`. -/
def PixelsConverted (s t : State) (q : Nat → Triple Byte) (k : Nat) : Prop :=
  (∀ j < k, t.pixelBytes j = q j) ∧
  ∀ y : Nat, (∀ j < k, y ≠ s.pixelAddr j ∧ y ≠ s.pixelAddr j + 1 ∧ y ≠ s.pixelAddr j + 2) → t.byteAt y = s.byteAt y

/-- What the walk of `s` has come to at pixel `k`: the pixels below it converted, BATCH_IDX and the phase at `k`, and
nothing else changed. -/
structure WalkedTo (s t : State) (q : Nat → Triple Byte) (k : Nat) : Prop where
  frame : t = { s with mem := t.mem, batchIdx := BitVec.ofNat 32 k, phase := .walk k }
  wf : Memory.wf t.mem
  converted : PixelsConverted s t q k

section
variable {p : Pid} {s t : State} {q : Nat → Triple Byte} {k : Nat}

/-- A pixel the walk has not come to still holds its bytes. -/
theorem PixelsConverted.pixelBytes_eq (h : PixelsConverted s t q k) (ha : t.pixelAddr k = s.pixelAddr k) :
    t.pixelBytes k = s.pixelBytes k := by
  obtain ⟨-, hother⟩ := h
  have hbyte : ∀ d ≤ 2, t.byteAt (s.pixelAddr k + d) = s.byteAt (s.pixelAddr k + d) := fun d hd =>
    hother _ fun j hj => by unfold State.pixelAddr; omega
  rw [State.pixelBytes, State.pixelBytes, ha]
  exact triple_eq (hbyte 0 (by omega)) (hbyte 1 (by omega)) (hbyte 2 (by omega))

/-- Writing pixel `k` converts one pixel more. -/
theorem PixelsConverted.writePixel (h : PixelsConverted s t q k) (hm : Memory.wf t.mem)
    (ha : t.pixelAddr k = s.pixelAddr k) :
    PixelsConverted s (writePixel t (t.pixelAddr k) (q k)) q (k + 1) := by
  obtain ⟨hdone, hother⟩ := h
  refine ⟨fun j hj => ?_, fun y hy => ?_⟩
  · rcases Nat.lt_succ_iff_lt_or_eq.1 hj with hj | rfl
    · rw [pixelBytes_writePixel_of_ne t (q k) (by omega), hdone j hj]
    · exact pixelBytes_writePixel hm j (q j)
  · obtain ⟨h0, h1, h2⟩ := hy k (by omega)
    rw [byteAt_writePixel_of_ne t _ y _ (ha ▸ h0) (ha ▸ h1) (ha ▸ h2)]
    exact hother y fun j hj => hy j (by omega)

theorem walkedTo_zero (h : s.Inv) (hw : s.phase = .walk 0) : WalkedTo s s q 0 := by
  obtain ⟨-, -, ⟨hwf, -⟩, hwalk⟩ := h
  obtain ⟨-, hidx, -⟩ := hwalk 0 hw
  exact ⟨by rw [← hidx, ← hw], hwf, nofun, fun _ _ => rfl⟩

theorem WalkedTo.phase_eq (h : WalkedTo s t q k) : t.phase = .walk k := by rw [h.frame]

theorem WalkedTo.npix_eq (h : WalkedTo s t q k) : t.npix = s.npix := by rw [h.frame]; rfl

theorem WalkedTo.cfg_eq (h : WalkedTo s t q k) : t.cfg = s.cfg := by rw [h.frame]

theorem WalkedTo.pixelAddr_eq (h : WalkedTo s t q k) (j : Nat) : t.pixelAddr j = s.pixelAddr j := by
  rw [h.frame]; rfl

/-- At pixel `k` the walk converts the bytes the host left there. -/
theorem WalkedTo.convertPixel_eq (h : WalkedTo s t q k) :
    convertPixel p t k (t.pixelBytes k) = convertPixel p s k (s.pixelBytes k) := by
  rw [h.converted.pixelBytes_eq (h.pixelAddr_eq k), h.frame]
  exact convertPixel_congr p k _ rfl rfl rfl rfl rfl rfl rfl rfl

/-- In the walk the engine takes the step of its BATCH. -/
theorem WalkedTo.engineStep_eq (h : WalkedTo s t q k) (hop : s.operation = .ok p.instr) :
    engineStep t = batchStep p t := by
  have hph : t.phase ≠ .idle := by rw [h.phase_eq]; nofun
  have hopt : t.operation = .ok p.instr := by rw [h.frame]; exact hop
  rw [engineStep_of_ok hph hopt, exec_pid]

/-- A pixel that converts takes the walk one pixel on. -/
theorem WalkedTo.engineStep_of_ok (h : WalkedTo s t q k) (hop : s.operation = .ok p.instr) (hk : k < s.npix)
    (hb : s.pixelAddr k + 2 < s.cfg.memBytes) (hc : convertPixel p s k (s.pixelBytes k) = .ok (q k)) :
    ∃ u, engineStep t = .next u ∧ WalkedTo s u q (k + 1) := by
  rw [← h.npix_eq] at hk
  rw [← h.cfg_eq, ← h.pixelAddr_eq] at hb
  rw [← h.convertPixel_eq] at hc
  refine ⟨_, (h.engineStep_eq hop).trans (batchStep_of_walk_ok p h.phase_eq hk hb hc), ?_, writePixel_wf h.wf _ _,
    h.converted.writePixel h.wf (h.pixelAddr_eq k)⟩
  rw [h.frame]
  rfl

/-- Where the first `k` pixels convert, `k` engine steps take a legal walk there. -/
theorem engineSteps_walkedTo (h : s.Inv) (hw : s.phase = .walk 0) (hop : s.operation = .ok p.instr) (hk : k ≤ s.npix)
    (hc : ∀ j < k, convertPixel p s j (s.pixelBytes j) = .ok (q j)) :
    ∃ t, engineSteps k s = .next t ∧ WalkedTo s t q k := by
  induction k with
  | zero => exact ⟨s, rfl, walkedTo_zero h hw⟩
  | succ k ih =>
    obtain ⟨t, ht, hwalked⟩ := ih (by omega) fun j hj => hc j (by omega)
    rw [engineSteps_succ_of_next ht]
    exact hwalked.engineStep_of_ok hop hk (pixelAddr_lt_memBytes_of_walk h hw hk) (hc k (by omega))

end

/-- Settles O50: the walk comes to its last pixel, and the end step changes STATUS and the phase alone. -/
theorem faultFreeBatchConvertsEveryPixel : Obligations.FaultFreeBatchConvertsEveryPixel := by
  intro p s q h hw hop hc
  obtain ⟨t, ht, hwalked⟩ := engineSteps_walkedTo h hw hop le_rfl hc
  obtain ⟨hpix, hother⟩ := hwalked.converted
  have hend : engineStep t = .next t.complete :=
    (hwalked.engineStep_eq hop).trans (batchStep_of_walk_end p hwalked.phase_eq hwalked.npix_eq.le)
  refine ⟨t.complete, (engineSteps_succ_of_next ht).trans hend, ?_, hpix, hother⟩
  rw [hwalked.frame]
  rfl

/-- Settles O51: the walk comes to pixel `k`, and the fault there writes STATUS, ERR_INFO and the phase alone. -/
theorem batchFaultIsPrecise : Obligations.BatchFaultIsPrecise := by
  intro p s k f q h hw hop hk hc hf
  obtain ⟨t, ht, hwalked⟩ := engineSteps_walkedTo h hw hop hk.le hc
  obtain ⟨hpix, hother⟩ := hwalked.converted
  have hb : t.pixelAddr k + 2 < t.cfg.memBytes := by
    rw [hwalked.pixelAddr_eq, hwalked.cfg_eq]
    exact pixelAddr_lt_memBytes_of_walk h hw hk
  have hend : engineStep t = .next (t.raise f) :=
    (hwalked.engineStep_eq hop).trans (batchStep_of_walk_error p hwalked.phase_eq (hwalked.npix_eq ▸ hk) hb
      (hwalked.convertPixel_eq.trans hf))
  refine ⟨t.raise f, (engineSteps_succ_of_next ht).trans hend, ?_, hpix, hother⟩
  rw [hwalked.frame, State.raise, info_of_convertPixel hf]

end Sys2Proof.Machine

/-! ## Faults, the acknowledge and the interrupt (spec/60_exceptions.md) -/

namespace Sys2Proof.Machine

/-! ### A host write to STATUS (R23, R227) -/

/-- With bit 1 set, after an operation's end, a write to STATUS clears DONE, ERR and ERRCODE; bit 3 clears WLOST. -/
theorem writeStatus_of_ack {s : State} {w : Word} (hw : w.getLsbD 1 = true) (he : s.ended = true) :
    writeStatus s w = { s with
      status := { done := false, err := false, wlost := s.status.wlost && !w.getLsbD 3, errCode := 0x00#8 } } := by
  rw [writeStatus, if_pos hw, State.acknowledge, if_pos he]
  cases w.getLsbD 3 <;> simp

/-- With bit 1 clear, or with no operation ended, a write to STATUS does what its bit 3 says. -/
theorem writeStatus_of_no_ack {s : State} {w : Word} (h : w.getLsbD 1 = false ∨ s.ended = false) :
    writeStatus s w = { s with status := { s.status with wlost := s.status.wlost && !w.getLsbD 3 } } := by
  have hack : (if w.getLsbD 1 then s.acknowledge else s) = s := by
    rcases h with h | h
    · rw [h, if_neg Bool.false_ne_true]
    · rw [State.acknowledge, h, if_neg Bool.false_ne_true, ite_self]
  rw [writeStatus, hack]
  cases w.getLsbD 3 <;> simp

/-- A write to STATUS acknowledges or does not, and clears WLOST by bit 3 either way. -/
theorem writeStatus_status (s : State) (w : Word) :
    (writeStatus s w).status =
      { done := false, err := false, wlost := s.status.wlost && !w.getLsbD 3, errCode := 0x00#8 } ∨
    (writeStatus s w).status = { s.status with wlost := s.status.wlost && !w.getLsbD 3 } := by
  cases hw : w.getLsbD 1 with
  | false => rw [writeStatus_of_no_ack (.inl hw)]; exact .inr rfl
  | true =>
    cases he : s.ended with
    | false => rw [writeStatus_of_no_ack (.inr he)]; exact .inr rfl
    | true => rw [writeStatus_of_ack hw he]; exact .inl rfl

theorem writeStatus_wlost (s : State) (w : Word) :
    (writeStatus s w).status.wlost = (s.status.wlost && !w.getLsbD 3) := by
  rcases writeStatus_status s w with h | h <;> rw [h]

/-- No write to STATUS sets DONE. -/
theorem done_of_writeStatus {s : State} {w : Word} (h : (writeStatus s w).status.done = true) :
    s.status.done = true := by
  rcases writeStatus_status s w with hst | hst <;> rw [hst] at h
  · cases h
  · exact h

/-- DONE of an idle block falls by a write to STATUS with bit 1 set, whatever it was. -/
theorem writeStatus_done_of_idle {s : State} {w : Word} (hb : s.busy = false) (hw : w.getLsbD 1 = true) :
    (writeStatus s w).status.done = false := by
  cases hd : s.status.done with
  | true => rw [writeStatus_of_ack hw (by simp [State.ended, hb, hd])]
  | false => rw [writeStatus_of_no_ack (.inr (by simp [State.ended, hd]))]; exact hd

/-- Settles O5: the acknowledge has its effect exactly where an operation has ended, and bit 3 has its own always. -/
theorem acknowledgeClears : Obligations.AcknowledgeClears := by
  refine fun s w => ⟨⟨_, hostStep_wr_slotOf s .status w, ?frame, ?wlost, fun hw hb hd => ?ack, fun h => ?keep⟩,
    fun hb => ⟨_, hostStep_wr_cmd_of_idle ((busy_eq_false_iff s).1 hb) w, rfl, rfl, rfl⟩⟩
  case frame => rw [writeReg, writeStatus_frame, seeIrq_eq]
  case wlost => rw [writeReg, writeStatus_wlost, seeIrq_status]
  case ack =>
    have he : s.seeIrq.ended = true := by simp [State.ended, hb, hd]
    rw [writeReg, writeStatus_of_ack hw he]
    exact ⟨rfl, rfl, rfl, Bool.and_false _⟩
  case keep =>
    have hno : w.getLsbD 1 = false ∨ s.seeIrq.ended = false := h.imp_right fun h => by
      rcases h with h | h <;> simp [State.ended, h]
    rw [writeReg, writeStatus_of_no_ack hno, seeIrq_status]
    exact ⟨rfl, rfl, rfl⟩

/-! ### A command placed for the next step (R223) -/

theorem tableWord_toNat (w : Word) : tableWord 32 w.toNat = w := by
  rw [tableWord, Nat.mod_eq_of_lt w.isLt, BitVec.ofNat_toNat, BitVec.setWidth_eq]

/-- Settles O15: the placed word is CMD's, its turn is the engine's, and it decodes to the operation. -/
theorem fetchWordRunsNext : Obligations.FetchWordRunsNext := by
  intro s i
  rw [State.withFetchWord, tableWord_toNat]
  calc step (s.withCommand (encode i))
      = engineStep (s.startCommand (encode i)) := step_of_engine rfl
    _ = exec i (s.startCommand (encode i)) := engineStep_of_ok nofun (decode_encode i)

/-! ### How far the engine is from the end of its operation (R223, R265, R266) -/

/-- A bound on the engine's steps to the end of its operation, by the phase: the entry step, the pixels left and the end
step. -/
def State.stepsLeft (s : State) : Nat :=
  match s.phase with
  | .idle => 0
  | .run => s.npix + 2
  | .walk k => s.npix - k + 1

theorem stepsLeft_of_run {s : State} (h : s.phase = .run) : s.stepsLeft = s.npix + 2 := by rw [State.stepsLeft, h]

theorem stepsLeft_of_walk {s : State} {k : Nat} (h : s.phase = .walk k) : s.stepsLeft = s.npix - k + 1 := by
  rw [State.stepsLeft, h]

theorem stepsLeft_le (s : State) : s.stepsLeft ≤ s.npix + 2 := by
  unfold State.stepsLeft
  split <;> omega

theorem stepsLeft_pos {s : State} (hb : s.busy = true) : 0 < s.stepsLeft := by
  cases hp : s.phase with
  | idle => exact absurd hp ((busy_eq_true_iff s).1 hb)
  | run => rw [stepsLeft_of_run hp]; omega
  | walk k => rw [stepsLeft_of_walk hp]; omega

/-- A busy engine's step ends the operation with DONE, or is a BATCH's, which leaves STATUS and comes nearer its end. -/
theorem engineStep_ends_or_goes_on {s t : State} (hb : s.busy = true) (h : engineStep s = .next t) :
    (t.phase = .idle ∧ t.status.done = true) ∨
    (t.busy = true ∧ t.status = s.status ∧ t.stepsLeft < s.stepsLeft ∧ ∃ p : Pid, s.operation = .ok p.instr) := by
  have hph := (busy_eq_true_iff s).1 hb
  rcases engineStep_cases h with ⟨hi, -⟩ | ⟨-, rfl⟩ | ⟨-, i, hop, h⟩
  · exact absurd hi hph
  · exact .inl ⟨rfl, rfl⟩
  cases hp : i.pid? with
  | none =>
    obtain ⟨hi, hd, -⟩ := nonBatchFrame i s t hp h
    exact .inl ⟨hi, hd⟩
  | some p =>
    obtain rfl := eq_instr_of_pid? hp
    rw [exec_pid] at h
    rcases batchStep_cases h with ⟨-, f, -, rfl⟩ | ⟨hw, -, rfl⟩ | ⟨k, b, f, -, -, -, -, rfl⟩ |
      ⟨k, b, q, hw, hk, -, -, rfl⟩ | ⟨k, -, -, rfl⟩
    case inr.inl =>
      have hrun : s.phase = .run := by
        cases hs : s.phase with
        | idle => exact absurd hs hph
        | run => rfl
        | walk k => exact absurd hs (hw k)
      refine .inr ⟨rfl, rfl, ?_, p, hop⟩
      rw [stepsLeft_of_run hrun, stepsLeft_of_walk (s := s.advanceTo 0) rfl]
      exact Nat.lt_succ_self _
    case inr.inr.inr.inl =>
      refine .inr ⟨rfl, rfl, ?_, p, hop⟩
      rw [stepsLeft_of_walk hw, stepsLeft_of_walk (s := State.advanceTo _ (k + 1)) rfl]
      change s.npix - (k + 1) + 1 < s.npix - k + 1
      omega
    all_goals exact .inl ⟨rfl, rfl⟩

/-! ### What a host step does to STATUS (R23, R227, R260) -/

theorem guarded_status (s t : State) :
    (guarded s t).status = { s.status with wlost := true } ∨ (guarded s t).status = t.status := by
  unfold guarded
  split
  · exact .inl rfl
  · exact .inr rfl

/-- STATUS after a host write to a register: as it was, with WLOST, cleared by a start, or by its own rules. -/
theorem writeReg_status (s : State) (g : Reg) (w : Word) :
    (writeReg s g w).status = s.status ∨
    (writeReg s g w).status = { s.status with wlost := true } ∨
    (writeReg s g w).status = { done := false, err := false, wlost := s.status.wlost, errCode := 0x00#8 } ∨
    (g = .status ∧ (writeReg s g w).status = (writeStatus s w).status) := by
  cases g
  case status => exact .inr (.inr (.inr ⟨rfl, rfl⟩))
  case ctrl | errInfo | r0 | r1 | r2 | batchIdx => exact .inl rfl
  case cmd => exact .inr ((guarded_status s _).imp_right .inl)
  all_goals exact (guarded_status s _).elim (fun h => .inr (.inl h)) .inl

theorem eq_slotOf_status : ∀ slot, regOfSlot slot = some .status → slot = slotOf .status := by decide

/-- STATUS after a host step. -/
theorem hostStep_status {act : HostAction} {s t : State} (h : hostStep act s = .next t) :
    t.status = s.status ∨
    t.status = { s.status with wlost := true } ∨
    t.status = { done := false, err := false, wlost := s.status.wlost, errCode := 0x00#8 } ∨
    (∃ w, act = .wr (slotOf .status) w ∧ t.status = (writeStatus s.seeIrq w).status) ∨
    (act = .reset ∧ t.status = State.reset.status) := by
  cases act with
  | rd slot => injection h with h; subst h; simp
  | wb addr b => obtain ⟨-, rfl⟩ := hostByteAccess_cases h; simp
  | rb addr => obtain ⟨-, rfl⟩ := hostByteAccess_cases h; simp
  | reset => injection h with h; subst h; exact .inr (.inr (.inr (.inr ⟨rfl, rfl⟩)))
  | wr slot w =>
    injection h with h
    subst h
    unfold hostWrite
    split
    · rename_i g hg
      have hcases := writeReg_status s.seeIrq g w
      rw [seeIrq_status] at hcases
      rcases hcases with h | h | h | ⟨rfl, h⟩
      · exact .inl h
      · exact .inr (.inl h)
      · exact .inr (.inr (.inl h))
      · exact .inr (.inr (.inr (.inl ⟨w, by rw [eq_slotOf_status slot hg], h⟩)))
    · simp

/-! ### The interrupt (R230) -/

/-- No host step sets DONE. -/
theorem done_of_hostStep {act : HostAction} {s t : State} (h : hostStep act s = .next t)
    (hd : t.status.done = true) : s.status.done = true := by
  rcases hostStep_status h with h | h | h | ⟨w, -, h⟩ | ⟨-, h⟩ <;> rw [h] at hd
  · exact hd
  · exact hd
  · cases hd
  · rw [← seeIrq_status]
    exact done_of_writeStatus hd
  · cases hd

/-- The engine sets DONE in a step that ends its operation only. -/
theorem engineStep_sets_done {s t : State} (h : engineStep s = .next t) (hd : s.status.done = false)
    (hd' : t.status.done = true) : s.busy = true ∧ t.phase = .idle := by
  cases hb : s.busy with
  | false =>
    rw [engineStep_of_idle ((busy_eq_false_iff s).1 hb)] at h
    injection h with h
    rw [← h, hd] at hd'
    cases hd'
  | true =>
    rcases engineStep_ends_or_goes_on hb h with ⟨hi, -⟩ | ⟨-, hst, -⟩
    · exact ⟨rfl, hi⟩
    · rw [hst, hd] at hd'
      cases hd'

theorem irq_of_not_done {s : State} (h : s.status.done = false) : s.irq = false := by rw [State.irq, h, Bool.and_false]

/-- Settles O11: the engine's end sets DONE, no other step does, and the writes are the host's rules. -/
theorem irqFollowsDone : Obligations.IrqFollowsDone := by
  refine ⟨rfl, fun s t hb h hi => ?ends, fun s t h hd hd' => ?only, fun s t w hb h => ?start, fun s t w hb hw h => ?ack,
    fun s t w hd hw h => ?enable⟩
  case ends =>
    rcases engineStep_ends_or_goes_on hb h with ⟨-, hd⟩ | ⟨hbusy, -⟩
    · rw [State.irq, hd, Bool.and_true, engineStep_frame h]
    · exact absurd hi ((busy_eq_true_iff t).1 hbusy)
  case only =>
    obtain ⟨u, hu, hcase⟩ := step_cases h
    obtain ⟨hub, hud⟩ : u.busy = s.busy ∧ u.status = s.status := by rcases hu with rfl | rfl <;> exact ⟨rfl, rfl⟩
    rw [← hud] at hd
    rw [← hub]
    rcases hcase with he | ⟨act, hh, -⟩
    · exact engineStep_sets_done he hd hd'
    · rw [done_of_hostStep hh hd'] at hd
      cases hd
  case start =>
    rw [hostStep_wr_cmd_of_idle ((busy_eq_false_iff s).1 hb)] at h
    injection h with h
    subst h
    exact irq_of_not_done rfl
  case ack =>
    rw [hostStep_wr_slotOf] at h
    injection h with h
    subst h
    exact irq_of_not_done (writeStatus_done_of_idle ((seeIrq_busy s).trans hb) hw)
  case enable =>
    obtain ⟨-, hctrl⟩ := controlHoldsIrqEnable
    obtain ⟨u, hu, -, hirq, -⟩ := hctrl s w
    obtain rfl : u = t := Host.Outcome.next.inj (hu.symm.trans h)
    rw [hirq, hw, hd]
    rfl

/-! ### Which fault ends an operation (R220, R222) -/

/-- The operations with a root stage past their operand check. -/
def rootStageOps : List Instr :=
  [.root3, .root5, .root12, .xyz2lab, .xyz2luv, .xyz2luvPw, .xyz2srgb, .srgb2lab, .lab2srgb]

theorem onlyRootFaults_xyzToSrgb (cfg : Config) (c : Triple F32) : OnlyRootFaults (xyzToSrgb cfg c) :=
  onlyRootFaults_lanewise (onlyRootFaults_srgbEncode cfg) _

theorem onlyRootFaults_srgbToLab (cfg : Config) (w c : Triple F32) : OnlyRootFaults (srgbToLab cfg w c) :=
  onlyRootFaults_bind
    (onlyRootFaults_bind (onlyRootFaults_lanewise (onlyRootFaults_srgbDecode cfg) c) fun _ => onlyRootFaults_ok _)
    fun _ => onlyRootFaults_xyzToLab cfg w _

/-- An operation with a root stage checks its registers and then evaluates a triple that only a root can stop. -/
theorem exec_eq_runTriple_of_rootStage {i : Instr} (s : State) (hi : i ∈ rootStageOps) :
    ∃ e, exec i s = runTriple s (checkedRegs i) e ∧ OnlyRootFaults e := by
  cases i
  case root3 | root5 | root12 =>
    exact ⟨_, rfl, onlyRootFaults_lanewise (fun v _ => onlyRootFaults_rootEngine _ _ v) _⟩
  case xyz2lab => exact ⟨_, rfl, onlyRootFaults_xyzToLab _ _ _⟩
  case xyz2luv | xyz2luvPw => exact ⟨_, rfl, onlyRootFaults_xyzToLuvPw _ _ _ _ _⟩
  case xyz2srgb | lab2srgb => exact ⟨_, rfl, onlyRootFaults_xyzToSrgb _ _⟩
  case srgb2lab => exact ⟨_, rfl, onlyRootFaults_srgbToLab _ _ _⟩
  all_goals exact absurd hi (by decide)

/-- Every other operation but WSET that is no BATCH completes once its operand check passes. -/
theorem exec_completes_of_finiteRegs {i : Instr} {s : State} (hp : i.pid? = none) (hi : i ∉ rootStageOps)
    (hw : i ≠ .wset) (hr : s.FiniteRegs (checkedRegs i)) : ∃ u : State, exec i s = .next u.complete := by
  cases i
  case nop => exact ⟨s, rfl⟩
  case srgbDec => exact ⟨_, srgbDecodeCompletes s ((finiteRegs_aRegs s).1 hr)⟩
  case srgbEnc => exact ⟨_, srgbEncodeCompletes s ((finiteRegs_aRegs s).1 hr)⟩
  case labFwd => exact ⟨_, labForwardCompletes s ((finiteRegs_aRegs s).1 hr)⟩
  case srgb2xyz => exact ⟨_, runTriple_of_ok hr (srgbToXyz_of_finite s.cfg ((finiteRegs_aRegs s).1 hr))⟩
  case quant =>
    obtain ⟨ha, ho⟩ := (finiteRegs_quantRegs s).1 hr
    exact ⟨_, exec_quant_of_finite ha ho⟩
  case labInv | lab2xyz | uvp | luv2xyz | luv2xyzPw | matFwd | matInv => exact ⟨_, runTriple_of_ok hr rfl⟩
  case wset => exact absurd rfl hw
  case root3 | root5 | root12 | xyz2lab | xyz2luv | xyz2luvPw | xyz2srgb | srgb2lab | lab2srgb =>
    exact absurd (by decide) hi
  all_goals cases hp

/-- Past its operand check WSET faults for a zero y alone (R141, R151). -/
theorem exec_wset_fault {s t : State} (hs : s.a.Finite) (h : exec .wset s = .next t) (herr : t.status.err = true) :
    t = s.raise ⟨.whiteZero, 0⟩ ∧ isZero s.a.c1 = true := by
  rw [exec_wset_of_finite hs] at h
  cases hz : isZero s.a.c1 with
  | true =>
    rw [whiteFromXyY_of_isZero _ _ hz, endStep_error] at h
    injection h with h
    exact ⟨h.symm, rfl⟩
  | false =>
    rw [whiteFromXyY_of_not_isZero _ _ hz, endStep_ok] at h
    injection h with h
    subst h
    cases herr

/-- The faults of an operation that is no BATCH: its operand check's, or past it a root's or WSET's. -/
theorem exec_nonbatch_fault {i : Instr} {s t : State} (hp : i.pid? = none) (h : exec i s = .next t)
    (herr : t.status.err = true) :
    ∃ f : OpFault, t = s.raise f ∧
      (checkFinite s (checkedRegs i) = .error f ∨
        s.FiniteRegs (checkedRegs i) ∧ f.code = .domainRoot ∧ f.info ≤ 2 ∧ i ∈ rootStageOps ∨
        s.FiniteRegs (checkedRegs i) ∧ f = ⟨.whiteZero, 0⟩ ∧ i = .wset ∧ isZero s.a.c1 = true) := by
  cases hc : checkFinite s (checkedRegs i) with
  | error f =>
    rw [exec_of_check_error hp hc] at h
    injection h with h
    exact ⟨f, h.symm, .inl rfl⟩
  | ok u =>
    have hr : s.FiniteRegs (checkedRegs i) := (checkFinite_ok_iff s _).1 hc
    by_cases hi : i ∈ rootStageOps
    · obtain ⟨e, hexec, honly⟩ := exec_eq_runTriple_of_rootStage s hi
      obtain ⟨f, rfl, hf | ⟨-, rfl⟩⟩ := runTriple_fault (hexec.symm.trans h) herr
      · rw [hc] at hf
        cases hf
      · obtain ⟨hcode, hinfo⟩ := honly f rfl
        exact ⟨f, rfl, .inr (.inl ⟨hr, hcode, hinfo, hi⟩)⟩
    by_cases hw : i = .wset
    · subst hw
      obtain ⟨ht, hz⟩ := exec_wset_fault ((finiteRegs_aRegs s).1 hr) h herr
      exact ⟨_, ht, .inr (.inr ⟨hr, rfl, rfl, hz⟩)⟩
    · obtain ⟨u, hu⟩ := exec_completes_of_finiteRegs hp hi hw hr
      rw [hu] at h
      injection h with h
      subst h
      cases herr

/-- A BATCH's step that ends it with a fault is its entry step or a pixel step, and the fault is that step's check's. -/
theorem batchStep_fault {p : Pid} {s t : State} (h : batchStep p s = .next t) (hidle : t.phase = .idle)
    (herr : t.status.err = true) :
    ((∀ k, s.phase ≠ .walk k) ∧ ∃ f, batchEntryCheck p s = .error f ∧ t = { s with batchIdx := 0#32 }.raise f) ∨
    ∃ k f, s.phase = .walk k ∧ convertPixel p s k (s.pixelBytes k) = .error f ∧ t = s.raise f := by
  rcases batchStep_cases h with hentry | ⟨-, -, rfl⟩ | ⟨k, b, f, hw, -, hb, hf, rfl⟩ | ⟨k, b, q, -, -, -, -, rfl⟩ |
    ⟨k, -, -, rfl⟩
  · exact .inl hentry
  · cases hidle
  · rw [readPixel_eq] at hb
    obtain ⟨-, hb⟩ := Option.ite_none_right_eq_some.1 hb
    obtain rfl : s.pixelBytes k = b := Option.some.inj hb
    exact .inr ⟨k, f, hw, hf, rfl⟩
  · cases hidle
  · cases herr

/-- Settles O16: the record is `raise`, and the fault is what stopped the one step the engine took. -/
theorem faultRecording : Obligations.FaultRecording := by
  refine ⟨by decide, fun s f => rfl, fun s t h hb hidle herr => ?_⟩
  have hph := (busy_eq_true_iff s).1 hb
  refine ⟨fun hno => ?reserved, fun i hop hp => ?nonbatch, fun p hop => ?batch⟩
  case reserved =>
    cases hop : s.operation with
    | ok i => exact absurd hop (hno i)
    | error e => exact (Host.Outcome.next.inj ((engineStep_of_error hph hop).symm.trans h)).symm
  case nonbatch =>
    rw [engineStep_of_ok hph hop] at h
    obtain ⟨f, ht, hcheck | hpast⟩ := exec_nonbatch_fault hp h herr
    · exact ⟨f, ht, .inl (checkFinite_error hcheck)⟩
    · exact ⟨f, ht, .inr hpast⟩
  case batch =>
    rw [engineStep_of_ok hph hop, exec_pid] at h
    rcases batchStep_fault h hidle herr with ⟨hw, hentry⟩ | ⟨k, f, hw, hf, rfl⟩
    · exact ⟨fun _ => hentry, fun k hk => absurd hk (hw k)⟩
    · refine ⟨fun hno => absurd hw (hno k), fun j hj => ?_⟩
      obtain rfl : k = j := Phase.walk.inj (hw.symm.trans hj)
      refine ⟨f, hf, info_of_convertPixel hf, rfl, fun hinv => ?_⟩
      obtain ⟨-, -, -, hwalk⟩ := hinv
      obtain ⟨-, hidx, -⟩ := hwalk k hw
      exact hidx

end Sys2Proof.Machine

/-! ## Reset, writes while an operation runs, and the end of every operation (spec/70_reset_and_hazards.md) -/

namespace Sys2Proof.Machine

/-! ### The reset signal (R250, R251) -/

theorem get_hardReset (s : State) (g : Reg) : (hardReset s).get g = State.reset.get g := by cases g <;> rfl

/-- Settles O13: the registers are those of `State.reset`, and an IDLE engine has no step. -/
theorem resetSignal : Obligations.ResetSignal := by
  refine ⟨fun s => ⟨hardReset s.seeIrq, rfl, fun g hg => ?zeros, fun g hg => ?scales, fun slot hslot => ?reserved, rfl,
    rfl, seeIrq_mem s, seeIrq_cfg s, engineStep_of_idle rfl⟩, rfl, rfl⟩
  case zeros =>
    rw [get_hardReset, and_self]
    fin_cases hg <;> rfl
  case scales =>
    rw [get_hardReset, and_self]
    fin_cases hg <;> rfl
  case reserved => rw [hostRead, regOfSlot_of_reserved slot hslot]

/-! ### Writes while an operation runs (R260) -/

/-- While BUSY = 1 a host write to a register's slot is the register's write, with no IRQ seen. -/
theorem hostStep_wr_slotOf_of_busy {s : State} (hb : s.busy = true) (g : Reg) (w : Word) :
    hostStep (.wr (slotOf g) w) s = .next (writeReg s g w) := by
  rw [hostStep_wr_slotOf, seeIrq_of_busy s hb]

/-- The engine leaves WLOST. -/
theorem engineStep_wlost {s t : State} (h : engineStep s = .next t) : t.status.wlost = s.status.wlost := by
  rcases engineStep_cases h with ⟨-, rfl⟩ | ⟨-, rfl⟩ | ⟨-, i, -, h⟩
  · rfl
  · rfl
  cases hp : i.pid? with
  | none =>
    obtain ⟨-, -, hwlost, -⟩ := nonBatchFrame i s t hp h
    exact hwlost
  | some p =>
    obtain ⟨-, hwlost, -⟩ := batchFrame p s t (eq_instr_of_pid? hp ▸ h)
    exact hwlost

/-- The host clears WLOST by bit 3 of a write to STATUS and by the reset signal only. -/
theorem wlost_of_hostStep {act : HostAction} {s t : State} (h : hostStep act s = .next t)
    (hl : s.status.wlost = true) :
    t.status.wlost = true ∨ (∃ w, act = .wr (slotOf .status) w ∧ w.getLsbD 3 = true) ∨ act = .reset := by
  rcases hostStep_status h with h | h | h | ⟨w, hact, h⟩ | ⟨hact, -⟩
  · exact .inl (h ▸ hl)
  · exact .inl (h ▸ rfl)
  · exact .inl (h ▸ hl)
  · rw [h, writeStatus_wlost, seeIrq_status, hl, Bool.true_and]
    cases hw : w.getLsbD 3 with
    | true => exact .inr (.inl ⟨w, hact, hw⟩)
    | false => exact .inl rfl
  · exact .inr (.inr hact)

/-- WLOST over a step: it stays, but where the host's turn writes STATUS bit 3 or gives the reset signal. -/
theorem wlost_of_step {s t : State} (h : step s = .next t) (hl : s.status.wlost = true) :
    t.status.wlost = true ∨
    (∃ (w : Word) (rest : List Turn), s.script = .host (.wr (slotOf .status) w) :: rest ∧ w.getLsbD 3 = true) ∨
    ∃ rest : List Turn, s.script = .host .reset :: rest := by
  cases hs : s.script with
  | nil =>
    rw [step_of_nil hs] at h
    exact .inl ((engineStep_wlost h).trans hl)
  | cons turn rest =>
    cases turn with
    | engine =>
      rw [step_of_engine hs] at h
      exact .inl ((engineStep_wlost h).trans hl)
    | host act =>
      rw [step_of_host hs] at h
      rcases wlost_of_hostStep h hl with ht | ⟨w, rfl, hw⟩ | rfl
      · exact .inl ht
      · exact .inr (.inl ⟨w, rest, rfl, hw⟩)
      · exact .inr (.inr ⟨rest, rfl⟩)
    | wait =>
      rw [step_of_wait hs] at h
      split at h
      · exact .inl ((engineStep_wlost h).trans hl)
      · exact .inl ((wlost_of_hostStep h hl).resolve_right nofun)

/-- Settles O8: the writes by the class of their register; WLOST by whose step it is. -/
theorem writesWhileBusy : Obligations.WritesWhileBusy := by
  refine ⟨fun s w hb => ⟨fun g hg => ?idleOnly, fun g hg => ?ro, fun slot hslot => ?reserved, ?ctrl, ?status⟩,
    fun s t hl h => wlost_of_step h hl⟩
  case idleOnly => rw [hostStep_wr_slotOf_of_busy hb, writeReg_of_busy hb w hg]
  case ro => rw [hostStep_wr_slotOf_of_busy hb, writeReg_of_ro s w hg]
  case reserved => rw [hostStep_of_busy s _ hb, hostMove, hostWrite, regOfSlot_of_reserved slot hslot]
  case ctrl => exact hostStep_wr_slotOf_of_busy hb .ctrl w
  case status =>
    have hno : s.ended = false := by simp [State.ended, hb]
    rw [hostStep_wr_slotOf_of_busy hb, writeReg, writeStatus_of_no_ack (.inr hno)]

/-! ### Every operation ends (R265, R266) -/

theorem engineSteps_succ {n : Nat} {s u : State} (h : engineStep s = .next u) :
    engineSteps (n + 1) s = engineSteps n u := by rw [engineSteps, h]

/-- From a legal busy state the engine alone comes to the end of its operation in the steps left. -/
theorem engineSteps_end (n : Nat) {s : State} (hinv : s.Inv) (hb : s.busy = true) (hn : s.stepsLeft ≤ n) :
    ∃ m ≤ n, ∃ t, engineSteps m s = .next t ∧ t.phase = .idle ∧ t.status.done = true := by
  induction n generalizing s with
  | zero => exact absurd (stepsLeft_pos hb) (by omega)
  | succ n ih =>
    obtain ⟨u, hu⟩ := engineNeverStops s hinv
    rcases engineStep_ends_or_goes_on hb hu with hend | ⟨hub, -, hlt, -⟩
    · exact ⟨1, by omega, u, engineSteps_succ hu, hend⟩
    · obtain ⟨m, hm, t, ht, hend⟩ := ih (engineStep_inv hinv hu) hub (by omega)
      exact ⟨m + 1, by omega, t, (engineSteps_succ hu).trans ht, hend⟩

/-- Settles O52: the steps left fall until the end, and only a BATCH takes more than one. -/
theorem everyOperationEnds : Obligations.EveryOperationEnds := by
  intro s hinv hb
  refine ⟨engineSteps_end _ hinv hb (stepsLeft_le s), fun hno => ?_⟩
  obtain ⟨u, hu⟩ := engineNeverStops s hinv
  rcases engineStep_ends_or_goes_on hb hu with hend | ⟨-, -, -, p, hop⟩
  · exact ⟨u, engineSteps_succ hu, hend⟩
  · exact absurd hop (hno p)

end Sys2Proof.Machine
